-- ==== Sys2Proof/Word.lean ====
section
/-! DEFINITION. The engine's number types: bytes, the block function's 32-bit words, the 64-bit register values,
and the three round counts (00_scope.md R13–R16). -/

namespace Sys2Proof

/-- One byte of host memory, of a key, of a nonce or of keystream (00_scope.md R16). -/
abbrev Byte := BitVec 8

/-- A word of the block function (`u32` of 00_scope.md R14, R15). -/
abbrev Word32 := BitVec 32

/-- A register value or a host address (`u64` of 00_scope.md R14; 10_state.md R31, R55). -/
abbrev Word := BitVec 64

/-- The round count, "one of three fixed values (8, 12, 20)" (00_scope.md R3, 30_encoding.md R103). -/
inductive Rounds where
  | r8
  | r12
  | r20
deriving DecidableEq, Repr

end Sys2Proof
end

