-- ==== Sys2Proof/Syntax.lean ====
section
/-! DEFINITION. The commands of the engine: one constructor for each row of spec/opcode_table.json
(30_encoding.md R102). Operands are not part of a command word: they stand in ARG0–ARG6 (R101, R108), so a command
carries only its round count and, for INIT, whether the initial counter is present. -/

namespace Sys2Proof

/-- A decoded command (30_encoding.md R102, R114): exactly the 22 legal words have a term here. -/
inductive Instr where
  /-- OP 0x01: construct a cipher instance; `counter` is the C flag (R104). 42_cursor.md R190. -/
  | init (rounds : Rounds) (counter : Bool)
  /-- OP 0x02: XOR keystream into a buffer. 42_cursor.md R194. -/
  | apply
  /-- OP 0x03: move the cursor. 42_cursor.md R198. -/
  | seek
  /-- OP 0x04: read the cursor position. 42_cursor.md R200. -/
  | tell
  /-- OP 0x05: destroy the instance. 42_cursor.md R202. -/
  | zeroize
  /-- OP 0x08: construct a generator. 44_generator.md R250. -/
  | genInit (rounds : Rounds)
  /-- OP 0x09: write raw keystream bytes. 44_generator.md R253. -/
  | fill
  /-- OP 0x0A: set the word position. 44_generator.md R255. -/
  | setWpos
  /-- OP 0x0B: read the word position. 44_generator.md R257. -/
  | getWpos
  /-- OP 0x10: derive a subkey and a subnonce. 43_subkey.md R233. -/
  | derive (rounds : Rounds)
  /-- OP 0x11: write consecutive raw blocks. 41_backends.md R170. -/
  | blocks (rounds : Rounds)
deriving DecidableEq, Repr

end Sys2Proof
end

