-- ==== Sys2Proof/WellFormed.lean ====
section
/-! DEFINITION. Which 64-bit values are command words, check by check (30_encoding.md R100, R105, R106), written
without the decoder so that the two can be held against each other; and the well-formedness of a decoded command. -/

namespace Sys2Proof

/-- Bits 63:11 "must be 0" (30_encoding.md R100). -/
def WellFormed.reservedClear (w : Word) : Bool := w.extractLsb' 11 53 == 0

/-- OP is one of the eleven opcodes (30_encoding.md R102). -/
def WellFormed.opcodeListed (w : Word) : Bool :=
  [0x01#8, 0x02#8, 0x03#8, 0x04#8, 0x05#8, 0x08#8, 0x09#8, 0x0A#8, 0x0B#8, 0x10#8, 0x11#8].contains (w.extractLsb' 0 8)

/-- The opcodes for which RND is meaningful: INIT, GEN_INIT, DERIVE, BLOCKS (30_encoding.md R100). -/
def WellFormed.takesRounds (w : Word) : Bool :=
  [0x01#8, 0x08#8, 0x10#8, 0x11#8].contains (w.extractLsb' 0 8)

/-- RND is not the reserved 0b11, and is 0 where the opcode takes no round count (30_encoding.md R100, R103). -/
def WellFormed.roundsLegal (w : Word) : Bool :=
  if WellFormed.takesRounds w then w.extractLsb' 8 2 != 3#2 else w.extractLsb' 8 2 == 0#2

/-- C is "meaningful for INIT only; must be 0 for every other opcode" (30_encoding.md R100). -/
def WellFormed.counterFlagLegal (w : Word) : Bool :=
  w.extractLsb' 0 8 == 0x01#8 || w.extractLsb' 10 1 == 0#1

/-- All the checks of 30_encoding.md R105 together: the word is one of the 22 legal ones. -/
def WellFormed.commandWord (w : Word) : Bool :=
  WellFormed.reservedClear w && WellFormed.opcodeListed w && WellFormed.roundsLegal w && WellFormed.counterFlagLegal w

/-- Well-formedness of a decoded command: its operand types hold exactly the legal round counts and flags, so every
term of `Instr` is well formed (30_encoding.md R114). Each constructor is listed, so that a new one must be thought of. -/
def Instr.wellFormed : Instr → Bool
  | .init _ _ => true
  | .apply => true
  | .seek => true
  | .tell => true
  | .zeroize => true
  | .genInit _ => true
  | .fill => true
  | .setWpos => true
  | .getWpos => true
  | .derive _ => true
  | .blocks _ => true

end Sys2Proof
end

