-- ==== Sys2Proof/Decode.lean ====
section
/-! DEFINITION. The command decoder, total on every 64-bit value (30_encoding.md R105), the encoder written from the
same tables (R100, R102, R103), and the reader of words numbered as spec/opcode_table.json numbers them. -/

namespace Sys2Proof

/-- Why a CMD value is IllegalCommand (30_encoding.md R106), one name for each of the rule's cases. -/
inductive DecodeError where
  /-- "any 1 in bits 63:11" -/
  | reservedBits
  /-- "every OP value outside the map" -/
  | reservedOpcode
  /-- "RND = 0b11 for any opcode" (for an opcode that takes a round count) -/
  | reservedRounds
  /-- "C = 1 for any opcode but INIT" (for an opcode that takes a round count) -/
  | misplacedCounterFlag
  /-- RND ≠ 0 or C = 1 for an opcode that takes neither -/
  | misplacedRounds
deriving DecidableEq, Repr

/-- The RND field's meaning; 0b11 is reserved (30_encoding.md R103). -/
def decodeRounds (code : BitVec 2) : Option Rounds :=
  if code = 0#2 then some .r8 else if code = 1#2 then some .r12 else if code = 2#2 then some .r20 else none

/-- The code of a round count (30_encoding.md R103). -/
def encodeRounds : Rounds → BitVec 2
  | .r8 => 0#2
  | .r12 => 1#2
  | .r20 => 2#2

/-- The opcodes that take a round count, with their command (30_encoding.md R102); `c` matters to INIT only. -/
def constructorOf (op : BitVec 8) (rounds : Rounds) (c : Bool) : Option Instr :=
  if op = 0x01#8 then some (.init rounds c)
  else if op = 0x08#8 then some (.genInit rounds)
  else if op = 0x10#8 then some (.derive rounds)
  else if op = 0x11#8 then some (.blocks rounds)
  else none

/-- The opcodes that take no round count (30_encoding.md R102). -/
def plainCommand (op : BitVec 8) : Option Instr :=
  if op = 0x02#8 then some .apply
  else if op = 0x03#8 then some .seek
  else if op = 0x04#8 then some .tell
  else if op = 0x05#8 then some .zeroize
  else if op = 0x09#8 then some .fill
  else if op = 0x0A#8 then some .setWpos
  else if op = 0x0B#8 then some .getWpos
  else none

/-- `decode(w)` of 30_encoding.md R105. -/
def decode (w : Word) : Except DecodeError Instr :=
  let op := w.extractLsb' 0 8
  let rnd := w.extractLsb' 8 2
  let c := w.extractLsb' 10 1
  if w.extractLsb' 11 53 ≠ 0 then .error .reservedBits
  else if WellFormed.takesRounds w then
    match decodeRounds rnd with
    | none => .error .reservedRounds
    | some rounds =>
      if op ≠ 0x01#8 ∧ c = 1#1 then .error .misplacedCounterFlag
      else match constructorOf op rounds (c == 1#1) with
        | some i => .ok i
        | none => .error .reservedOpcode
  else match plainCommand op with
    | none => .error .reservedOpcode
    | some i => if rnd ≠ 0#2 ∨ c ≠ 0#1 then .error .misplacedRounds else .ok i

/-- The opcode number of a command (30_encoding.md R102). -/
def opcodeOf : Instr → BitVec 8
  | .init _ _ => 0x01#8
  | .apply => 0x02#8
  | .seek => 0x03#8
  | .tell => 0x04#8
  | .zeroize => 0x05#8
  | .genInit _ => 0x08#8
  | .fill => 0x09#8
  | .setWpos => 0x0A#8
  | .getWpos => 0x0B#8
  | .derive _ => 0x10#8
  | .blocks _ => 0x11#8

/-- The RND field of a command's word: its round count's code, or 0 (30_encoding.md R100, R103). -/
def roundsField : Instr → BitVec 2
  | .init rounds _ => encodeRounds rounds
  | .genInit rounds => encodeRounds rounds
  | .derive rounds => encodeRounds rounds
  | .blocks rounds => encodeRounds rounds
  | .apply => 0#2
  | .seek => 0#2
  | .tell => 0#2
  | .zeroize => 0#2
  | .fill => 0#2
  | .setWpos => 0#2
  | .getWpos => 0#2

/-- The C field of a command's word (30_encoding.md R100, R104). -/
def counterField : Instr → BitVec 1
  | .init _ c => if c then 1#1 else 0#1
  | .apply => 0#1
  | .seek => 0#1
  | .tell => 0#1
  | .zeroize => 0#1
  | .genInit _ => 0#1
  | .fill => 0#1
  | .setWpos => 0#1
  | .getWpos => 0#1
  | .derive _ => 0#1
  | .blocks _ => 0#1

/-- The command word: OP | RND << 8 | C << 10, reserved bits 0 (30_encoding.md R100, R111). -/
def encode (i : Instr) : Word :=
  0#53 ++ counterField i ++ roundsField i ++ opcodeOf i

/-- What the decoder reads from a CMD value given as the opcode table numbers its bits: a command is one 64-bit value
(30_encoding.md R100, R101), so bits above `nbits` are 0 and no byte order is involved (20_memory.md R71). -/
def decodeTableWord (nbits w : Nat) : Option Instr :=
  match decode (BitVec.ofNat 64 (w % 2 ^ nbits)) with
  | .ok i => some i
  | .error _ => none

end Sys2Proof
end

