-- ==== Sys2Proof/Config.lean ====
section
/-! DEFINITION. What an implementation fixes (the parameters of 00_scope.md R11) and the free values the spec leaves
open (60_exceptions.md R284, 20_memory.md R85). The parameters are plain data that `State` holds, so that a statement about every
state is a statement about every choice of them; the free values are constants without a body. -/

namespace Sys2Proof

/-- The backends DOC0 names, and any further one an implementation builds in (00_scope.md R11, 41_backends.md R167). -/
inductive Backend where
  | portable
  | wideVector
  | narrowVector
  | other (n : Nat)
deriving DecidableEq, Repr

/-- The two kinds of engine access to host memory (00_scope.md R11). -/
inductive AccessKind where
  | read
  | write
deriving DecidableEq, Repr

/-- `size` host bytes from `base` to which accesses of one kind are not admitted. -/
structure HostRange where
  kind : AccessKind
  base : Nat
  size : Nat
deriving DecidableEq, Repr

/-- The parameters of 00_scope.md R11 that are not the number of instances: they "hold from power-on and do not
change while the engine is powered" (70_reset_and_hazards.md R314). -/
structure Params where
  /-- ENGINE_BASE: the host address of instance 0's window. -/
  engineBase : Word
  /-- HostAdmit, as the ranges it does not admit; every predicate on host addresses has such a list. -/
  hostDenied : List HostRange
  /-- BACKENDS. -/
  backends : List Backend
  /-- BACKEND_ORDER. -/
  backendOrder : List Backend
  /-- FEAT, as the backends whose required feature bit is set. -/
  feat : List Backend
  /-- FORCE_PORTABLE. -/
  forcePortable : Bool
  /-- BATCH(b) for vector backends; `Portable` has 1 whatever stands here (41_backends.md R161). -/
  batch : List (Backend × Nat)
deriving DecidableEq, Repr

/-- The parameter values of `State.reset`. DESIGN CHOICE (log 2): the spec leaves them OPEN; the order is the default
of 41_backends.md R167, and HostAdmit admits every byte as in the vectors of 95_test_vectors.md. -/
def Params.default : Params where
  engineBase := 0x8000000000000000#64
  hostDenied := []
  backends := [.portable, .wideVector, .narrowVector]
  backendOrder := [.wideVector, .narrowVector, .portable]
  feat := []
  forcePortable := false
  batch := [(.wideVector, 4), (.narrowVector, 2)]

/-- CTR after a BusFault of APPLY or FILL, "unspecified, so a model takes them as any values" (60_exceptions.md
R284 b; log 5). The argument counts the draws. -/
opaque Config.freeCtr : Nat → Word

/-- OFS after a BusFault of APPLY or FILL (60_exceptions.md R284 b; log 5). -/
opaque Config.freeOfs : Nat → BitVec 7

/-- BUFV after a BusFault of APPLY or FILL (60_exceptions.md R284 b; log 5). -/
opaque Config.freeBufv : Nat → Bool

/-- BUF after a BusFault of APPLY or FILL (60_exceptions.md R284 b; log 5). -/
opaque Config.freeBuf : Nat → Vector Byte 64

/-- Whether the byte at a host address holds the value the command would have written, rather than its old value,
after a BusFault on an output range (60_exceptions.md R284 b and c; log 6). Arguments: the draw, the address. -/
opaque Config.byteLanded : Nat → Nat → Bool

/-- What a command reads at a host address, or what that byte holds after the command, where another agent races with it
there: "every byte of the overlap may end with any value" (20_memory.md R85; log 10). Arguments: the draw, the address. -/
opaque Config.racedByte : Nat → Nat → Byte

/-- What a host agent's racing read returns: "any racing read may return any value" (20_memory.md R85; log 10). The
argument counts the draws. -/
opaque Config.racedRead : Nat → Byte

end Sys2Proof
end

