-- ==== Sys2Proof/Machine/State.lean ====
section
/-! DEFINITION. The machine's state as plain data: every engine instance with its registers and context, the shared
backend selector, the parameters, host memory, and the host's list of operations (10_state.md R30–R56). -/

namespace Sys2Proof.Machine

/-- CSTATE, the context's lifecycle state (10_state.md R38, R40); code 3 is "never read" and has no term. -/
inductive CState where
  | uninit
  | ready
  | fault
deriving DecidableEq, Repr

/-- KIND: a cipher context or a generator context (10_state.md R38, R44). -/
inductive Kind where
  | cipher
  | generator
deriving DecidableEq, Repr

/-- The error codes of 60_exceptions.md R280 in the order of their numbers 0 to 9; 10–15 are "never reported". -/
inductive ErrCode where
  | ok
  | illegalCommand
  | invalidKeyLength
  | invalidNonceLength
  | counterOverflow
  | seekOutOfRange
  | notInitialized
  | faulted
  | wrongKind
  | busFault
deriving DecidableEq, Repr

/-- The context of one engine instance (10_state.md R44). -/
structure Context where
  cstate : CState
  kind : Kind
  /-- RNDC -/
  rnd : Rounds
  cw64 : Bool
  key : Vector Byte 32
  nonce : Vector Byte 12
  ctr : Word
  ofs : BitVec 7
  bufv : Bool
  buf : Vector Byte 64
deriving DecidableEq, Repr

/-- The reset value of every context field (10_state.md R44, R56), which is also what `ZeroCtx` writes
(42_cursor.md R204). -/
def Context.zero : Context where
  cstate := .uninit
  kind := .cipher
  rnd := .r8
  cw64 := false
  key := Vector.replicate 32 0
  nonce := Vector.replicate 12 0
  ctr := 0
  ofs := 0
  bufv := false
  buf := Vector.replicate 64 0

/-- One engine instance: its window's registers that hold a value (10_state.md R31), and its context. -/
structure Engine where
  arg0 : Word
  arg1 : Word
  arg2 : Word
  arg3 : Word
  arg4 : Word
  arg5 : Word
  arg6 : Word
  res0 : Word
  res1 : Word
  /-- STATUS.ERR, the outcome of the last command (10_state.md R39). -/
  err : ErrCode
  ctx : Context
deriving DecidableEq, Repr

/-- An engine instance after power-on reset (10_state.md R56). -/
def Engine.zero : Engine where
  arg0 := 0
  arg1 := 0
  arg2 := 0
  arg3 := 0
  arg4 := 0
  arg5 := 0
  arg6 := 0
  res0 := 0
  res1 := 0
  err := .ok
  ctx := Context.zero

/-- Host memory: the bytes that differ from 0, by address (10_state.md R55 b). -/
abbrev Memory := List Host.Cell

/-- A range of a command, or the byte a host agent accesses: kind, first address, length (20_memory.md R75). -/
abbrev AccessRange := AccessKind × Nat × Nat

/-- A legal command whose CMD write has begun and not completed (20_memory.md R72, R85). -/
structure Flight where
  /-- the agent that waits for its CMD write to complete -/
  agent : Nat
  /-- the instance -/
  inst : Nat
  instr : Instr
  /-- ARG0–ARG6, sampled at issue (20_memory.md R86) -/
  args : Vector Word 7
  /-- the bytes of its ranges for which others have raced with it so far, each with what they did there (20_memory.md
  R85, R92) -/
  raced : List AccessRange
deriving DecidableEq, Repr

/-- What a host agent, or the platform, does, or the engine in its own time (70_reset_and_hazards.md R321; log 4). -/
inductive HostOp where
  /-- a register read of `width` bits at a host address (10_state.md R31, R37) -/
  | regRead (agent : Nat) (addr : Word) (width : Nat)
  /-- a register write of `width` bits that begins and completes (10_state.md R31–R33, R37) -/
  | regWrite (agent : Nat) (addr : Word) (width : Nat) (value : Word)
  /-- a register write of which the command, if it issues one, stays in flight while others act (20_memory.md R85, R92) -/
  | beginWrite (agent : Nat) (addr : Word) (width : Nat) (value : Word)
  /-- the command in flight on an instance completes (20_memory.md R72) -/
  | completes (inst : Nat)
  /-- a host agent reads one byte of host memory (10_state.md R30 a) -/
  | memRead (agent : Nat) (addr : Word)
  /-- a host agent writes one byte of host memory (10_state.md R30 a) -/
  | memWrite (agent : Nat) (addr : Word) (value : Byte)
  /-- power-on reset (70_reset_and_hazards.md R310) -/
  | powerOnReset
deriving DecidableEq, Repr

/-- A value a host agent has read: a part of the observation of 00_scope.md R24. -/
inductive Observation where
  | register (agent : Nat) (addr : Word) (value : Word)
  | byte (agent : Nat) (addr : Word) (value : Byte)
deriving DecidableEq, Repr

/-- The whole machine. -/
structure State where
  /-- the implementation parameters (00_scope.md R11) -/
  params : Params
  /-- the engine instances; NINST is the list's length (10_state.md R30 b, R31) -/
  engines : List Engine
  /-- BSEL_VALID (10_state.md R53) -/
  bselValid : Bool
  /-- BSEL; none before it is resolved (10_state.md R53) -/
  bsel : Option Backend
  /-- host memory (10_state.md R55 b) -/
  mem : Memory
  /-- the commands in flight, in the order in which they were issued (20_memory.md R72, R85, R92) -/
  pending : List Flight
  /-- the host's operation list (10_state.md R35) -/
  hostOps : List HostOp
  /-- "the index into the host's operation list" (10_state.md R35) -/
  pc : Nat
  /-- what the host agents have read so far, oldest first (00_scope.md R24) -/
  observed : List Observation
  /-- the model's own: the instance whose command was issued or carried out last (log 4) -/
  active : Nat
  /-- the model's own: how many free values have been drawn (log 5) -/
  freeCount : Nat
deriving DecidableEq, Repr

/-- Why the machine stops with a fault: never, so there is no constructor. Every error of the engine is an outcome that
STATUS.ERR reports, after which the machine goes on (60_exceptions.md R280, R289). -/
inductive Fault where
deriving DecidableEq, Repr

/-- Why the model gives no meaning. -/
inductive Refusal where
  /-- Raised by `exec` for a command without a meaning. Safe: nothing is said of it. -/
  | notModelled (mnemonic : String)
  /-- Raised by the memory operations of a command whose host-memory range covers a register window: "a model refuses
  such a command" (20_memory.md R81). Safe: nothing is said of it. -/
  | ownWindow
  /-- Raised by the host's access to a window that is not one aligned 64-bit access: "a model refuses such an access"
  (10_state.md R37). Safe: nothing is said of it. -/
  | registerAccess
  /-- Raised by a register access at an address outside every window, which the spec leaves to the platform
  (20_memory.md R81; log 9). Safe: nothing is said of it. -/
  | platformAddress
  /-- Raised by `exec` and `State.finish` where `State.active`, or a command in flight, names no instance; from a state that
  meets the invariant `step` never comes to it (log 18). Safe: nothing is said of it. -/
  | noSuchEngine
deriving DecidableEq, Repr

/-- The machine after power-on with parameters `p` and `ninst` instances (10_state.md R56, 70_reset_and_hazards.md
R310): every instance zero, the selector unresolved, and a host that has nothing to do yet (log 3). -/
def State.powerOn (p : Params) (ninst : Nat) : State where
  params := p
  engines := List.replicate ninst Engine.zero
  bselValid := false
  bsel := none
  mem := []
  pending := []
  hostOps := []
  pc := 0
  observed := []
  active := 0
  freeCount := 0

/-- The machine right after reset, with the parameter values of log 2. -/
def State.reset : State := State.powerOn Params.default 1

end Sys2Proof.Machine
end

