-- ==== Sys2Proof/Machine/Ops.lean ====
section
/-! DEFINITION. The named operations over host memory and registers that the commands share: bytes of memory, range
and admission checks (20_memory.md R75–R78), a command's normal end, and raising an error (00_scope.md R18,
60_exceptions.md R283, R284), which is this engine's whole exception mechanism (R289: there is no trap and so no return). -/

namespace Sys2Proof.Machine

/-- How a step or a command ends. -/
abbrev StepOutcome := Host.Outcome State Fault Refusal

/-- What comes after, where there is a next state. -/
def StepOutcome.andThen (o : StepOutcome) (f : State → StepOutcome) : StepOutcome :=
  match o with
  | .next s => f s
  | .fault r => .fault r
  | .refused r => .refused r

/-! ### Host memory, byte by byte -/

/-- The byte at an address; an unlisted one reads as 0. DESIGN CHOICE (log 1): host memory at power-on is not engine
state (10_state.md R56, 93_implementation_defined.md I19). -/
def Memory.read (m : Memory) (a : Nat) : Byte :=
  match m.find? (fun cell => cell.1 == a) with
  | some cell => cell.2
  | none => 0

/-- `m` without an entry at `a`. -/
def Memory.erase (m : Memory) (a : Nat) : Memory := m.filter fun cell => cell.1 != a

/-- An entry put in before the first entry of a higher address. -/
def Memory.insert (a : Nat) (v : Byte) : Memory → Memory
  | [] => [(a, v)]
  | cell :: m => if cell.1 < a then cell :: Memory.insert a v m else (a, v) :: cell :: m

/-- Write one byte. Writing 0, which an unlisted address reads as, removes the entry. -/
def Memory.write (m : Memory) (a : Nat) (v : Byte) : Memory :=
  if v = 0 then Memory.erase m a else Memory.insert a v (Memory.erase m a)

/-- The canonical form: addresses strictly rising and below 2^64 (`ADDR_W` = 64), no entry equal to what an unlisted
address reads as. -/
def Memory.wf : Memory → Bool
  | [] => true
  | cell :: m => decide (cell.1 < 2 ^ 64) && (cell.2 != 0) && m.all (fun later => decide (cell.1 < later.1)) && Memory.wf m

/-- `MemRead(a, n)` of 00_scope.md R17: n bytes, lowest address first. -/
def Memory.readBytes (m : Memory) (a n : Nat) : List Byte :=
  (List.range n).map fun i => Memory.read m (a + i)

/-- `MemWrite(a, |v|, v)` of 00_scope.md R17: byte v[i] to a + i, in ascending order. -/
def Memory.writeBytes (m : Memory) (a : Nat) : List Byte → Memory
  | [] => m
  | v :: vs => Memory.writeBytes (Memory.write m a v) (a + 1) vs

/-- As `writeBytes`, but only the bytes at addresses that `landed` picks are written (60_exceptions.md R284). -/
def Memory.writeSome (landed : Nat → Bool) (m : Memory) (a : Nat) : List Byte → Memory
  | [] => m
  | v :: vs => Memory.writeSome landed (if landed a then Memory.write m a v else m) (a + 1) vs

/-- Host memory as a command's reads see it, range by range: host memory itself, unless another agent writes bytes of the
ranges while the command is in flight (20_memory.md R78, R85). -/
structure Reads where
  /-- the key or seed -/
  key : Memory
  /-- the nonce or stream id -/
  nonce : Memory
  /-- APPLY's buffer -/
  buffer : Memory
deriving DecidableEq, Repr

/-- The reads of a command with which no one races. -/
def State.reads (s : State) : Reads := ⟨s.mem, s.mem, s.mem⟩

/-! ### Ranges and admission -/

/-- Whether a range of accesses that are not admitted covers address `x` for kind `k`. -/
def HostRange.covers (r : HostRange) (x : Nat) (k : AccessKind) : Bool :=
  r.kind == k && decide (r.base ≤ x) && decide (x < r.base + r.size)

/-- `HostAdmit(x, k)` (00_scope.md R11, 20_memory.md R77). -/
def Params.hostAdmit (p : Params) (x : Nat) (k : AccessKind) : Bool :=
  !p.hostDenied.any fun r => HostRange.covers r x k

/-- The first byte of [a, a+n), in ascending order, at which one of the access kinds is not admitted
(20_memory.md R77, R78). -/
def Params.firstDenied (p : Params) (kinds : List AccessKind) : Nat → Nat → Option Nat
  | _, 0 => none
  | a, n + 1 => if kinds.all (Params.hostAdmit p a) then Params.firstDenied p kinds (a + 1) n else some a

/-- The host addresses of all register windows: `NINST` of 0x100 bytes from ENGINE_BASE (10_state.md R31,
20_memory.md R81). -/
def State.inWindow (s : State) (x : Nat) : Bool :=
  decide (s.params.engineBase.toNat ≤ x) && decide (x < s.params.engineBase.toNat + 0x100 * s.engines.length)

/-- Whether [a, a+n) holds a byte of a register window. -/
def State.coversWindow (s : State) (a n : Nat) : Bool :=
  decide (max a s.params.engineBase.toNat < min (a + n) (s.params.engineBase.toNat + 0x100 * s.engines.length))

/-- What stands in the way of a command's access to a range. -/
inductive RangeCheck where
  /-- nothing: every byte access is performed -/
  | admitted
  /-- the range runs past 2^64 (20_memory.md R76) -/
  | wraps
  /-- the range covers a register window (20_memory.md R81; log 7) -/
  | ownWindow
  /-- `HostAdmit` fails first at byte x (20_memory.md R77) -/
  | denied (x : Nat)
deriving DecidableEq, Repr

/-- `CheckRange(a, n)` and then `HostAdmit` at each byte (42_cursor.md R205). "A range with n = 0 is never checked
and never accessed" (20_memory.md R76). -/
def State.checkRange (s : State) (kinds : List AccessKind) (a n : Nat) : RangeCheck :=
  if n = 0 then .admitted
  else if 2 ^ 64 < a + n then .wraps
  else if s.coversWindow a n then .ownWindow
  else match Params.firstDenied s.params kinds a n with
    | none => .admitted
    | some x => .denied x

/-! ### The active instance, and how a command ends -/

/-- The instance the running command belongs to. -/
def State.engine? (s : State) : Option Engine := s.engines[s.active]?

/-- Put back the active instance; no other instance changes (60_exceptions.md R295). -/
def State.putEngine (s : State) (e : Engine) : State := { s with engines := s.engines.set s.active e }

/-- Run a command's body on the active instance. -/
def State.onEngine (s : State) (body : Engine → StepOutcome) : StepOutcome :=
  match s.engine? with
  | some e => body e
  | none => .refused .noSuchEngine

/-- A command that reaches its end "writes STATUS.ERR <- 0 (OK)" (00_scope.md R18). -/
def State.complete (s : State) (e : Engine) : StepOutcome := .next (s.putEngine { e with err := .ok })

/-- `raise <Error>`: the command ends with the error's code in STATUS.ERR (00_scope.md R18). `e` is the instance with
the failure effect that the command's rule names. -/
def State.raise (s : State) (e : Engine) (code : ErrCode) : StepOutcome := .next (s.putEngine { e with err := code })

/-- `raise BusFault(x)`: "RES0 ← the byte address x whose access failed, and RES1 ← 0" (60_exceptions.md R283). -/
def State.busFault (s : State) (e : Engine) (x : Nat) : StepOutcome :=
  s.raise { e with res0 := BitVec.ofNat 64 x, res1 := 0 } .busFault

/-- `ZeroCtx()` (42_cursor.md R204). -/
def Engine.zeroize (e : Engine) : Engine := { e with ctx := Context.zero }

/-- `RequireReady(k)` (42_cursor.md R203): the error it raises, if any. -/
def Context.requireReady (c : Context) (k : Kind) : Option ErrCode :=
  match c.cstate with
  | .uninit => some .notInitialized
  | .fault => some .faulted
  | .ready => if c.kind = k then none else some .wrongKind

/-- Read an input range of a command, in host memory as that read sees it, and go on with its bytes; a failed access ends
the command with BusFault and no byte of memory changed (20_memory.md R76–R78, 42_cursor.md R205). -/
def State.readInput (s : State) (e : Engine) (seen : Memory) (a n : Nat) (body : List Byte → StepOutcome) : StepOutcome :=
  match s.checkRange [.read] a n with
  | .admitted => body (Memory.readBytes seen a n)
  | .wraps => s.busFault e a
  | .ownWindow => .refused .ownWindow
  | .denied x => s.busFault e x

/-- Host memory after a BusFault inside an output range: "each byte of the output range holds either its old value or
the value the command would have written" (60_exceptions.md R284), the choice being free (log 6). -/
def State.partlyWritten (s : State) (a : Nat) (out : List Byte) : Memory :=
  Memory.writeSome (Config.byteLanded s.freeCount) s.mem a out

/-- Write a command's output range of n bytes and complete it; DERIVE and BLOCKS end so (43_subkey.md R233,
41_backends.md R170, 60_exceptions.md R284 c). A failed range check comes "before any access to that range"
(20_memory.md R76), so `out`, which has n bytes, need not be computed for it. -/
def State.writeOutput (s : State) (e : Engine) (a n : Nat) (out : List Byte) : StepOutcome :=
  match s.checkRange [.write] a n with
  | .admitted => State.complete { s with mem := Memory.writeBytes s.mem a out } e
  | .wraps => s.busFault e a
  | .ownWindow => .refused .ownWindow
  | .denied x => State.busFault { s with mem := s.partlyWritten a out, freeCount := s.freeCount + 1 } e x

end Sys2Proof.Machine
end

