-- ==== Sys2Proof/Machine/Operands.lean ====
section
/-! DEFINITION. How operands are assembled (30_encoding.md R108, R109) and the limits they are compared with
(00_scope.md R19): 128-bit positions and results, nonce and stream-id lengths, counters. -/

namespace Sys2Proof.Machine

/-- `CW` in bits (00_scope.md R13, 10_state.md R44). -/
def counterWidth (cw64 : Bool) : Nat := if cw64 then 64 else 32

/-- `MAXCTR(CW)` = 2^CW − 1 (00_scope.md R19). -/
def maxCtr (cw64 : Bool) : Nat := 2 ^ counterWidth cw64 - 1

/-- `END(CW)` = (MAXCTR(CW) + 1) · 64, the keystream length in bytes (00_scope.md R19). -/
def endPos (cw64 : Bool) : Nat := (maxCtr cw64 + 1) * 64

/-- The cursor position P = CTR · 64 + OFS, in ℕ (10_state.md R47). -/
def Context.position (c : Context) : Nat := c.ctr.toNat * 64 + c.ofs.toNat

/-- The 128-bit operand `ARG1 · 2^64 + ARG0` of SEEK and SET_WPOS (30_encoding.md R109). -/
def Engine.operand128 (e : Engine) : Nat := e.arg1.toNat * 2 ^ 64 + e.arg0.toNat

/-- A 128-bit result: RES0 ← v[63:0], RES1 ← v[127:64] (30_encoding.md R109). -/
def Engine.setResult (e : Engine) (v : Nat) : Engine :=
  { e with res0 := BitVec.ofNat 64 v, res1 := BitVec.ofNat 64 (v / 2 ^ 64) }

/-- The counter operand of INIT: "C = 0 means absent, and the initial counter is 0" (30_encoding.md R104). -/
def Engine.initialCounter (e : Engine) (counter : Bool) : Word := if counter then e.arg4 else 0

/-- The nonce forms (00_scope.md R4): short 8 bytes, standard 12, extended 24. -/
inductive NonceForm where
  | short
  | standard
  | extended
deriving DecidableEq, Repr

/-- The nonce form INIT takes from its length operand (42_cursor.md R190, R191). -/
def NonceForm.ofInitLength (len : Word) : Option NonceForm :=
  if len = 8 then some .short else if len = 12 then some .standard else if len = 24 then some .extended else none

/-- The nonce form BLOCKS takes from its length operand; the extended form is refused (41_backends.md R170). -/
def NonceForm.ofBlockLength (len : Word) : Option NonceForm :=
  if len = 8 then some .short else if len = 12 then some .standard else none

/-- The stream-id form of GEN_INIT and whether a stream id is read: length 0 is absent, taken as 0^8
(44_generator.md R250, R251). -/
def NonceForm.ofStreamLength (len : Word) : Option NonceForm :=
  if len = 0 then some .short else NonceForm.ofBlockLength len

/-- A nonce form's length in bytes (00_scope.md R4). -/
def NonceForm.bytes : NonceForm → Nat
  | .short => 8
  | .standard => 12
  | .extended => 24

/-- Whether a nonce form has the 64-bit counter (42_cursor.md R191). -/
def NonceForm.cw64 : NonceForm → Bool
  | .short => true
  | .standard => false
  | .extended => false

/-- n bytes as a fixed-length sequence; a shorter list is filled with zeros, which no caller relies on. -/
def byteVector (n : Nat) (bytes : List Byte) : Vector Byte n := Vector.ofFn fun i => bytes.getD i.val 0

end Sys2Proof.Machine
end

