-- ==== Sys2Proof/Machine/BlockCore.lean ====
section
/-! DEFINITION. The block core: the input matrix, the round function, `Block` and `HBlock` (40_block_core.md). The
constants, word positions and operand patterns are the ones the rules give, which the spec marks as general
knowledge (93_implementation_defined.md G1–G7; log 13). -/

namespace Sys2Proof.Machine

/-- The 4×4 matrix: row r holds words 4r … 4r+3 (40_block_core.md R132). -/
abbrev Matrix := Vector Word32 16

/-- A keystream block (00_scope.md R20). -/
abbrev Block := Vector Byte 64

/-- The nonce of the block function: 8 bytes with the 64-bit counter or 12 bytes with the 32-bit counter
(40_block_core.md R130). -/
inductive Nonce where
  | short (bytes : Vector Byte 8)
  | standard (bytes : Vector Byte 12)
deriving DecidableEq, Repr

/-- `rotl32(v, n)` (00_scope.md R15). -/
def rotl32 (v : Word32) (n : Nat) : Word32 := v <<< n ||| v >>> (32 - n)

/-- `le32` of four bytes, the first the least significant (00_scope.md R16, 20_memory.md R70). -/
def le32 (b0 b1 b2 b3 : Byte) : Word32 := b3 ++ b2 ++ b1 ++ b0

/-- `le32(v[4i..4i+4))` (00_scope.md R16). -/
def le32At {n : Nat} (v : Vector Byte n) (i : Nat) (h : 4 * i + 3 < n) : Word32 := le32 v[4 * i] v[4 * i + 1] v[4 * i + 2] v[4 * i + 3]

/-- Byte k of `ser32(w)`, 0 ≤ k < 4 (00_scope.md R16). -/
def ser32Byte (w : Word32) (k : Nat) : Byte := w.extractLsb' (8 * k) 8

/-- A matrix from its constants, the key words and the last row (40_block_core.md R131–R133, R140). -/
def matrixOf (key : Vector Byte 32) (x12 x13 x14 x15 : Word32) : Matrix :=
  #v[0x61707865, 0x3320646e, 0x79622d32, 0x6b206574,
     le32At key 0 (by decide), le32At key 1 (by decide), le32At key 2 (by decide), le32At key 3 (by decide),
     le32At key 4 (by decide), le32At key 5 (by decide), le32At key 6 (by decide), le32At key 7 (by decide),
     x12, x13, x14, x15]

/-- `InputMatrix(K, N, c)`: the 64-bit counter form (40_block_core.md R133) and the 32-bit one (R132). -/
def inputMatrix (key : Vector Byte 32) (nonce : Nonce) (c : Word) : Matrix :=
  match nonce with
  | .short n => matrixOf key (c.extractLsb' 0 32) (c.extractLsb' 32 32) (le32At n 0 (by decide)) (le32At n 1 (by decide))
  | .standard n => matrixOf key (c.extractLsb' 0 32) (le32At n 0 (by decide)) (le32At n 1 (by decide)) (le32At n 2 (by decide))

/-- The quarter-round `QR(s, a, b, c, d)` (40_block_core.md R134). -/
def quarterRound (a b c d : Fin 16) (s : Matrix) : Matrix :=
  let s := s.set a (s[a] + s[b])
  let s := s.set d (rotl32 (s[d] ^^^ s[a]) 16)
  let s := s.set c (s[c] + s[d])
  let s := s.set b (rotl32 (s[b] ^^^ s[c]) 12)
  let s := s.set a (s[a] + s[b])
  let s := s.set d (rotl32 (s[d] ^^^ s[a]) 8)
  let s := s.set c (s[c] + s[d])
  s.set b (rotl32 (s[b] ^^^ s[c]) 7)

/-- The four column quarter-rounds (40_block_core.md R135). -/
def columnRound (s : Matrix) : Matrix :=
  s |> quarterRound 0 4 8 12 |> quarterRound 1 5 9 13 |> quarterRound 2 6 10 14 |> quarterRound 3 7 11 15

/-- The four diagonal quarter-rounds (40_block_core.md R135). -/
def diagonalRound (s : Matrix) : Matrix :=
  s |> quarterRound 0 5 10 15 |> quarterRound 1 6 11 12 |> quarterRound 2 7 8 13 |> quarterRound 3 4 9 14

/-- The double-round `DR` (40_block_core.md R135). -/
def doubleRound (s : Matrix) : Matrix := diagonalRound (columnRound s)

/-- R/2 for a round count R (40_block_core.md R136, 30_encoding.md R103). -/
def doubleRounds : Rounds → Nat
  | .r8 => 4
  | .r12 => 6
  | .r20 => 10

/-- `DR` repeated n times. -/
def permute : Nat → Matrix → Matrix
  | 0, s => s
  | n + 1, s => permute n (doubleRound s)

/-- The feed-forward: word-wise addition of the input matrix (40_block_core.md R136). -/
def feedForward (s x : Matrix) : Matrix := s.zipWith (· + ·) x

/-- Byte j of the serialized matrix: byte j mod 4 of word j div 4 (40_block_core.md R136, R137). -/
def serialize (y : Matrix) : Block :=
  Vector.ofFn fun j => ser32Byte (y[j.val / 4]'(by have := j.isLt; omega)) (j.val % 4)

/-- The rest of the block function, from its input matrix (40_block_core.md R136). -/
def blockOfMatrix (rounds : Rounds) (x : Matrix) : Block := serialize (feedForward (permute (doubleRounds rounds) x) x)

/-- `Block(K, N, c, R)` (40_block_core.md R136). -/
def block (key : Vector Byte 32) (nonce : Nonce) (c : Word) (rounds : Rounds) : Block :=
  blockOfMatrix rounds (inputMatrix key nonce c)

/-- The start matrix of `HBlock`: "the nonce occupies the counter+nonce word slots" (40_block_core.md R140). -/
def hblockMatrix (key : Vector Byte 32) (n16 : Vector Byte 16) : Matrix :=
  matrixOf key (le32At n16 0 (by decide)) (le32At n16 1 (by decide)) (le32At n16 2 (by decide)) (le32At n16 3 (by decide))

/-- Rows 0 and 3 of a matrix, serialized: words 0–3, then words 12–15 (40_block_core.md R140, R141). -/
def outerRows (s : Matrix) : Vector Byte 32 :=
  Vector.ofFn fun j =>
    ser32Byte (s[if j.val < 16 then j.val / 4 else 8 + j.val / 4]'(by have := j.isLt; split <;> omega)) (j.val % 4)

/-- `HBlock(K, N16, R)`: no feed-forward, no counter (40_block_core.md R140, R141). -/
def hblock (key : Vector Byte 32) (n16 : Vector Byte 16) (rounds : Rounds) : Vector Byte 32 :=
  outerRows (permute (doubleRounds rounds) (hblockMatrix key n16))

/-- The nonce a context's block function uses, `NV(ctx)` (10_state.md R44). -/
def Context.nv (c : Context) : Nonce :=
  if c.cw64 then .short (byteVector 8 c.nonce.toList) else .standard c.nonce

/-- Keystream byte p of a context: `Block(KEY, NV, p div 64, R)[p mod 64]` (10_state.md R50). -/
def Context.keystream (c : Context) (p : Nat) : Byte :=
  (block c.key c.nv (BitVec.ofNat 64 (p / 64)) c.rnd)[p % 64]'(Nat.mod_lt _ (by decide))

end Sys2Proof.Machine
end

