-- ==== Sys2Proof/Machine/Backend.lean ====
section
/-! DEFINITION. The backend selector (41_backends.md R165–R167), the portable and the vector backends (R160–R164,
R168), and BLOCKS (R170). -/

namespace Sys2Proof.Machine

/-! ### Backends -/

/-- `BATCH(b)`: 1 for `Portable` (41_backends.md R161), at least 1 for every backend (00_scope.md R11). -/
def Params.batchOf (p : Params) (b : Backend) : Nat :=
  match b with
  | .portable => 1
  | b => max 1 ((p.batch.lookup b).getD 1)

/-- A quarter-round "applied to all lanes at once" (41_backends.md R162). -/
def lanesQuarterRound (a b c d : Fin 16) (lanes : List Matrix) : List Matrix := lanes.map (quarterRound a b c d)

/-- A double-round on all lanes: every step of 40_block_core.md R135 runs over the lanes before the next one begins. -/
def lanesDoubleRound (lanes : List Matrix) : List Matrix :=
  lanes |> lanesQuarterRound 0 4 8 12 |> lanesQuarterRound 1 5 9 13 |> lanesQuarterRound 2 6 10 14 |> lanesQuarterRound 3 7 11 15
    |> lanesQuarterRound 0 5 10 15 |> lanesQuarterRound 1 6 11 12 |> lanesQuarterRound 2 7 8 13 |> lanesQuarterRound 3 4 9 14

/-- Double-rounds on all lanes, repeated. -/
def lanesPermute : Nat → List Matrix → List Matrix
  | 0, lanes => lanes
  | n + 1, lanes => lanesPermute n (lanesDoubleRound lanes)

/-- One invocation of a vector backend on the input matrices of its lanes (41_backends.md R162). -/
def lanesBlocks (rounds : Rounds) (inputs : List Matrix) : List Block :=
  List.zipWith (fun s x => serialize (feedForward s x)) (lanesPermute (doubleRounds rounds) inputs) inputs

/-- A vector backend: batches of `batch` lanes, the last one partial (41_backends.md R163, R168). At most `fuel`
batches. -/
def vectorBlocks (rounds : Rounds) (batch : Nat) : Nat → List Matrix → List Block
  | 0, _ => []
  | fuel + 1, inputs =>
    if inputs.isEmpty then []
    else lanesBlocks rounds (inputs.take batch) ++ vectorBlocks rounds batch fuel (inputs.drop batch)

/-- `produce_blocks(K, N, c, R, n)` of backend b (41_backends.md R160): the portable one "computes one block at a time"
(R161), a vector one by batches of lanes (R162). -/
def Params.produceBlocks (p : Params) (b : Backend) (key : Vector Byte 32) (nonce : Nonce) (c : Word) (rounds : Rounds)
    (n : Nat) : List Block :=
  let inputs := (List.range n).map fun j => inputMatrix key nonce (c + BitVec.ofNat 64 j)
  match b with
  | .portable => inputs.map (blockOfMatrix rounds)
  | b => vectorBlocks rounds (Params.batchOf p b) n inputs

/-- `produce_block`, which "is BLOCKS with n = 1" (30_encoding.md R113). -/
def Params.produceBlock (p : Params) (b : Backend) (key : Vector Byte 32) (nonce : Nonce) (c : Word) (rounds : Rounds) : Block :=
  (Params.produceBlocks p b key nonce c rounds 1).headD (Vector.replicate 64 0)

/-! ### The selector -/

/-- Whether a backend of the preference list can be chosen: it is built in and its feature bit is set; "Portable always
qualifies" (41_backends.md R164, R165). -/
def Params.qualifies (p : Params) (b : Backend) : Bool :=
  b == .portable || (p.backends.contains b && p.feat.contains b)

/-- The backend `resolve()` computes (41_backends.md R165). -/
def Params.selectBackend (p : Params) : Backend :=
  if p.forcePortable then .portable else (p.backendOrder.find? (Params.qualifies p)).getD .portable

/-- `resolve()`: at most once per power-on (41_backends.md R165). -/
def State.resolve (s : State) : State :=
  if s.bselValid then s else { s with bsel := some (Params.selectBackend s.params), bselValid := true }

/-- BSEL, for a selector that has resolved. -/
def State.backend (s : State) : Backend := s.bsel.getD .portable

/-- Block CTR of a context, through the selected backend (42_cursor.md R206, 41_backends.md R168). -/
def State.generate (s : State) (c : Context) : Block :=
  Params.produceBlock s.params s.backend c.key c.nv c.ctr c.rnd

/-! ### BLOCKS -/

/-- The block function's nonce from the bytes BLOCKS read. -/
def NonceForm.blockNonce (f : NonceForm) (bytes : List Byte) : Nonce :=
  if f.cw64 then .short (byteVector 8 bytes) else .standard (byteVector 12 bytes)

/-- The bytes BLOCKS writes: n consecutive blocks from counter ARG4 on, by the selected backend (41_backends.md R170). -/
def State.blocksOutput (s : State) (e : Engine) (rounds : Rounds) (key : List Byte) (nonce : Nonce) : List Byte :=
  (Params.produceBlocks s.params s.backend (byteVector 32 key) nonce e.arg4 rounds e.arg6.toNat).flatMap Vector.toList

/-- BLOCKS (41_backends.md R170) with given reads. The selector resolves at the first block evaluation (R166; log 12). -/
def State.runBlocks (s : State) (rounds : Rounds) (seen : Reads) : StepOutcome :=
  s.onEngine fun e =>
    if e.arg1 ≠ 32 then s.raise e .invalidKeyLength
    else match NonceForm.ofBlockLength e.arg3 with
      | none => s.raise e .invalidNonceLength
      | some form =>
        if maxCtr form.cw64 < e.arg4.toNat then s.raise e .counterOverflow
        else if 0 < e.arg6.toNat ∧ maxCtr form.cw64 < e.arg4.toNat + e.arg6.toNat - 1 then s.raise e .counterOverflow
        else s.readInput e seen.key e.arg0.toNat 32 fun key =>
          s.readInput e seen.nonce e.arg2.toNat form.bytes fun nonce =>
            if e.arg6 = 0 then s.complete e
            else s.resolve.writeOutput e e.arg5.toNat (64 * e.arg6.toNat) (s.resolve.blocksOutput e rounds key (form.blockNonce nonce))

/-- BLOCKS (41_backends.md R170). -/
def execBlocks (rounds : Rounds) (s : State) : StepOutcome := s.runBlocks rounds s.reads

end Sys2Proof.Machine
end

