-- ==== Sys2Proof/Machine/Flags.lean ====
section
/-! DEFINITION. STATUS, the engine's one flag register: "a pure function of the context fields … and of the stored ERR
value" (10_state.md R38–R42). -/

namespace Sys2Proof.Machine

/-- STATUS.CSTATE (10_state.md R38). -/
def CState.code : CState → Nat
  | .uninit => 0
  | .ready => 1
  | .fault => 2

/-- STATUS.KIND (10_state.md R38). -/
def Kind.code : Kind → Nat
  | .cipher => 0
  | .generator => 1

/-- STATUS.RND (10_state.md R38, 30_encoding.md R103). -/
def roundsCode : Rounds → Nat
  | .r8 => 0
  | .r12 => 1
  | .r20 => 2

/-- STATUS.ERR (10_state.md R38, 60_exceptions.md R280). -/
def ErrCode.code : ErrCode → Nat
  | .ok => 0
  | .illegalCommand => 1
  | .invalidKeyLength => 2
  | .invalidNonceLength => 3
  | .counterOverflow => 4
  | .seekOutOfRange => 5
  | .notInitialized => 6
  | .faulted => 7
  | .wrongKind => 8
  | .busFault => 9

/-- STATUS.CURSOR from OFS and BUFV (10_state.md R41): EXHAUSTED_PENDING when OFS = 64, else BUFFERED when BUFV = 1,
else FRESH. Field values that R48 rules out fall under the same three cases (log 15). -/
def Context.cursorCode (c : Context) : Nat := if c.ofs = 64 then 2 else if c.bufv then 1 else 0

/-- STATUS bits 7:0: CURSOR, KIND, CW64 and RND read 0 when CSTATE = UNINIT (10_state.md R38). -/
def Context.statusBits (c : Context) : Nat :=
  match c.cstate with
  | .uninit => 0
  | .ready => CState.ready.code + c.cursorCode * 2 ^ 2 + c.kind.code * 2 ^ 4 + c.cw64.toNat * 2 ^ 5 + roundsCode c.rnd * 2 ^ 6
  | .fault => CState.fault.code + c.cursorCode * 2 ^ 2 + c.kind.code * 2 ^ 4 + c.cw64.toNat * 2 ^ 5 + roundsCode c.rnd * 2 ^ 6

/-- The STATUS register (10_state.md R38); bits 63:12 read 0. -/
def Engine.status (e : Engine) : Word := BitVec.ofNat 64 (e.ctx.statusBits + e.err.code * 2 ^ 8)

end Sys2Proof.Machine
end

