-- ==== Sys2Proof/Machine/Cursor.lean ====
section
/-! DEFINITION. The keystream cursor and the cipher commands INIT, APPLY, SEEK, TELL, ZEROIZE (42_cursor.md); the
generator commands share the cursor's operations (44_generator.md). -/

namespace Sys2Proof.Machine

/-! ### The cursor -/

/-- `if OFS == 64: CTR <- CTR + 1; OFS <- 0; BUFV <- 0` (42_cursor.md R194). -/
def Context.nextBlock (c : Context) : Context :=
  if c.ofs = 64 then { c with ctr := c.ctr + 1, ofs := 0, bufv := false } else c

/-- `if BUFV == 0: BUF <- Block(KEY, NV, CTR, R); BUFV <- 1`, the lazy generation of 42_cursor.md R194, R206. -/
def Context.fillBuffer (generate : Context → Block) (c : Context) : Context :=
  if c.bufv then c else { c with buf := generate c, bufv := true }

/-- The first two lines of the loop of 42_cursor.md R194: a cursor that holds the block of its next byte. -/
def Context.refill (generate : Context → Block) (c : Context) : Context := c.nextBlock.fillBuffer generate

/-- `BUF[OFS]`; OFS < 64 whenever the loop reads it (10_state.md R48; log 15). -/
def Context.bufByte (c : Context) : Byte := c.buf[c.ofs.toNat]?.getD 0

/-- Consume n keystream bytes: the loop of 42_cursor.md R194 and 44_generator.md R253 without its memory accesses. -/
def Context.draw (generate : Context → Block) : Nat → Context → List Byte × Context
  | 0, c => ([], c)
  | n + 1, c =>
    ((c.refill generate).bufByte :: (Context.draw generate n { c.refill generate with ofs := (c.refill generate).ofs + 1 }).1,
      (Context.draw generate n { c.refill generate with ofs := (c.refill generate).ofs + 1 }).2)

/-- The context after a BusFault of APPLY or FILL: "CSTATE ← FAULT. CTR, OFS, BUFV and BUF are unspecified"
(60_exceptions.md R284 b; log 5). -/
def Context.unspecifiedCursor (c : Context) (draw : Nat) : Context :=
  { c with
    cstate := .fault
    ctr := Config.freeCtr draw
    ofs := Config.freeOfs draw
    bufv := Config.freeBufv draw
    buf := Config.freeBuf draw }

/-- BusFault(x) of APPLY or FILL (60_exceptions.md R284 b), with host memory as given. -/
def State.streamFault (s : State) (e : Engine) (x : Nat) (mem : Memory) : StepOutcome :=
  State.busFault { s with mem := mem, freeCount := s.freeCount + 1 } { e with ctx := e.ctx.unspecifiedCursor s.freeCount } x

/-- The kinds of access APPLY (`xorInput`) and FILL make to each byte of the buffer (20_memory.md R75). -/
def streamKinds (xorInput : Bool) : List AccessKind := if xorInput then [.read, .write] else [.write]

/-- The bytes APPLY (`xorInput`) or FILL writes: `v ⊕ BUF[OFS]` or `BUF[OFS]` for each byte of the buffer. Byte a+i is
read before it is written (20_memory.md R78) and every other byte of the buffer is another address, so reading the whole
input first, in host memory as those reads see it, gives the same bytes. -/
def State.streamOutput (s : State) (e : Engine) (xorInput : Bool) (seen : Memory) : List Byte :=
  if xorInput then
    List.zipWith (· ^^^ ·) (Memory.readBytes seen e.arg0.toNat e.arg1.toNat) (Context.draw s.generate e.arg1.toNat e.ctx).1
  else (Context.draw s.generate e.arg1.toNat e.ctx).1

/-- The access phase of APPLY and FILL for L ≥ 1 (42_cursor.md R194, 44_generator.md R253, 60_exceptions.md R284 b). -/
def State.streamAccess (s : State) (e : Engine) (xorInput : Bool) (seen : Memory) : StepOutcome :=
  match s.checkRange (streamKinds xorInput) e.arg0.toNat e.arg1.toNat with
  | .admitted =>
    State.complete { s with mem := Memory.writeBytes s.mem e.arg0.toNat (s.streamOutput e xorInput seen) }
      { e with ctx := (Context.draw s.generate e.arg1.toNat e.ctx).2 }
  | .wraps => s.streamFault e e.arg0.toNat s.mem
  | .ownWindow => .refused .ownWindow
  | .denied x => s.streamFault e x (s.partlyWritten e.arg0.toNat (s.streamOutput e xorInput seen))

/-- APPLY (`xorInput`) and FILL (not) from the check of the kind on (42_cursor.md R194, R195, R203; 44_generator.md
R253): the whole request is checked against the end of the keystream before any byte is produced. -/
def State.stream (s : State) (kind : Kind) (xorInput : Bool) (seen : Memory) : StepOutcome :=
  s.onEngine fun e =>
    match e.ctx.requireReady kind with
    | some code => s.raise e code
    | none =>
      if endPos e.ctx.cw64 < e.ctx.position + e.arg1.toNat then
        s.raise { e with ctx := { e.ctx with cstate := .fault } } .counterOverflow
      else if e.arg1 = 0 then s.complete e
      else s.resolve.streamAccess e xorInput seen

/-- Move the cursor to byte position p: "Fresh-at-offset", no block is computed (42_cursor.md R198, R199). -/
def Context.moveTo (c : Context) (p : Nat) : Context :=
  { c with ctr := BitVec.ofNat 64 (p / 64), ofs := BitVec.ofNat 7 (p % 64), bufv := false }

/-- SEEK and SET_WPOS from the check of the kind on (42_cursor.md R198, 44_generator.md R255). -/
def State.seekTo (s : State) (kind : Kind) (position : Engine → Nat) : StepOutcome :=
  s.onEngine fun e =>
    match e.ctx.requireReady kind with
    | some code => s.raise e code
    | none =>
      if maxCtr e.ctx.cw64 < position e / 64 then s.raise e .seekOutOfRange
      else s.complete { e with ctx := e.ctx.moveTo (position e) }

/-- TELL and GET_WPOS from the check of the kind on (42_cursor.md R200, 44_generator.md R257). -/
def State.report (s : State) (kind : Kind) (value : Context → Nat) : StepOutcome :=
  s.onEngine fun e =>
    match e.ctx.requireReady kind with
    | some code => s.raise e code
    | none => s.complete (e.setResult (value e.ctx))

/-- The context of a newly constructed instance: READY and FRESH at block c0 (42_cursor.md R190, 44_generator.md R250). -/
def Context.construct (kind : Kind) (rounds : Rounds) (cw64 : Bool) (key : Vector Byte 32) (nonce : Vector Byte 12)
    (c0 : Word) : Context :=
  { Context.zero with
    cstate := .ready
    kind := kind
    rnd := rounds
    cw64 := cw64
    key := key
    nonce := nonce
    ctr := c0 }

/-! ### Subkey derivation, shared by INIT and DERIVE (43_subkey.md §1) -/

/-- `SK = HBlock(K, N[0..16), R)` (43_subkey.md R230). -/
def subkey (key : Vector Byte 32) (longNonce : List Byte) (rounds : Rounds) : Vector Byte 32 :=
  hblock key (byteVector 16 (longNonce.take 16)) rounds

/-- `SN = 0^4 ‖ N[16..24)` (43_subkey.md R231). -/
def subnonce (longNonce : List Byte) : List Byte := List.replicate 4 0 ++ (longNonce.drop 16).take 8

/-- The context INIT leaves for each nonce form (42_cursor.md R190, R191). -/
def NonceForm.cipherContext (f : NonceForm) (rounds : Rounds) (key nonce : List Byte) (c0 : Word) : Context :=
  match f with
  | .short => Context.construct .cipher rounds true (byteVector 32 key) (byteVector 12 (nonce ++ List.replicate 4 0)) c0
  | .standard => Context.construct .cipher rounds false (byteVector 32 key) (byteVector 12 nonce) c0
  | .extended =>
    Context.construct .cipher rounds false (subkey (byteVector 32 key) nonce rounds) (byteVector 12 (subnonce nonce)) c0

/-! ### The cipher commands -/

/-- INIT after its `ZeroCtx` (42_cursor.md R190). The extended form evaluates `HBlock`, so the selector has resolved
by then (41_backends.md R166; log 12). -/
def State.initCipher (s : State) (e : Engine) (rounds : Rounds) (counter : Bool) (seen : Reads) : StepOutcome :=
  if e.arg1 ≠ 32 then s.raise e .invalidKeyLength
  else match NonceForm.ofInitLength e.arg3 with
    | none => s.raise e .invalidNonceLength
    | some form =>
      if maxCtr form.cw64 < (e.initialCounter counter).toNat then s.raise e .seekOutOfRange
      else s.readInput e seen.key e.arg0.toNat 32 fun key =>
        s.readInput e seen.nonce e.arg2.toNat form.bytes fun nonce =>
          State.complete (if form = .extended then s.resolve else s)
            { e with ctx := form.cipherContext rounds key nonce (e.initialCounter counter) }

/-- INIT (42_cursor.md R190) with given reads: "any previous instance is destroyed" first. -/
def State.runInit (s : State) (rounds : Rounds) (counter : Bool) (seen : Reads) : StepOutcome :=
  s.onEngine fun e => s.initCipher e.zeroize rounds counter seen

/-- INIT (42_cursor.md R190). -/
def execInit (rounds : Rounds) (counter : Bool) (s : State) : StepOutcome := s.runInit rounds counter s.reads

/-- APPLY (42_cursor.md R194) with given reads. -/
def State.runApply (s : State) (seen : Reads) : StepOutcome := s.stream .cipher true seen.buffer

/-- APPLY (42_cursor.md R194). -/
def execApply (s : State) : StepOutcome := s.runApply s.reads

/-- SEEK (42_cursor.md R198). -/
def execSeek (s : State) : StepOutcome := s.seekTo .cipher Engine.operand128

/-- TELL (42_cursor.md R200). -/
def execTell (s : State) : StepOutcome := s.report .cipher Context.position

/-- ZEROIZE (42_cursor.md R202). -/
def execZeroize (s : State) : StepOutcome := s.onEngine fun e => s.complete e.zeroize

end Sys2Proof.Machine
end

