-- ==== Sys2Proof/Machine/Generator.lean ====
section
/-! DEFINITION. The deterministic generator commands GEN_INIT, FILL, SET_WPOS, GET_WPOS (44_generator.md). -/

namespace Sys2Proof.Machine

/-- The stream id as the 12 bytes of NONCE (44_generator.md R250): N ‖ 0^4 for 8 bytes, N for 12. -/
def NonceForm.generatorContext (f : NonceForm) (rounds : Rounds) (seed sid : List Byte) : Context :=
  Context.construct .generator rounds f.cw64 (byteVector 32 seed)
    (byteVector 12 (if f.cw64 then sid ++ List.replicate 4 0 else sid)) 0

/-- GEN_INIT after its `ZeroCtx` (44_generator.md R250). "ARG2 is not read when ARG3 = 0", where the stream id is 0^8. -/
def State.initGenerator (s : State) (e : Engine) (rounds : Rounds) (seen : Reads) : StepOutcome :=
  if e.arg1 ≠ 32 then s.raise e .invalidKeyLength
  else match NonceForm.ofStreamLength e.arg3 with
    | none => s.raise e .invalidNonceLength
    | some form =>
      s.readInput e seen.key e.arg0.toNat 32 fun seed =>
        if e.arg3 = 0 then s.complete { e with ctx := form.generatorContext rounds seed (List.replicate 8 0) }
        else s.readInput e seen.nonce e.arg2.toNat form.bytes fun sid =>
          s.complete { e with ctx := form.generatorContext rounds seed sid }

/-- GEN_INIT (44_generator.md R250, R252) with given reads: it "always zeroizes first and builds a new instance". -/
def State.runGenInit (s : State) (rounds : Rounds) (seen : Reads) : StepOutcome :=
  s.onEngine fun e => s.initGenerator e.zeroize rounds seen

/-- GEN_INIT (44_generator.md R250). -/
def execGenInit (rounds : Rounds) (s : State) : StepOutcome := s.runGenInit rounds s.reads

/-- FILL (44_generator.md R253), which reads no byte of its buffer. -/
def execFill (s : State) : StepOutcome := s.stream .generator false s.mem

/-- SET_WPOS (44_generator.md R255): byte position 4n, in ℕ. -/
def execSetWpos (s : State) : StepOutcome := s.seekTo .generator fun e => 4 * e.operand128

/-- GET_WPOS (44_generator.md R257): P div 4. -/
def execGetWpos (s : State) : StepOutcome := s.report .generator fun c => c.position / 4

end Sys2Proof.Machine
end

