-- ==== Sys2Proof/Machine/Subkey.lean ====
section
/-! DEFINITION. DERIVE, the standalone subkey derivation (43_subkey.md R233). -/

namespace Sys2Proof.Machine

/-- DERIVE (43_subkey.md R233) with given reads: the output is the subkey, then the subnonce, 44 bytes. -/
def State.runDerive (s : State) (rounds : Rounds) (seen : Reads) : StepOutcome :=
  s.onEngine fun e =>
    if e.arg1 ≠ 32 then s.raise e .invalidKeyLength
    else if e.arg3 ≠ 24 then s.raise e .invalidNonceLength
    else s.readInput e seen.key e.arg0.toNat 32 fun key =>
      s.readInput e seen.nonce e.arg2.toNat 24 fun nonce =>
        s.resolve.writeOutput e e.arg5.toNat 44 ((subkey (byteVector 32 key) nonce rounds).toList ++ subnonce nonce)

/-- DERIVE (43_subkey.md R233). -/
def execDerive (rounds : Rounds) (s : State) : StepOutcome := s.runDerive rounds s.reads

end Sys2Proof.Machine
end

