-- ==== Sys2Proof/Machine/Dispatch.lean ====
section
/-! DEFINITION. Dispatch: each command to its meaning, one arm a constructor. -/

namespace Sys2Proof.Machine

/-- Run a decoded command on the active instance. -/
def exec (i : Instr) (s : State) : Host.Outcome State Fault Refusal :=
  match i with
  | .init rounds counter => Sys2Proof.Machine.execInit rounds counter s
  | .apply => Sys2Proof.Machine.execApply s
  | .seek => Sys2Proof.Machine.execSeek s
  | .tell => Sys2Proof.Machine.execTell s
  | .zeroize => Sys2Proof.Machine.execZeroize s
  | .genInit rounds => Sys2Proof.Machine.execGenInit rounds s
  | .fill => Sys2Proof.Machine.execFill s
  | .setWpos => Sys2Proof.Machine.execSetWpos s
  | .getWpos => Sys2Proof.Machine.execGetWpos s
  | .derive rounds => Sys2Proof.Machine.execDerive rounds s
  | .blocks rounds => Sys2Proof.Machine.execBlocks rounds s

end Sys2Proof.Machine
end

