-- ==== Sys2Proof/Machine/Flight.lean ====
section
/-! DEFINITION. Commands in flight: their ranges (20_memory.md R75), what races with them (R85, R92), how a raced command
runs, and how a command in flight begins, completes or is cut off. -/

namespace Sys2Proof.Machine

/-! ### The sampled registers and the ranges of a command -/

/-- ARG0–ARG6, as a command samples them (20_memory.md R86). -/
def Engine.args (e : Engine) : Vector Word 7 := #v[e.arg0, e.arg1, e.arg2, e.arg3, e.arg4, e.arg5, e.arg6]

/-- An instance with given ARG registers. -/
def Engine.withArgs (e : Engine) (v : Vector Word 7) : Engine :=
  { e with arg0 := v[0], arg1 := v[1], arg2 := v[2], arg3 := v[3], arg4 := v[4], arg5 := v[5], arg6 := v[6] }

/-- The access ranges of a command (20_memory.md R75). -/
def accessRanges (i : Instr) (e : Engine) : List AccessRange :=
  match i with
  | .init _ _ => [(.read, e.arg0.toNat, 32), (.read, e.arg2.toNat, e.arg3.toNat)]
  | .genInit _ => [(.read, e.arg0.toNat, 32), (.read, e.arg2.toNat, e.arg3.toNat)]
  | .apply => [(.read, e.arg0.toNat, e.arg1.toNat), (.write, e.arg0.toNat, e.arg1.toNat)]
  | .fill => [(.write, e.arg0.toNat, e.arg1.toNat)]
  | .derive _ => [(.read, e.arg0.toNat, 32), (.read, e.arg2.toNat, 24), (.write, e.arg5.toNat, 44)]
  | .blocks _ => [(.read, e.arg0.toNat, 32), (.read, e.arg2.toNat, e.arg3.toNat), (.write, e.arg5.toNat, 64 * e.arg6.toNat)]
  | .seek => []
  | .tell => []
  | .zeroize => []
  | .setWpos => []
  | .getWpos => []

/-- The ranges of a command in flight: those of the registers it sampled. -/
def Flight.ranges (f : Flight) : List AccessRange := accessRanges f.instr (Engine.zero.withArgs f.args)

/-- What others meet at a command in flight: its ranges, and the bytes already raced for, which may hold any value until
it has completed and so are met as written (log 10). -/
def Flight.held (f : Flight) : List AccessRange := f.ranges ++ f.raced.map fun r => (.write, r.2)

/-! ### Races -/

/-- The bytes for which two ranges race, with what the other does there: they overlap, and one of the two writes
(20_memory.md R85, R92). -/
def conflict (mine theirs : AccessRange) : Option AccessRange :=
  if (mine.1 == .write || theirs.1 == .write)
      && decide (max mine.2.1 theirs.2.1 < min (mine.2.1 + mine.2.2) (theirs.2.1 + theirs.2.2)) then
    some (theirs.1, max mine.2.1 theirs.2.1,
      min (mine.2.1 + mine.2.2) (theirs.2.1 + theirs.2.2) - max mine.2.1 theirs.2.1)
  else none

/-- All bytes for which two lists of ranges race. -/
def conflicts (mine theirs : List AccessRange) : List AccessRange :=
  mine.flatMap fun m => theirs.filterMap (conflict m)

/-- The bytes for which accesses race with the commands in flight. -/
def State.racedBy (s : State) (mine : List AccessRange) : List AccessRange :=
  s.pending.flatMap fun f => conflicts mine f.held

/-- A command in flight meets accesses of others. -/
def Flight.meet (theirs : List AccessRange) (f : Flight) : Flight := { f with raced := f.raced ++ conflicts f.ranges theirs }

/-- Every command in flight meets accesses of others. -/
def State.meet (s : State) (theirs : List AccessRange) : State := { s with pending := s.pending.map (Flight.meet theirs) }

/-- Memory with a free value in every byte of the ranges, below 2^64. -/
def Memory.scramble (draw : Nat) : List AccessRange → Memory → Memory
  | [], m => m
  | r :: rs, m =>
    Memory.scramble draw rs
      (Memory.writeBytes m r.2.1 ((List.range (min r.2.2 (2 ^ 64 - r.2.1))).map fun j => Config.racedByte draw (r.2.1 + j)))

/-- The reads of a raced command: a byte that others write meanwhile reads as any value, each time it is read
(20_memory.md R85). -/
def State.racedReads (s : State) (raced : List AccessRange) : Reads :=
  let written := raced.filter fun r => r.1 == .write
  ⟨Memory.scramble s.freeCount written s.mem, Memory.scramble (s.freeCount + 1) written s.mem,
    Memory.scramble (s.freeCount + 2) written s.mem⟩

/-! ### Running a command that is, or is not, raced -/

/-- A command with given reads; the commands that read no host memory are as without. -/
def execSeeing (i : Instr) (seen : Reads) (s : State) : StepOutcome :=
  match i with
  | .init rounds counter => s.runInit rounds counter seen
  | .genInit rounds => s.runGenInit rounds seen
  | .apply => s.runApply seen
  | .derive rounds => s.runDerive rounds seen
  | .blocks rounds => s.runBlocks rounds seen
  | .fill => exec .fill s
  | .seek => exec .seek s
  | .tell => exec .tell s
  | .zeroize => exec .zeroize s
  | .setWpos => exec .setWpos s
  | .getWpos => exec .getWpos s

/-- After a raced command "every byte of the overlap may end with any value" (20_memory.md R85). -/
def State.endRace (s : State) (raced : List AccessRange) : State :=
  { s with mem := Memory.scramble s.freeCount raced s.mem, freeCount := s.freeCount + 1 }

/-- A command of the active instance, with the bytes for which others raced with it. -/
def State.runRacing (s : State) (i : Instr) (raced : List AccessRange) : StepOutcome :=
  match raced with
  | [] => exec i s
  | r :: rs =>
    StepOutcome.andThen (execSeeing i (s.racedReads (r :: rs)) { s with freeCount := s.freeCount + 3 }) fun s' =>
      .next (s'.endRace (r :: rs))

/-- A command that begins and completes in one step, beside those in flight. -/
def State.runNow (s : State) (i : Instr) : StepOutcome :=
  s.onEngine fun e => (s.meet (accessRanges i e)).runRacing i (s.racedBy (accessRanges i e))

/-- A command begins: it samples its registers (20_memory.md R86), and races with those in flight that it overlaps
(R92). -/
def State.beginFlight (s : State) (agent : Nat) (i : Instr) : StepOutcome :=
  s.onEngine fun e =>
    .next { s with
      pending := s.pending.map (Flight.meet (accessRanges i e)) ++ [⟨agent, s.active, i, e.args, s.racedBy (accessRanges i e)⟩] }

/-- The state in which a command in flight runs when it completes: on its instance, with the registers it sampled, and no
longer in flight. -/
def State.flightState (s : State) (f : Flight) : State :=
  { s with
    pending := s.pending.filter fun g => g.inst != f.inst
    active := f.inst
    engines := s.engines.modify f.inst fun e => e.withArgs f.args }

/-- A command in flight completes: "all its reads and writes of host memory are performed, and its STATUS, RES and context
updates are made" (20_memory.md R72). An ARG register written meanwhile keeps what was written (R86). -/
def State.finish (s : State) (f : Flight) : StepOutcome :=
  match s.engines[f.inst]? with
  | none => .refused .noSuchEngine
  | some e =>
    StepOutcome.andThen ((s.flightState f).runRacing f.instr f.raced) fun t =>
      .next { t with engines := t.engines.modify f.inst fun e' => e'.withArgs e.args }

/-- What power-on reset may leave in host memory of a command it cuts off: its output range and the bytes raced for hold
any value (log 17). -/
def Flight.cutOff (f : Flight) : List AccessRange := (f.ranges.filter fun r => r.1 == .write) ++ f.raced

end Sys2Proof.Machine
end

