-- ==== Sys2Proof/Machine/Bus.lean ====
section
/-! DEFINITION. The host's side: the register windows (10_state.md R31–R37), the issue of a command by a CMD write
(R32, 20_memory.md R72), host memory accesses of host agents and their races (R85), power-on reset, and one operation of
the host's list, with what it waits for (R72, R84). -/

namespace Sys2Proof.Machine

/-! ### The register window -/

/-- The registers of a window (10_state.md R31). -/
inductive Register where
  | cmd
  | status
  | arg (i : Fin 7)
  | res0
  | res1
  | reserved
deriving DecidableEq, Repr

/-- The register at an 8-byte slot, offset 8·slot, of a window (10_state.md R31). -/
def registerAt : Nat → Register
  | 0 => .cmd
  | 1 => .status
  | 2 => .arg 0
  | 3 => .arg 1
  | 4 => .arg 2
  | 5 => .arg 3
  | 6 => .arg 4
  | 7 => .arg 5
  | 8 => .arg 6
  | 10 => .res0
  | 11 => .res1
  | _ => .reserved

/-- ARGi (10_state.md R33). -/
def Engine.arg (e : Engine) (i : Fin 7) : Word :=
  match i with
  | 0 => e.arg0
  | 1 => e.arg1
  | 2 => e.arg2
  | 3 => e.arg3
  | 4 => e.arg4
  | 5 => e.arg5
  | 6 => e.arg6

/-- "A host write stores the full 64-bit value" (10_state.md R33). -/
def Engine.setArg (e : Engine) (i : Fin 7) (v : Word) : Engine :=
  match i with
  | 0 => { e with arg0 := v }
  | 1 => { e with arg1 := v }
  | 2 => { e with arg2 := v }
  | 3 => { e with arg3 := v }
  | 4 => { e with arg4 := v }
  | 5 => { e with arg5 := v }
  | 6 => { e with arg6 := v }

/-- What a register read returns (10_state.md R31–R36): CMD and reserved slots read 0. -/
def Engine.readRegister (e : Engine) : Register → Word
  | .cmd => 0
  | .status => e.status
  | .arg i => e.arg i
  | .res0 => e.res0
  | .res1 => e.res1
  | .reserved => 0

/-- A write to a register other than CMD: read-only and reserved slots ignore it (10_state.md R33, R36). -/
def Engine.writeRegister (e : Engine) (r : Register) (v : Word) : Engine :=
  match r with
  | .arg i => e.setArg i v
  | .cmd => e
  | .status => e
  | .res0 => e
  | .res1 => e
  | .reserved => e

/-- The instance and the window offset of a host address: instance k's window is at ENGINE_BASE + k·0x100
(10_state.md R31). -/
def State.windowOf (s : State) (addr : Word) : Option (Nat × Nat) :=
  if s.inWindow addr.toNat then
    some ((addr.toNat - s.params.engineBase.toNat) / 0x100, (addr.toNat - s.params.engineBase.toNat) % 0x100)
  else none

/-- Resolve a register access to an instance and a register: "one aligned 64-bit access", anything else is refused
(10_state.md R37; log 8, log 9). -/
def State.atRegister (s : State) (addr : Word) (width : Nat) (body : Nat → Register → StepOutcome) : StepOutcome :=
  match s.windowOf addr with
  | none => .refused .platformAddress
  | some (k, off) => if width = 64 ∧ off % 8 = 0 then body k (registerAt (off / 8)) else .refused .registerAccess

/-! ### Issuing a command -/

/-- An illegal word "changes only STATUS.ERR" of the active instance (60_exceptions.md R281). -/
def State.raiseIllegal (s : State) : StepOutcome := s.onEngine fun e => s.raise e .illegalCommand

/-- A 64-bit write of w to CMD of instance k issues command w to it (10_state.md R32), decode coming first
(60_exceptions.md R286); a legal command runs to completion inside the write (20_memory.md R72). -/
def State.issue (s : State) (k : Nat) (w : Word) : StepOutcome :=
  match decode w with
  | .error _ => State.raiseIllegal { s with active := k }
  | .ok i => State.runNow { s with active := k } i

/-- The same, but a legal command stays in flight. -/
def State.begin (s : State) (agent k : Nat) (w : Word) : StepOutcome :=
  match decode w with
  | .error _ => State.raiseIllegal { s with active := k }
  | .ok i => State.beginFlight { s with active := k } agent i

/-! ### Host memory and host agents -/

/-- Append a value a host agent has read. -/
def State.observe (s : State) (o : Observation) : State := { s with observed := s.observed ++ [o] }

/-- A host agent reads a byte of host memory; a byte of a window is not one (10_state.md R37, R55; log 8, log 16). A read
that races with a command in flight, or meets a byte raced for, "may return any value" (20_memory.md R85; log 10). -/
def State.hostRead (s : State) (agent : Nat) (addr : Word) : StepOutcome :=
  if s.inWindow addr.toNat then .refused .registerAccess
  else match s.racedBy [(.read, addr.toNat, 1)] with
    | [] => .next (s.observe (.byte agent addr (Memory.read s.mem addr.toNat)))
    | _ :: _ =>
      .next { (s.meet [(.read, addr.toNat, 1)]).observe (.byte agent addr (Config.racedRead s.freeCount)) with
        freeCount := s.freeCount + 1 }

/-- A host agent writes a byte of host memory (log 16). Commands in flight in whose ranges it lies have been raced with. -/
def State.hostWrite (s : State) (addr : Word) (value : Byte) : StepOutcome :=
  if s.inWindow addr.toNat then .refused .registerAccess
  else .next { s.meet [(.write, addr.toNat, 1)] with mem := Memory.write s.mem addr.toNat value }

/-! ### One host operation -/

/-- A register read has no side effect but the value it gives the agent (10_state.md R32, R36, R38). -/
def State.regRead (s : State) (agent : Nat) (addr : Word) (width : Nat) : StepOutcome :=
  s.atRegister addr width fun k r =>
    match s.engines[k]? with
    | none => .refused .noSuchEngine
    | some e => .next (s.observe (.register agent addr (e.readRegister r)))

/-- A write to a register other than CMD: ARGi stores, the rest is ignored (10_state.md R31–R36). -/
def State.storeRegister (s : State) (k : Nat) (r : Register) (value : Word) : StepOutcome :=
  .next { s with engines := s.engines.modify k fun e => e.writeRegister r value }

/-- A register write that completes: CMD issues a command (10_state.md R32). -/
def State.regWrite (s : State) (addr : Word) (width : Nat) (value : Word) : StepOutcome :=
  s.atRegister addr width fun k r =>
    match r with
    | .cmd => s.issue k value
    | r => s.storeRegister k r value

/-- A register write of which the command, if it issues one, stays in flight. -/
def State.beginWrite (s : State) (agent : Nat) (addr : Word) (width : Nat) (value : Word) : StepOutcome :=
  s.atRegister addr width fun k r =>
    match r with
    | .cmd => s.begin agent k value
    | r => s.storeRegister k r value

/-- The command in flight on an instance completes; where there is none, nothing happens. -/
def State.completeOn (s : State) (k : Nat) : StepOutcome :=
  match s.pending.find? fun f => f.inst == k with
  | none => .next s
  | some f => s.finish f

/-- Power-on reset: every instance zero, the selector unresolved, no command in flight; host memory is not reset, and the
parameters hold (10_state.md R56, 70_reset_and_hazards.md R310, R314; log 17). -/
def State.powerOnReset (s : State) : State :=
  { s with
    engines := List.replicate s.engines.length Engine.zero
    bselValid := false
    bsel := none
    mem := Memory.scramble s.freeCount (s.pending.flatMap Flight.cutOff) s.mem
    pending := []
    freeCount := s.freeCount + s.pending.length }

/-- Carry out one operation of the host's list. -/
def HostOp.perform (op : HostOp) (s : State) : StepOutcome :=
  match op with
  | .regRead agent addr width => s.regRead agent addr width
  | .regWrite _ addr width value => s.regWrite addr width value
  | .beginWrite agent addr width value => s.beginWrite agent addr width value
  | .completes k => s.completeOn k
  | .memRead agent addr => s.hostRead agent addr
  | .memWrite _ addr value => s.hostWrite addr value
  | .powerOnReset => .next s.powerOnReset

/-! ### Waiting -/

/-- The agent that carries out an operation, if one does. -/
def HostOp.agent? : HostOp → Option Nat
  | .regRead agent _ _ => some agent
  | .regWrite agent _ _ _ => some agent
  | .beginWrite agent _ _ _ => some agent
  | .completes _ => none
  | .memRead agent _ => some agent
  | .memWrite agent _ _ => some agent
  | .powerOnReset => none

/-- The instance whose CMD register a write of a given width at an address reaches. -/
def State.commandTarget (s : State) (addr : Word) (width : Nat) : Option Nat :=
  match s.windowOf addr with
  | none => none
  | some (k, off) => if width = 64 ∧ off = 0 then some k else none

/-- The instance to which an operation writes a command. -/
def HostOp.commandTo (op : HostOp) (s : State) : Option Nat :=
  match op with
  | .regRead _ _ _ => none
  | .regWrite _ addr width _ => s.commandTarget addr width
  | .beginWrite _ addr width _ => s.commandTarget addr width
  | .completes _ => none
  | .memRead _ _ => none
  | .memWrite _ _ _ => none
  | .powerOnReset => none

/-- Whether an operation waits for a command in flight: its agent's own CMD write has not completed (20_memory.md R72), or
it is "a CMD write to an instance whose previous command has not completed" (70_reset_and_hazards.md R315). -/
def HostOp.waitsFor (op : HostOp) (s : State) (f : Flight) : Bool :=
  op.agent? == some f.agent || op.commandTo s == some f.inst

/-- The command in flight that an operation waits for. -/
def State.awaited (s : State) (op : HostOp) : Option Flight := s.pending.find? (op.waitsFor s)

/-- The operation at the host's index; it moves the index by one (10_state.md R35). One that waits for a command in flight
stays where it is, and that command completes; with none left the commands in flight complete (70_reset_and_hazards.md R322),
and then the engine "is idle" (R311; log 14). -/
def State.hostStep (s : State) : StepOutcome :=
  match s.hostOps[s.pc]? with
  | none => match s.pending with
    | [] => .next s
    | f :: _ => s.finish f
  | some op => match s.awaited op with
    | none => HostOp.perform op { s with pc := s.pc + 1 }
    | some f => s.finish f

/-- The host's list with an operation placed at an index, reads of host byte 0 filling the places before it. -/
def placeHostOp (ops : List HostOp) (at_ : Nat) (op : HostOp) : List HostOp :=
  ops.take at_ ++ List.replicate (at_ - ops.length) (HostOp.memRead 0 0) ++ op :: ops.drop (at_ + 1)

end Sys2Proof.Machine
end

