-- ==== Sys2Proof/Machine/Step.lean ====
section
/-! DEFINITION. One step of the machine, and where a command must stand to be the next one it runs. -/

namespace Sys2Proof.Machine

/-- One step: the host's next operation (10_state.md R35), which for a CMD write is one whole command, or the completion of
one in flight (20_memory.md R72, R84). -/
def step : State → Host.Outcome State Fault Refusal := fun s => s.hostStep

/-- `s` with a CMD write of the word w to instance 0 as the host's next operation, and no command in flight that it would
wait for (10_state.md R32, R35; log 3). -/
def State.withFetchWord (s : State) (nbits w : Nat) : State :=
  { s with
    pending := []
    hostOps := placeHostOp s.hostOps s.pc (.regWrite 0 s.params.engineBase 64 (BitVec.ofNat 64 (w % 2 ^ nbits))) }

end Sys2Proof.Machine
end

