-- ==== Sys2Proof/Safety.lean ====
section
/-! DEFINITION. The terms claims use: what a good state is (the invariants of 10_state.md R48, R49 and the data's own
forms), and what the frames speak of. -/

namespace Sys2Proof.Machine

/-- What holds of every context a run reaches: the invariant of 10_state.md R48 and the cache coherence of R49 for a
READY context, the reset values for an UNINIT one (42_cursor.md R204), and the form of a short nonce (10_state.md R44).
A FAULT context's cursor may be anything after a BusFault (60_exceptions.md R284). -/
structure Context.Inv (c : Context) : Prop where
  /-- an UNINIT context holds its reset values -/
  uninit : c.cstate = .uninit → c = Context.zero
  /-- CTR ≤ MAXCTR(CW) -/
  counter : c.cstate = .ready → c.ctr.toNat ≤ maxCtr c.cw64
  /-- OFS ≤ 64 -/
  offset : c.cstate = .ready → c.ofs.toNat ≤ 64
  /-- "OFS = 64 implies BUFV = 1" -/
  exhausted : c.cstate = .ready → c.ofs.toNat = 64 → c.bufv = true
  /-- "BUFV = 1 implies 1 ≤ OFS" -/
  buffered : c.cstate = .ready → c.bufv = true → 1 ≤ c.ofs.toNat
  /-- "if BUFV = 1 then BUF = Block(KEY, NV, CTR, R)" -/
  coherent : c.cstate = .ready → c.bufv = true → c.buf = block c.key c.nv c.ctr c.rnd
  /-- "when CW64 = 1 … NONCE[8..12) = 0^4" -/
  shortNonce : c.cw64 = true → ∀ i : Fin 12, 8 ≤ i.val → c.nonce[i] = 0

/-- The selector's two fields agree: BSEL is what `resolve()` computes once it has run, and none before
(41_backends.md R165, 10_state.md R53). -/
def State.SelectorInv (s : State) : Prop :=
  s.bsel = if s.bselValid then some (Params.selectBackend s.params) else none

/-- The invariant of the machine. -/
structure State.Inv (s : State) : Prop where
  contexts : ∀ e ∈ s.engines, e.ctx.Inv
  selector : s.SelectorInv
  memory : Memory.wf s.mem = true
  /-- a command in flight belongs to an instance there is -/
  instances : ∀ f ∈ s.pending, f.inst < s.engines.length
  /-- no two commands are in flight on one instance, or for one agent -/
  single : s.pending.Pairwise fun f g => f.inst ≠ g.inst ∧ f.agent ≠ g.agent

/-- [a, a+n) is admitted for the access kinds, ends below 2^64 and covers no register window: the ordinary case in
which a command's accesses are performed (20_memory.md R76, R77, R81). -/
def State.Accessible (s : State) (kinds : List AccessKind) (a n : Nat) : Prop := s.checkRange kinds a n = .admitted

/-- Whether address x lies in [a, a+n). -/
def InRange (a n x : Nat) : Prop := a ≤ x ∧ x < a + n

/-- A READY context of kind k: what `RequireReady(k)` lets through (42_cursor.md R203). -/
def Context.Ready (c : Context) (k : Kind) : Prop := c.cstate = .ready ∧ c.kind = k

/-- The access to [a, a+n) ends in BusFault(x): the range check fails and x is the range's start (20_memory.md R76), or
x is the first byte that is not admitted (R77). -/
def State.AccessFaults (s : State) (kinds : List AccessKind) (a n x : Nat) : Prop :=
  (s.checkRange kinds a n = .wraps ∧ x = a) ∨ s.checkRange kinds a n = .denied x

/-- The host's next operation is `op`, and it waits for no command in flight (10_state.md R35; 20_memory.md R72, R84). -/
def State.Performs (s : State) (op : HostOp) : Prop := s.hostOps[s.pc]? = some op ∧ s.awaited op = none

/-- The host's next operation is a 64-bit write of w to the CMD register of instance k (10_state.md R31, R32, R35). -/
def State.NextIsCommand (s : State) (agent k : Nat) (w : Word) : Prop :=
  ∃ addr, s.Performs (.regWrite agent addr 64 w) ∧ s.windowOf addr = some (k, 0)

/-- The same, and the command stays in flight (20_memory.md R85). -/
def State.NextBegins (s : State) (agent k : Nat) (w : Word) : Prop :=
  ∃ addr, s.Performs (.beginWrite agent addr 64 w) ∧ s.windowOf addr = some (k, 0)

/-- The next step completes the command f in flight, and leaves the host's index at `pc`: the list says so there, or the
host's next operation waits for it, or the list is at its end and f was issued first (20_memory.md R72;
70_reset_and_hazards.md R315, R322). -/
def State.NextCompletes (s : State) (f : Flight) (pc : Nat) : Prop :=
  (s.Performs (.completes f.inst) ∧ (s.pending.find? fun g => g.inst == f.inst) = some f ∧ pc = s.pc + 1) ∨
  (∃ op, s.hostOps[s.pc]? = some op ∧ s.awaited op = some f ∧ pc = s.pc) ∨
  (s.hostOps[s.pc]? = none ∧ s.pending.head? = some f ∧ pc = s.pc)

/-- Others do `kind` at byte x of a range of `theirs`, and there race with one of `mine` (20_memory.md R85, R92). -/
def RacesAt (mine theirs : List AccessRange) (kind : AccessKind) (x : Nat) : Prop :=
  (∃ r ∈ mine, InRange r.2.1 r.2.2 x ∧ (r.1 = .write ∨ kind = .write)) ∧ ∃ r ∈ theirs, r.1 = kind ∧ InRange r.2.1 r.2.2 x

/-- Others have raced for byte x with a command in flight, doing `kind` there. -/
def Flight.RacedAt (f : Flight) (kind : AccessKind) (x : Nat) : Prop := ∃ r ∈ f.raced, r.1 = kind ∧ InRange r.2.1 r.2.2 x

/-- No one has raced for byte x, of the bytes raced for with a command. -/
def Untouched (raced : List AccessRange) (x : Nat) : Prop := ∀ r ∈ raced, ¬InRange r.2.1 r.2.2 x

/-- No one has written byte x, of the bytes raced for with a command. -/
def Unwritten (raced : List AccessRange) (x : Nat) : Prop := ∀ r ∈ raced, r.1 = .write → ¬InRange r.2.1 r.2.2 x

/-- No one has written a byte of [a, a+n), of the bytes raced for with a command. -/
def UnwrittenIn (raced : List AccessRange) (a n : Nat) : Prop := ∀ x, InRange a n x → Unwritten raced x

/-- From p to q the commands in flight stay the same, but that they have met accesses of others: exactly the bytes for which
those race are added. -/
def MetBy (p q : List Flight) (theirs : List AccessRange) : Prop :=
  q.length = p.length ∧ ∀ (j : Nat) (f : Flight), p[j]? = some f → ∃ f' : Flight, q[j]? = some f' ∧ f' = { f with raced := f'.raced } ∧
    ∀ kind x, f'.RacedAt kind x ↔ f.RacedAt kind x ∨ RacesAt f.ranges theirs kind x

/-- The accesses race with no command in flight. -/
def State.Quiet (s : State) (mine : List AccessRange) : Prop := ∀ f ∈ s.pending, ∀ kind x, ¬RacesAt mine f.held kind x

/-- The state in which the command of a CMD write to instance k runs: the host's index has moved on (10_state.md R35),
and instance k is the active one. -/
def State.commandState (s : State) (k : Nat) : State := { s with pc := s.pc + 1, active := k }

/-- The state without what only the backends' configuration and choice determine (00_scope.md R12, 10_state.md R54). -/
def State.forgetBackend (s : State) : State :=
  { s with
    params := { s.params with backends := [], backendOrder := [], feat := [], forcePortable := false, batch := [] }
    bselValid := false
    bsel := none }

/-- An outcome without what only the backends determine. -/
def forgetBackend : StepOutcome → StepOutcome
  | .next s => .next s.forgetBackend
  | .fault r => .fault r
  | .refused r => .refused r

end Sys2Proof.Machine
end

