-- ==== Sys2Proof/Certificates/Slice0/Obligations.lean ====
section
/-! DEFINITION. The statements for the provers, in the order of the spec's subjects: encodings, the host's side, the
commands' effects, errors, laws between commands, and rules of the whole machine. OBLIGATIONS.json lists them. -/

open Sys2Proof Sys2Proof.Machine

/-! ### Encodings -/

/-- The 22 legal CMD values with the command each spells; every other value decodes to no command: what 30_encoding.md R100,
R102, R103 and R105 come to, in the table R114 that the spec marks as derived from them. -/
def Obligations.LegalWordsAreTheTwentyTwo : Prop :=
  ∀ (w : Word) (i : Instr), decode w = .ok i ↔ (w, i) ∈
    ([(0x001, .init .r8 false), (0x101, .init .r12 false), (0x201, .init .r20 false),
      (0x401, .init .r8 true), (0x501, .init .r12 true), (0x601, .init .r20 true),
      (0x002, .apply), (0x003, .seek), (0x004, .tell), (0x005, .zeroize),
      (0x008, .genInit .r8), (0x108, .genInit .r12), (0x208, .genInit .r20),
      (0x009, .fill), (0x00A, .setWpos), (0x00B, .getWpos),
      (0x010, .derive .r8), (0x110, .derive .r12), (0x210, .derive .r20),
      (0x011, .blocks .r8), (0x111, .blocks .r12), (0x211, .blocks .r20)] : List (Word × Instr))

/-- Decode and encode agree in both directions, for every command and every 64-bit value (30_encoding.md R100, R105). -/
def Obligations.DecodeAndEncodeAgree : Prop :=
  ∀ (w : Word) (i : Instr), i.wellFormed = true → (decode w = .ok i ↔ w = encode i)

/-- 30_encoding.md R106: each of the reserved encodings decodes to an error, which is IllegalCommand. -/
def Obligations.ReservedEncodingsAreIllegal : Prop :=
  ∀ w : Word,
    (w.extractLsb' 0 8 ∉ [0x01#8, 0x02#8, 0x03#8, 0x04#8, 0x05#8, 0x08#8, 0x09#8, 0x0A#8, 0x0B#8, 0x10#8, 0x11#8] ∨
      w.extractLsb' 8 2 = 3#2 ∨
      (w.extractLsb' 0 8 ∉ [0x01#8, 0x08#8, 0x10#8, 0x11#8] ∧ w.extractLsb' 8 2 ≠ 0#2) ∨
      (w.extractLsb' 0 8 ≠ 0x01#8 ∧ w.extractLsb' 10 1 = 1#1) ∨
      w.extractLsb' 11 53 ≠ 0#53) →
    ∃ why, decode w = .error why

/-- The worked encodings, which R115 of 30_encoding.md marks as derived from R100 and R105. -/
def Obligations.WorkedEncodings : Prop :=
  encode (.init .r20 true) = 0x601 ∧ decode 0x601 = .ok (.init .r20 true) ∧
  encode (.derive .r20) = 0x210 ∧ decode 0x210 = .ok (.derive .r20) ∧
  (∃ why, decode 0x301 = .error why) ∧ (∃ why, decode 0x102 = .error why) ∧ (∃ why, decode 0x100000002 = .error why)

/-! ### The host's side -/

/-- A step whose next host operation writes a legal command word to the CMD register of an instance is `exec` of the decoded
command, on the state whose host index has moved on and whose active instance is that one, if the command races with no
command in flight (10_state.md R32, R35; 20_memory.md R72); with those in flight with which it does race, they note it, and
the command runs raced (R85, R92). Where the write only begins, the command is in flight from then on, with the registers
sampled then (R86), raced for by those that it overlaps. A step that completes a command in flight runs it on those
registers; the host's ARG registers stay. An operation waits for a command in flight if it is its agent's, or a CMD write to
its instance, and for no other (20_memory.md R72, 70_reset_and_hazards.md R315). The host's list, its index and its operations are the model's form of R35
(log 4), the commands in flight are its form of R85 (log 10). -/
def Obligations.StepRunsTheDecodedCommand : Prop :=
  (∀ (s : State) (agent k : Nat) (w : Word) (i : Instr) (e : Engine), decode w = .ok i → i.wellFormed = true →
    s.engines[k]? = some e →
    (s.NextIsCommand agent k w →
      (s.Quiet (accessRanges i e) → step s = exec i (s.commandState k)) ∧
      step s = State.runRacing ((s.commandState k).meet (accessRanges i e)) i (s.racedBy (accessRanges i e))) ∧
    (s.NextBegins agent k w →
      ∃ (p : List Flight) (f : Flight), step s = .next { s.commandState k with pending := p ++ [f] } ∧
        MetBy s.pending p (accessRanges i e) ∧ f.agent = agent ∧ f.inst = k ∧ f.instr = i ∧ f.args = e.args ∧
        ∀ kind x, f.RacedAt kind x ↔ ∃ g ∈ s.pending, RacesAt (accessRanges i e) g.held kind x)) ∧
  (∀ (s : State) (f : Flight) (e : Engine) (pc : Nat), s.NextCompletes f pc → s.engines[f.inst]? = some e →
    step s = StepOutcome.andThen (State.runRacing (State.flightState { s with pc := pc } f) f.instr f.raced) fun t =>
      .next { t with engines := t.engines.modify f.inst fun e' => e'.withArgs e.args }) ∧
  (∀ (s : State) (op : HostOp), s.awaited op = none ↔ ∀ f ∈ s.pending, op.agent? ≠ some f.agent ∧
    ∀ agent addr w, op = .regWrite agent addr 64 w ∨ op = .beginWrite agent addr 64 w → s.windowOf addr ≠ some (f.inst, 0))

/-- 60_exceptions.md R281: an illegal word changes only STATUS.ERR of the instance it is written to; it is not fatal. A write
that only begins does the same at once, for an illegal word is no command that could be in flight (log 10). -/
def Obligations.IllegalCommandChangesOnlyErr : Prop :=
  ∀ (s : State) (agent k : Nat) (w : Word) (why : DecodeError) (e : Engine), decode w = .error why → s.engines[k]? = some e →
    s.NextIsCommand agent k w ∨ s.NextBegins agent k w →
    step s = .next ((s.commandState k).putEngine { e with err := .illegalCommand })

/-- 10_state.md R31: instance k's window of 0x100 bytes is at ENGINE_BASE + k·0x100, when the windows end within the
address space. -/
def Obligations.WindowAddressesResolve : Prop :=
  ∀ (s : State) (k off : Nat), k < s.engines.length → off < 0x100 →
    s.params.engineBase.toNat + 0x100 * s.engines.length ≤ 2 ^ 64 →
    s.windowOf (s.params.engineBase + BitVec.ofNat 64 (k * 0x100 + off)) = some (k, off)

/-- 10_state.md R31–R36, R38: what an aligned 64-bit read of each window offset gives the agent, with no side effect but
that the value is observed and the host's index moves on. -/
def Obligations.RegisterReads : Prop :=
  ∀ (s : State) (agent k off : Nat) (addr : Word) (e : Engine),
    s.Performs (.regRead agent addr 64) → s.windowOf addr = some (k, off) → off % 8 = 0 → s.engines[k]? = some e →
    step s = .next { s with
      pc := s.pc + 1
      observed := s.observed ++ [.register agent addr
        (if off = 0x08 then e.status
         else if off = 0x10 then e.arg0 else if off = 0x18 then e.arg1 else if off = 0x20 then e.arg2
         else if off = 0x28 then e.arg3 else if off = 0x30 then e.arg4 else if off = 0x38 then e.arg5
         else if off = 0x40 then e.arg6 else if off = 0x50 then e.res0 else if off = 0x58 then e.res1 else 0)] }

/-- 10_state.md R36: a read of a reserved offset returns 0, and neither it nor a write to a reserved offset, STATUS,
RES0 or RES1 changes any state of the engine. -/
def Obligations.IneffectiveAccesses : Prop :=
  ∀ (s : State) (agent k off : Nat) (addr v : Word),
    s.windowOf addr = some (k, off) → off % 8 = 0 → k < s.engines.length →
    ((off = 0x48 ∨ (0x60 ≤ off ∧ off ≤ 0xF8)) → s.Performs (.regRead agent addr 64) →
      step s = .next { s with pc := s.pc + 1, observed := s.observed ++ [.register agent addr 0] }) ∧
    ((off = 0x48 ∨ (0x60 ≤ off ∧ off ≤ 0xF8) ∨ off = 0x08 ∨ off = 0x50 ∨ off = 0x58) →
      s.Performs (.regWrite agent addr 64 v) ∨ s.Performs (.beginWrite agent addr 64 v) →
      step s = .next { s with pc := s.pc + 1 })

/-- 10_state.md R33: a host write to ARGi stores the full value in that register of that instance, and nothing else
changes. -/
def Obligations.ArgumentWritesStore : Prop :=
  ∀ (s : State) (agent k off : Nat) (addr v : Word) (e : Engine),
    s.Performs (.regWrite agent addr 64 v) ∨ s.Performs (.beginWrite agent addr 64 v) → s.windowOf addr = some (k, off) →
    s.engines[k]? = some e → off ∈ [0x10, 0x18, 0x20, 0x28, 0x30, 0x38, 0x40] →
    step s = .next { s with
      pc := s.pc + 1
      engines := s.engines.set k
        { e with
          arg0 := if off = 0x10 then v else e.arg0
          arg1 := if off = 0x18 then v else e.arg1
          arg2 := if off = 0x20 then v else e.arg2
          arg3 := if off = 0x28 then v else e.arg3
          arg4 := if off = 0x30 then v else e.arg4
          arg5 := if off = 0x38 then v else e.arg5
          arg6 := if off = 0x40 then v else e.arg6 } }

/-- 10_state.md R37: a register access that is not 64 bits wide, or is at a misaligned offset, is refused by name. -/
def Obligations.OddRegisterAccessesRefused : Prop :=
  ∀ (s : State) (agent width k off : Nat) (addr v : Word),
    s.windowOf addr = some (k, off) → (width ≠ 64 ∨ off % 8 ≠ 0) →
    (s.Performs (.regRead agent addr width) ∨ s.Performs (.regWrite agent addr width v) ∨
      s.Performs (.beginWrite agent addr width v)) →
    step s = .refused .registerAccess

/-- 20_memory.md R85: a command with which others race goes on, for every list of bytes raced for, when none of its ranges
covers a register window. "Every byte of the overlap may end with any value", and no clause speaks of such a byte. Of the
rest: no other instance, no ARG register, nothing of the host and no command in flight changes; every untouched byte outside
the output range is as before; and all that depends on no input byte that others have written is as `exec` makes it: its
outcome, failing ones with all their effects, RES0 and RES1, the selector, the whole instance but for the key and nonce of a
successful INIT or GEN_INIT, the key that a 24-byte nonce derives when others have written none of its inputs, and every
untouched byte of memory but for DERIVE's subkey and subnonce bytes and BLOCKS' output where an input of theirs was written.
With no input byte written the instances and every untouched byte are `exec`'s. The clauses that follow say the same by value
for the commands that may run (42_cursor.md R190, R194; 44_generator.md R250, R253; 43_subkey.md R233; 41_backends.md R170),
among them every key and nonce byte not written and the zeros behind a short nonce. That the subnonce's four zeros stand
first, and its suffix after them (nonce bytes 0–3 and 4–11 of a 24-byte INIT, output bytes 32–35 and 36–43 of DERIVE), is
the spec's choice from general knowledge (43_subkey.md R231, 93_implementation_defined.md G7, log 13). That the model lets a
raced byte be any value, where R85 also allows a refusal, is its choice (log 10). -/
def Obligations.RacedCommandsGoOn : Prop :=
  ∀ (s : State) (i : Instr) (raced : List AccessRange) (e : Engine), s.engine? = some e →
    (∀ kind a n x, (kind, a, n) ∈ accessRanges i e → InRange a n x → s.inWindow x = false) →
    ∃ (t : State) (e' : Engine), s.runRacing i raced = .next t ∧ t.engine? = some e' ∧
      t.params = s.params ∧ t.hostOps = s.hostOps ∧ t.pc = s.pc ∧ t.observed = s.observed ∧ t.active = s.active ∧
      t.pending = s.pending ∧ (∀ j, j ≠ s.active → t.engines[j]? = s.engines[j]?) ∧ e'.args = e.args ∧
      (∀ x, Untouched raced x → (∀ a n, (.write, a, n) ∈ accessRanges i e → ¬InRange a n x) →
        Memory.read t.mem x = Memory.read s.mem x) ∧
      (∃ (n : Nat) (u : State) (f : Engine), exec i { s with freeCount := n } = .next u ∧ u.engine? = some f ∧
        t.bselValid = u.bselValid ∧ t.bsel = u.bsel ∧
        e' = { f with ctx := { f.ctx with key := e'.ctx.key, nonce := e'.ctx.nonce } } ∧
        ((∀ r c, i ≠ .init r c) ∧ (∀ r, i ≠ .genInit r) ∨ f.err ≠ .ok → e' = f) ∧
        (e.arg3 = 24 → UnwrittenIn raced e.arg0.toNat 32 → UnwrittenIn raced e.arg2.toNat 16 → e'.ctx.key = f.ctx.key) ∧
        (∀ x, Untouched raced x →
          (∀ r, i = .derive r →
            (InRange e.arg5.toNat 32 x → UnwrittenIn raced e.arg0.toNat 32 ∧ UnwrittenIn raced e.arg2.toNat 16) ∧
            ∀ j, j < 8 → x = e.arg5.toNat + 36 + j → Unwritten raced (e.arg2.toNat + 16 + j)) →
          (∀ r, i = .blocks r → InRange e.arg5.toNat (64 * e.arg6.toNat) x →
            UnwrittenIn raced e.arg0.toNat 32 ∧ UnwrittenIn raced e.arg2.toNat e.arg3.toNat) →
          Memory.read t.mem x = Memory.read u.mem x) ∧
        ((∀ a n, (.read, a, n) ∈ accessRanges i e → UnwrittenIn raced a n) →
          t.engines = u.engines ∧ ∀ x, Untouched raced x → Memory.read t.mem x = Memory.read u.mem x)) ∧
      (i = .apply → e.ctx.Ready .cipher → e.ctx.Inv → e.ctx.position + e.arg1.toNat ≤ endPos e.ctx.cw64 →
        s.Accessible [.read, .write] e.arg0.toNat e.arg1.toNat →
        e'.err = .ok ∧ e'.ctx.position = e.ctx.position + e.arg1.toNat ∧
        ∀ j, j < e.arg1.toNat → Untouched raced (e.arg0.toNat + j) →
          Memory.read t.mem (e.arg0.toNat + j) =
            Memory.read s.mem (e.arg0.toNat + j) ^^^ e.ctx.keystream (e.ctx.position + j)) ∧
      (i = .fill → e.ctx.Ready .generator → e.ctx.Inv → e.ctx.position + e.arg1.toNat ≤ endPos e.ctx.cw64 →
        s.Accessible [.write] e.arg0.toNat e.arg1.toNat →
        e'.err = .ok ∧ e'.ctx.position = e.ctx.position + e.arg1.toNat ∧
        ∀ j, j < e.arg1.toNat → Untouched raced (e.arg0.toNat + j) →
          Memory.read t.mem (e.arg0.toNat + j) = e.ctx.keystream (e.ctx.position + j)) ∧
      (∀ r c, i = .init r c → e.arg1 = 32 →
        (e.arg3 = 8 ∨ e.arg3 ∈ ([12, 24] : List Word) ∧ (if c then e.arg4.toNat else 0) < 2 ^ 32) →
        s.Accessible [.read] e.arg0.toNat 32 → s.Accessible [.read] e.arg2.toNat e.arg3.toNat →
        e'.err = .ok ∧ e'.ctx.cstate = .ready ∧ e'.ctx.kind = .cipher ∧ e'.ctx.rnd = r ∧
        (e'.ctx.cw64 = true ↔ e.arg3 = 8) ∧ e'.ctx.ctr = (if c then e.arg4 else 0) ∧ e'.ctx.ofs = 0 ∧ e'.ctx.bufv = false ∧
        (e.arg3 ≠ 24 → ∀ j : Fin 32, Unwritten raced (e.arg0.toNat + j.val) →
          e'.ctx.key[j] = Memory.read s.mem (e.arg0.toNat + j.val)) ∧
        (∀ j : Fin 12, e.arg3 ≠ 24 → j.val < e.arg3.toNat → Unwritten raced (e.arg2.toNat + j.val) →
          e'.ctx.nonce[j] = Memory.read s.mem (e.arg2.toNat + j.val)) ∧
        (∀ j : Fin 12, e.arg3 ≠ 24 → e.arg3.toNat ≤ j.val → e'.ctx.nonce[j] = 0) ∧
        (∀ j : Fin 12, e.arg3 = 24 → (j.val < 4 → e'.ctx.nonce[j] = 0) ∧
          (4 ≤ j.val → Unwritten raced (e.arg2.toNat + 12 + j.val) →
            e'.ctx.nonce[j] = Memory.read s.mem (e.arg2.toNat + 12 + j.val)))) ∧
      (∀ r, i = .genInit r → e.arg1 = 32 → e.arg3 ∈ ([0, 8, 12] : List Word) →
        s.Accessible [.read] e.arg0.toNat 32 → s.Accessible [.read] e.arg2.toNat e.arg3.toNat →
        e'.err = .ok ∧ e'.ctx.cstate = .ready ∧ e'.ctx.kind = .generator ∧ e'.ctx.rnd = r ∧
        (e'.ctx.cw64 = true ↔ e.arg3 ≠ 12) ∧ e'.ctx.ctr = 0 ∧ e'.ctx.ofs = 0 ∧ e'.ctx.bufv = false ∧
        (∀ j : Fin 32, Unwritten raced (e.arg0.toNat + j.val) →
          e'.ctx.key[j] = Memory.read s.mem (e.arg0.toNat + j.val)) ∧
        (∀ j : Fin 12, j.val < e.arg3.toNat → Unwritten raced (e.arg2.toNat + j.val) →
          e'.ctx.nonce[j] = Memory.read s.mem (e.arg2.toNat + j.val)) ∧
        (∀ j : Fin 12, e.arg3.toNat ≤ j.val → e'.ctx.nonce[j] = 0)) ∧
      (∀ r, i = .derive r → e.arg1 = 32 → e.arg3 = 24 → s.Accessible [.read] e.arg0.toNat 32 →
        s.Accessible [.read] e.arg2.toNat 24 → s.Accessible [.write] e.arg5.toNat 44 →
        e'.err = .ok ∧ e'.ctx = e.ctx ∧
        (∀ j, 32 ≤ j → j < 36 → Untouched raced (e.arg5.toNat + j) → Memory.read t.mem (e.arg5.toNat + j) = 0) ∧
        (∀ j, 36 ≤ j → j < 44 → Untouched raced (e.arg5.toNat + j) → Unwritten raced (e.arg2.toNat + 16 + (j - 36)) →
          Memory.read t.mem (e.arg5.toNat + j) = Memory.read s.mem (e.arg2.toNat + 16 + (j - 36)))) ∧
      (∀ r, i = .blocks r → e.arg1 = 32 →
        (e.arg3 = 8 ∧ e.arg4.toNat + e.arg6.toNat ≤ 2 ^ 64 ∨
          e.arg3 = 12 ∧ e.arg4.toNat < 2 ^ 32 ∧ e.arg4.toNat + e.arg6.toNat ≤ 2 ^ 32) →
        s.Accessible [.read] e.arg0.toNat 32 → s.Accessible [.read] e.arg2.toNat e.arg3.toNat →
        s.Accessible [.write] e.arg5.toNat (64 * e.arg6.toNat) → e'.err = .ok ∧ e'.ctx = e.ctx)

/-- A host agent's write of a byte of host memory, outside the windows, is stored, and no other byte and no engine state
changes (10_state.md R30, R55); the next read of that byte gives the value written, where nothing in flight has a range
there. The commands in flight in whose ranges the byte lies have been raced with there, and only those (20_memory.md R85).
That host agents act byte by byte, without HostAdmit, is the model's choice (log 16). A byte of a register window is not
host memory, and the access is refused by name (10_state.md R37; log 8). -/
def Obligations.HostByteWrites : Prop :=
  ∀ (s : State) (agent : Nat) (addr : Word) (v : Byte), s.Performs (.memWrite agent addr v) →
    (s.inWindow addr.toNat = false →
      ∃ (m : Memory) (p : List Flight), step s = .next { s with pc := s.pc + 1, mem := m, pending := p } ∧
        Memory.read m addr.toNat = v ∧ (∀ x, x ≠ addr.toNat → Memory.read m x = Memory.read s.mem x) ∧
        MetBy s.pending p [(.write, addr.toNat, 1)] ∧ (s.Quiet [(.write, addr.toNat, 1)] → p = s.pending)) ∧
    (s.inWindow addr.toNat = true → step s = .refused .registerAccess)

/-- A host agent's read of a byte of host memory gives that byte and changes nothing but that it is observed, where it
races with no command in flight. A read that races with one goes on too: some value is observed (no clause says which:
"any racing read may return any value", 20_memory.md R85; log 10), and the commands in flight have been raced with there. A
byte of a register window is not host memory, and the access is refused by name (10_state.md R37, R55; log 8, log 16). -/
def Obligations.HostByteReads : Prop :=
  ∀ (s : State) (agent : Nat) (addr : Word), s.Performs (.memRead agent addr) →
    (s.inWindow addr.toNat = false → s.Quiet [(.read, addr.toNat, 1)] → step s = .next { s with
      pc := s.pc + 1, observed := s.observed ++ [.byte agent addr (Memory.read s.mem addr.toNat)] }) ∧
    (s.inWindow addr.toNat = false → ¬s.Quiet [(.read, addr.toNat, 1)] →
      ∃ (v : Byte) (p : List Flight) (n : Nat), step s = .next { s with
        pc := s.pc + 1, observed := s.observed ++ [.byte agent addr v], pending := p, freeCount := n } ∧
        MetBy s.pending p [(.read, addr.toNat, 1)]) ∧
    (s.inWindow addr.toNat = true → step s = .refused .registerAccess)

/-- 70_reset_and_hazards.md R310: power-on reset, from every state: every context UNINIT with all fields zero, every ARG,
RES and STATUS register 0, BSEL_VALID = 0; host memory is not reset. A command in flight is cut off; that its output bytes
and the bytes raced for may then hold any value is the model's choice (log 17), and no clause speaks of them. -/
def Obligations.PowerOnResetClears : Prop :=
  ∀ s : State, s.hostOps[s.pc]? = some .powerOnReset →
    ∃ t, step s = .next t ∧ t.engines.length = s.engines.length ∧ t.bselValid = false ∧ t.pending = [] ∧
      (s.pending = [] → t.mem = s.mem) ∧
      (∀ x, (∀ f ∈ s.pending, Untouched f.raced x ∧ ∀ a n, (.write, a, n) ∈ f.ranges → ¬InRange a n x) →
        Memory.read t.mem x = Memory.read s.mem x) ∧
      ∀ e ∈ t.engines,
        e.arg0 = 0 ∧ e.arg1 = 0 ∧ e.arg2 = 0 ∧ e.arg3 = 0 ∧ e.arg4 = 0 ∧ e.arg5 = 0 ∧ e.arg6 = 0 ∧
        e.res0 = 0 ∧ e.res1 = 0 ∧ e.status = 0 ∧ e.ctx.cstate = .uninit ∧ e.ctx.kind = .cipher ∧ e.ctx.rnd = .r8 ∧
        e.ctx.cw64 = false ∧ (∀ i : Fin 32, e.ctx.key[i] = 0) ∧ (∀ i : Fin 12, e.ctx.nonce[i] = 0) ∧ e.ctx.ctr = 0 ∧
        e.ctx.ofs = 0 ∧ e.ctx.bufv = false ∧ (∀ i : Fin 64, e.ctx.buf[i] = 0)

/-- 10_state.md R56: the machine after power-on, for every choice of the parameters and every number of instances: what
the host can read is 0, every context holds its reset values, and the selector is unresolved. The parameter values of
`State.reset` are the model's choice (log 2). -/
def Obligations.ResetStateIsZero : Prop :=
  (∀ (p : Params) (ninst : Nat),
    (State.powerOn p ninst).engines.length = ninst ∧ (State.powerOn p ninst).bselValid = false ∧
    (State.powerOn p ninst).params = p ∧ (State.powerOn p ninst).pending = [] ∧
    ∀ e ∈ (State.powerOn p ninst).engines, e.status = 0 ∧ e.ctx = Context.zero ∧
      ∀ off, e.readRegister (registerAt off) = 0) ∧
  State.reset = State.powerOn Params.default 1

/-! ### STATUS -/

/-- 10_state.md R38: every field of STATUS. The CURSOR field is R41's reading of OFS and BUFV, which the spec marks as
derived, and is stated for the values that R48 allows. -/
def Obligations.StatusFields : Prop :=
  ∀ e : Engine,
    e.status.extractLsb' 0 2 = (match e.ctx.cstate with | .uninit => 0#2 | .ready => 1#2 | .fault => 2#2) ∧
    (e.ctx.cstate = .uninit → e.status.extractLsb' 2 6 = 0#6) ∧
    (e.ctx.cstate ≠ .uninit →
      (e.ctx.bufv = false ∧ e.ctx.ofs.toNat ≤ 63 → e.status.extractLsb' 2 2 = 0#2) ∧
      (e.ctx.bufv = true ∧ 1 ≤ e.ctx.ofs.toNat ∧ e.ctx.ofs.toNat ≤ 63 → e.status.extractLsb' 2 2 = 1#2) ∧
      (e.ctx.bufv = true ∧ e.ctx.ofs.toNat = 64 → e.status.extractLsb' 2 2 = 2#2) ∧
      e.status.extractLsb' 4 1 = (match e.ctx.kind with | .cipher => 0#1 | .generator => 1#1) ∧
      e.status.extractLsb' 5 1 = (if e.ctx.cw64 then 1#1 else 0#1) ∧
      e.status.extractLsb' 6 2 = (match e.ctx.rnd with | .r8 => 0#2 | .r12 => 1#2 | .r20 => 2#2)) ∧
    e.status.extractLsb' 8 4 = (match e.err with
      | .ok => 0#4 | .illegalCommand => 1#4 | .invalidKeyLength => 2#4 | .invalidNonceLength => 3#4
      | .counterOverflow => 4#4 | .seekOutOfRange => 5#4 | .notInitialized => 6#4 | .faulted => 7#4
      | .wrongKind => 8#4 | .busFault => 9#4) ∧
    e.status.extractLsb' 12 52 = 0#52

/-! ### What the commands do -/

/-- 42_cursor.md R203: the six commands that need a READY context, and the error each raises on another context, with
nothing but STATUS.ERR changed. -/
def Obligations.RequireReadyErrors : Prop :=
  ∀ (s : State) (e : Engine) (i : Instr) (k : Kind), s.engine? = some e →
    (i, k) ∈ ([(.apply, .cipher), (.seek, .cipher), (.tell, .cipher), (.fill, .generator), (.setWpos, .generator),
      (.getWpos, .generator)] : List (Instr × Kind)) →
    (e.ctx.cstate = .uninit → exec i s = .next (s.putEngine { e with err := .notInitialized })) ∧
    (e.ctx.cstate = .fault → exec i s = .next (s.putEngine { e with err := .faulted })) ∧
    (e.ctx.cstate = .ready → e.ctx.kind ≠ k → exec i s = .next (s.putEngine { e with err := .wrongKind }))

/-- ZEROIZE in every context state: every context field takes its reset value, STATUS reads 0, and nothing else changes
(42_cursor.md R202, R204). -/
def Obligations.ZeroizeErases : Prop :=
  ∀ (s : State) (e : Engine), s.engine? = some e →
    exec .zeroize s = .next (s.putEngine { e with
      err := .ok
      ctx := ⟨.uninit, .cipher, .r8, false, Vector.replicate 32 0, Vector.replicate 12 0, 0, 0, false, Vector.replicate 64 0⟩ }) ∧
    Engine.status { e with ctx := Context.zero, err := .ok } = 0

/-- TELL puts the 128-bit position CTR·64 + OFS into RES1:RES0 and changes nothing else (42_cursor.md R200). -/
def Obligations.TellReportsPosition : Prop :=
  ∀ (s : State) (e : Engine), s.engine? = some e → e.ctx.Ready .cipher →
    exec .tell s = .next (s.putEngine { e with
      res0 := BitVec.ofNat 64 (e.ctx.ctr.toNat * 64 + e.ctx.ofs.toNat)
      res1 := BitVec.ofNat 64 ((e.ctx.ctr.toNat * 64 + e.ctx.ofs.toNat) / 2 ^ 64)
      err := .ok })

/-- GET_WPOS puts the word position (CTR·64 + OFS) div 4 into RES1:RES0 and changes nothing else (44_generator.md R257). -/
def Obligations.GetWposReportsWords : Prop :=
  ∀ (s : State) (e : Engine), s.engine? = some e → e.ctx.Ready .generator →
    exec .getWpos s = .next (s.putEngine { e with
      res0 := BitVec.ofNat 64 ((e.ctx.ctr.toNat * 64 + e.ctx.ofs.toNat) / 4)
      res1 := BitVec.ofNat 64 ((e.ctx.ctr.toNat * 64 + e.ctx.ofs.toNat) / 4 / 2 ^ 64)
      err := .ok })

/-- SEEK to p = ARG1·2^64 + ARG0: CTR, OFS and BUFV for a p in range, and SeekOutOfRange with nothing else changed for
one out of range (42_cursor.md R198). -/
def Obligations.SeekMovesCursor : Prop :=
  ∀ (s : State) (e : Engine), s.engine? = some e → e.ctx.Ready .cipher →
    ((e.arg1.toNat * 2 ^ 64 + e.arg0.toNat) / 64 ≤ maxCtr e.ctx.cw64 →
      exec .seek s = .next (s.putEngine { e with
        ctx := { e.ctx with
          ctr := BitVec.ofNat 64 ((e.arg1.toNat * 2 ^ 64 + e.arg0.toNat) / 64)
          ofs := BitVec.ofNat 7 ((e.arg1.toNat * 2 ^ 64 + e.arg0.toNat) % 64)
          bufv := false }
        err := .ok })) ∧
    (maxCtr e.ctx.cw64 < (e.arg1.toNat * 2 ^ 64 + e.arg0.toNat) / 64 →
      exec .seek s = .next (s.putEngine { e with err := .seekOutOfRange }))

/-- SET_WPOS to word n = ARG1·2^64 + ARG0 is a move to byte 4n, rejected iff n div 16 exceeds MAXCTR(CW)
(44_generator.md R255, R256). -/
def Obligations.SetWposMovesCursor : Prop :=
  ∀ (s : State) (e : Engine), s.engine? = some e → e.ctx.Ready .generator →
    ((e.arg1.toNat * 2 ^ 64 + e.arg0.toNat) / 16 ≤ maxCtr e.ctx.cw64 →
      exec .setWpos s = .next (s.putEngine { e with
        ctx := { e.ctx with
          ctr := BitVec.ofNat 64 ((e.arg1.toNat * 2 ^ 64 + e.arg0.toNat) / 16)
          ofs := BitVec.ofNat 7 ((e.arg1.toNat * 2 ^ 64 + e.arg0.toNat) % 16 * 4)
          bufv := false }
        err := .ok })) ∧
    (maxCtr e.ctx.cw64 < (e.arg1.toNat * 2 ^ 64 + e.arg0.toNat) / 16 →
      exec .setWpos s = .next (s.putEngine { e with err := .seekOutOfRange }))

/-- INIT with an 8-byte or a 12-byte nonce, on any context: the whole new context, and nothing else changed
(42_cursor.md R190, R191). -/
def Obligations.InitCompletes : Prop :=
  ∀ (s : State) (e : Engine) (r : Rounds) (c : Bool), s.engine? = some e → e.arg1 = 32 →
    s.Accessible [.read] e.arg0.toNat 32 → s.Accessible [.read] e.arg2.toNat e.arg3.toNat →
    (e.arg3 = 8 →
      exec (.init r c) s = .next (s.putEngine { e with
        err := .ok
        ctx := ⟨.ready, .cipher, r, true, byteVector 32 (Memory.readBytes s.mem e.arg0.toNat 32),
          byteVector 12 (Memory.readBytes s.mem e.arg2.toNat 8 ++ [0, 0, 0, 0]), if c then e.arg4 else 0, 0, false,
          Vector.replicate 64 0⟩ })) ∧
    (e.arg3 = 12 → (if c then e.arg4.toNat else 0) < 2 ^ 32 →
      exec (.init r c) s = .next (s.putEngine { e with
        err := .ok
        ctx := ⟨.ready, .cipher, r, false, byteVector 32 (Memory.readBytes s.mem e.arg0.toNat 32),
          byteVector 12 (Memory.readBytes s.mem e.arg2.toNat 12), if c then e.arg4 else 0, 0, false,
          Vector.replicate 64 0⟩ }))

/-- INIT with a 24-byte nonce: the subkey of the first 16 nonce bytes becomes KEY, and four zero bytes and the last 8
become NONCE; the selector has resolved, nothing else changed (42_cursor.md R190, R191; 43_subkey.md R230–R232; 41_backends.md
R165, R166). That the selector resolves here is the model's choice within R166 (log 12). That the zeros stand first is the
spec's choice from general knowledge (93_implementation_defined.md G7, log 13). -/
def Obligations.ExtendedInitCompletes : Prop :=
  ∀ (s : State) (e : Engine) (r : Rounds) (c : Bool), s.engine? = some e → e.arg1 = 32 → e.arg3 = 24 →
    (if c then e.arg4.toNat else 0) < 2 ^ 32 →
    s.Accessible [.read] e.arg0.toNat 32 → s.Accessible [.read] e.arg2.toNat 24 →
    exec (.init r c) s = .next (s.resolve.putEngine { e with
      err := .ok
      ctx := ⟨.ready, .cipher, r, false,
        hblock (byteVector 32 (Memory.readBytes s.mem e.arg0.toNat 32)) (byteVector 16 (Memory.readBytes s.mem e.arg2.toNat 16)) r,
        byteVector 12 ([0, 0, 0, 0] ++ Memory.readBytes s.mem (e.arg2.toNat + 16) 8), if c then e.arg4 else 0, 0, false,
        Vector.replicate 64 0⟩ })

/-- GEN_INIT with no stream id, an 8-byte or a 12-byte one, on any context: the whole new context, and nothing else
changed (44_generator.md R250, R251). -/
def Obligations.GenInitCompletes : Prop :=
  ∀ (s : State) (e : Engine) (r : Rounds), s.engine? = some e → e.arg1 = 32 →
    s.Accessible [.read] e.arg0.toNat 32 → s.Accessible [.read] e.arg2.toNat e.arg3.toNat →
    (e.arg3 = 0 →
      exec (.genInit r) s = .next (s.putEngine { e with
        err := .ok
        ctx := ⟨.ready, .generator, r, true, byteVector 32 (Memory.readBytes s.mem e.arg0.toNat 32), Vector.replicate 12 0, 0, 0,
          false, Vector.replicate 64 0⟩ })) ∧
    (e.arg3 = 8 →
      exec (.genInit r) s = .next (s.putEngine { e with
        err := .ok
        ctx := ⟨.ready, .generator, r, true, byteVector 32 (Memory.readBytes s.mem e.arg0.toNat 32),
          byteVector 12 (Memory.readBytes s.mem e.arg2.toNat 8 ++ [0, 0, 0, 0]), 0, 0, false, Vector.replicate 64 0⟩ })) ∧
    (e.arg3 = 12 →
      exec (.genInit r) s = .next (s.putEngine { e with
        err := .ok
        ctx := ⟨.ready, .generator, r, false, byteVector 32 (Memory.readBytes s.mem e.arg0.toNat 32),
          byteVector 12 (Memory.readBytes s.mem e.arg2.toNat 12), 0, 0, false, Vector.replicate 64 0⟩ }))

/-- APPLY of L bytes within the keystream, on an accessible buffer: every buffer byte becomes its old value XOR the
keystream byte of its position, no other byte changes, the position moves by L, the cursor holds the block of the last
byte (BUFFERED, or EXHAUSTED_PENDING at a block boundary) and with L = 0 stays as it is, and of the rest of the state only
STATUS.ERR and the selector change (42_cursor.md R194). The keystream by position is 10_state.md R50, which the spec marks as
derived from R49 and R194. -/
def Obligations.ApplyXorsKeystream : Prop :=
  ∀ (s : State) (e : Engine), s.engine? = some e → e.ctx.Ready .cipher → e.ctx.Inv →
    e.ctx.position + e.arg1.toNat ≤ endPos e.ctx.cw64 → s.Accessible [.read, .write] e.arg0.toNat e.arg1.toNat →
    ∃ (m : Memory) (ctr : Word) (ofs : BitVec 7) (bufv : Bool) (buf : Block) (valid : Bool) (sel : Option Backend),
      exec .apply s = .next (State.putEngine { s with mem := m, bselValid := valid, bsel := sel }
        { e with err := .ok, ctx := { e.ctx with ctr := ctr, ofs := ofs, bufv := bufv, buf := buf } }) ∧
      ctr.toNat * 64 + ofs.toNat = e.ctx.position + e.arg1.toNat ∧
      (e.arg1 = 0 → ctr = e.ctx.ctr ∧ ofs = e.ctx.ofs ∧ bufv = e.ctx.bufv ∧ buf = e.ctx.buf) ∧
      (e.arg1 ≠ 0 → bufv = true ∧ 1 ≤ ofs.toNat ∧ ofs.toNat ≤ 64 ∧ buf = block e.ctx.key e.ctx.nv ctr e.ctx.rnd) ∧
      (∀ i, i < e.arg1.toNat →
        Memory.read m (e.arg0.toNat + i) = Memory.read s.mem (e.arg0.toNat + i) ^^^ e.ctx.keystream (e.ctx.position + i)) ∧
      (∀ x, ¬InRange e.arg0.toNat e.arg1.toNat x → Memory.read m x = Memory.read s.mem x)

/-- FILL of L bytes within the keystream, on a writable buffer: every buffer byte becomes the keystream byte of its
position, no other byte changes, the position moves by L, the cursor holds the block of the last byte (BUFFERED, or
EXHAUSTED_PENDING at a block boundary) and with L = 0 stays as it is, and of the rest of the state only STATUS.ERR and the
selector change (44_generator.md R253; the keystream by position is 10_state.md R50, derived there). -/
def Obligations.FillWritesKeystream : Prop :=
  ∀ (s : State) (e : Engine), s.engine? = some e → e.ctx.Ready .generator → e.ctx.Inv →
    e.ctx.position + e.arg1.toNat ≤ endPos e.ctx.cw64 → s.Accessible [.write] e.arg0.toNat e.arg1.toNat →
    ∃ (m : Memory) (ctr : Word) (ofs : BitVec 7) (bufv : Bool) (buf : Block) (valid : Bool) (sel : Option Backend),
      exec .fill s = .next (State.putEngine { s with mem := m, bselValid := valid, bsel := sel }
        { e with err := .ok, ctx := { e.ctx with ctr := ctr, ofs := ofs, bufv := bufv, buf := buf } }) ∧
      ctr.toNat * 64 + ofs.toNat = e.ctx.position + e.arg1.toNat ∧
      (e.arg1 = 0 → ctr = e.ctx.ctr ∧ ofs = e.ctx.ofs ∧ bufv = e.ctx.bufv ∧ buf = e.ctx.buf) ∧
      (e.arg1 ≠ 0 → bufv = true ∧ 1 ≤ ofs.toNat ∧ ofs.toNat ≤ 64 ∧ buf = block e.ctx.key e.ctx.nv ctr e.ctx.rnd) ∧
      (∀ i, i < e.arg1.toNat → Memory.read m (e.arg0.toNat + i) = e.ctx.keystream (e.ctx.position + i)) ∧
      (∀ x, ¬InRange e.arg0.toNat e.arg1.toNat x → Memory.read m x = Memory.read s.mem x)

/-- APPLY and FILL of 0 bytes succeed and change nothing but STATUS.ERR, even at the end of the keystream
(42_cursor.md R194; 44_generator.md R253). -/
def Obligations.EmptyRequestsChangeNothing : Prop :=
  ∀ (s : State) (e : Engine) (i : Instr) (k : Kind), s.engine? = some e →
    (i, k) ∈ ([(.apply, .cipher), (.fill, .generator)] : List (Instr × Kind)) → e.ctx.Ready k → e.arg1 = 0 →
    e.ctx.position ≤ endPos e.ctx.cw64 →
    exec i s = .next (s.putEngine { e with err := .ok })

/-- A request past the end of the keystream: CounterOverflow, CSTATE becomes FAULT, and no byte and no cursor field
changes (42_cursor.md R194, R195; 44_generator.md R253, R259). -/
def Obligations.RequestsPastTheEndFault : Prop :=
  ∀ (s : State) (e : Engine) (i : Instr) (k : Kind), s.engine? = some e →
    (i, k) ∈ ([(.apply, .cipher), (.fill, .generator)] : List (Instr × Kind)) → e.ctx.Ready k →
    endPos e.ctx.cw64 < e.ctx.position + e.arg1.toNat →
    exec i s = .next (s.putEngine { e with ctx := { e.ctx with cstate := .fault }, err := .counterOverflow })

/-- DERIVE on accessible ranges, in every context state: 44 bytes at ARG5, the subkey and then the subnonce, computed
from the inputs as they were before; no other byte changes, and of the rest of the state only STATUS.ERR and the
selector, which has resolved (43_subkey.md R230, R233; 20_memory.md R78; 41_backends.md R165, R166). That the selector
resolves here is the model's choice within R166 (log 12). That the subnonce begins with the four zeros is R231's choice from
general knowledge (log 13). -/
def Obligations.DeriveCompletes : Prop :=
  ∀ (s : State) (e : Engine) (r : Rounds), s.engine? = some e → e.arg1 = 32 → e.arg3 = 24 →
    s.Accessible [.read] e.arg0.toNat 32 → s.Accessible [.read] e.arg2.toNat 24 → s.Accessible [.write] e.arg5.toNat 44 →
    ∃ m : Memory, exec (.derive r) s = .next (State.putEngine { s.resolve with mem := m } { e with err := .ok }) ∧
      (∀ i : Fin 32, Memory.read m (e.arg5.toNat + i.val) =
        (hblock (byteVector 32 (Memory.readBytes s.mem e.arg0.toNat 32))
          (byteVector 16 (Memory.readBytes s.mem e.arg2.toNat 16)) r)[i]) ∧
      (∀ i, 32 ≤ i → i < 36 → Memory.read m (e.arg5.toNat + i) = 0) ∧
      (∀ i, 36 ≤ i → i < 44 → Memory.read m (e.arg5.toNat + i) = Memory.read s.mem (e.arg2.toNat + 16 + (i - 36))) ∧
      (∀ x, ¬InRange e.arg5.toNat 44 x → Memory.read m x = Memory.read s.mem x)

/-- BLOCKS of n blocks from counter c within the counter's range, on accessible ranges, in every context state: byte i of
the output is byte i mod 64 of Block(K, N, c + i div 64, R); no other byte changes, and of the rest of the state only
STATUS.ERR and the selector. A request of no block writes nothing (41_backends.md R170). -/
def Obligations.BlocksCompletes : Prop :=
  ∀ (s : State) (e : Engine) (r : Rounds) (nonce : Nonce) (wide : Bool), s.engine? = some e → e.arg1 = 32 →
    (e.arg3 = 8 ∧ wide = true ∧ nonce = .short (byteVector 8 (Memory.readBytes s.mem e.arg2.toNat 8)) ∨
      e.arg3 = 12 ∧ wide = false ∧ nonce = .standard (byteVector 12 (Memory.readBytes s.mem e.arg2.toNat 12))) →
    e.arg4.toNat ≤ maxCtr wide → e.arg4.toNat + e.arg6.toNat ≤ maxCtr wide + 1 →
    s.Accessible [.read] e.arg0.toNat 32 → s.Accessible [.read] e.arg2.toNat e.arg3.toNat →
    s.Accessible [.write] e.arg5.toNat (64 * e.arg6.toNat) →
    ∃ (m : Memory) (valid : Bool) (sel : Option Backend),
      exec (.blocks r) s = .next (State.putEngine { s with mem := m, bselValid := valid, bsel := sel } { e with err := .ok }) ∧
      (∀ i, i < 64 * e.arg6.toNat → Memory.read m (e.arg5.toNat + i) =
        (block (byteVector 32 (Memory.readBytes s.mem e.arg0.toNat 32)) nonce (e.arg4 + BitVec.ofNat 64 (i / 64)) r)[i % 64]'(Nat.mod_lt _ (by decide))) ∧
      (∀ x, ¬InRange e.arg5.toNat (64 * e.arg6.toNat) x → Memory.read m x = Memory.read s.mem x)

/-! ### Errors -/

/-- The operand checks of INIT, GEN_INIT, DERIVE and BLOCKS in their order: the key or seed length, then the nonce or
stream-id length, then the counter; each failure writes its code, and INIT and GEN_INIT leave the context zeroized
(60_exceptions.md R280, R286; 42_cursor.md R190; 44_generator.md R250; 43_subkey.md R233; 41_backends.md R170). -/
def Obligations.OperandChecksInOrder : Prop :=
  ∀ (s : State) (e : Engine) (r : Rounds) (c : Bool), s.engine? = some e →
    (e.arg1 ≠ 32 →
      exec (.init r c) s = .next (s.putEngine { e with ctx := Context.zero, err := .invalidKeyLength }) ∧
      exec (.genInit r) s = .next (s.putEngine { e with ctx := Context.zero, err := .invalidKeyLength }) ∧
      exec (.derive r) s = .next (s.putEngine { e with err := .invalidKeyLength }) ∧
      exec (.blocks r) s = .next (s.putEngine { e with err := .invalidKeyLength })) ∧
    (e.arg1 = 32 →
      (e.arg3 ∉ ([8, 12, 24] : List Word) →
        exec (.init r c) s = .next (s.putEngine { e with ctx := Context.zero, err := .invalidNonceLength })) ∧
      (e.arg3 ∉ ([0, 8, 12] : List Word) →
        exec (.genInit r) s = .next (s.putEngine { e with ctx := Context.zero, err := .invalidNonceLength })) ∧
      (e.arg3 ≠ 24 → exec (.derive r) s = .next (s.putEngine { e with err := .invalidNonceLength })) ∧
      (e.arg3 ∉ ([8, 12] : List Word) → exec (.blocks r) s = .next (s.putEngine { e with err := .invalidNonceLength })) ∧
      (e.arg3 ∈ ([12, 24] : List Word) → 2 ^ 32 ≤ e.arg4.toNat →
        exec (.init r true) s = .next (s.putEngine { e with ctx := Context.zero, err := .seekOutOfRange })))

/-- BLOCKS whose start counter, or whose last counter, exceeds MAXCTR(CW): CounterOverflow, nothing else changes and no
byte is written (41_backends.md R170). The sum is taken in ℕ. -/
def Obligations.BlocksCounterOverflow : Prop :=
  ∀ (s : State) (e : Engine) (r : Rounds) (wide : Bool), s.engine? = some e → e.arg1 = 32 →
    (e.arg3 = 8 ∧ wide = true ∨ e.arg3 = 12 ∧ wide = false) →
    (maxCtr wide < e.arg4.toNat ∨ (0 < e.arg6.toNat ∧ maxCtr wide < e.arg4.toNat + e.arg6.toNat - 1)) →
    exec (.blocks r) s = .next (s.putEngine { e with err := .counterOverflow })

/-- What the range check finds, byte by byte: past 2^64 first (20_memory.md R76), then a byte of a register window (R81;
the order of these two and admission is the model's, log 7), then the first byte that is not admitted (R77); a range of
no byte is never checked. -/
def Obligations.RangeChecksByByte : Prop :=
  ∀ (s : State) (kinds : List AccessKind) (a n : Nat),
    (s.checkRange kinds a n = .wraps ↔ n ≠ 0 ∧ 2 ^ 64 < a + n) ∧
    (s.checkRange kinds a n = .ownWindow ↔ n ≠ 0 ∧ a + n ≤ 2 ^ 64 ∧ ∃ x, InRange a n x ∧ s.inWindow x = true) ∧
    (∀ x, s.checkRange kinds a n = .denied x ↔ n ≠ 0 ∧ a + n ≤ 2 ^ 64 ∧ (∀ y, InRange a n y → s.inWindow y = false) ∧
      InRange a n x ∧ (∃ k ∈ kinds, Params.hostAdmit s.params x k = false) ∧
      ∀ y, a ≤ y → y < x → ∀ k ∈ kinds, Params.hostAdmit s.params y k = true) ∧
    (s.Accessible kinds a n ↔ n = 0 ∨ (a + n ≤ 2 ^ 64 ∧ ∀ y, InRange a n y →
      s.inWindow y = false ∧ ∀ k ∈ kinds, Params.hostAdmit s.params y k = true))

/-- BusFault on the key or seed, and on the nonce or stream id after a readable key: the code, RES0 = the address and
RES1 = 0; INIT and GEN_INIT stay zeroized and UNINIT, DERIVE and BLOCKS leave the context; memory is unchanged
(60_exceptions.md R283, R284 a and c, R286). A BLOCKS of no block reads its inputs too (41_backends.md R170). -/
def Obligations.InputBusFaults : Prop :=
  ∀ (s : State) (e : Engine) (r : Rounds) (c : Bool) (x : Nat), s.engine? = some e → e.arg1 = 32 →
    (s.AccessFaults [.read] e.arg0.toNat 32 x ∨
      s.Accessible [.read] e.arg0.toNat 32 ∧ s.AccessFaults [.read] e.arg2.toNat e.arg3.toNat x) →
    (e.arg3 = 8 ∨ e.arg3 ∈ ([12, 24] : List Word) ∧ (if c then e.arg4.toNat else 0) < 2 ^ 32 →
      exec (.init r c) s = .next (s.putEngine { e with
        ctx := Context.zero, res0 := BitVec.ofNat 64 x, res1 := 0, err := .busFault })) ∧
    (e.arg3 ∈ ([0, 8, 12] : List Word) → exec (.genInit r) s = .next (s.putEngine { e with
      ctx := Context.zero, res0 := BitVec.ofNat 64 x, res1 := 0, err := .busFault })) ∧
    (e.arg3 = 24 → exec (.derive r) s = .next (s.putEngine { e with
      res0 := BitVec.ofNat 64 x, res1 := 0, err := .busFault })) ∧
    (e.arg3 = 8 ∧ e.arg4.toNat + e.arg6.toNat ≤ 2 ^ 64 ∨
      e.arg3 = 12 ∧ e.arg4.toNat < 2 ^ 32 ∧ e.arg4.toNat + e.arg6.toNat ≤ 2 ^ 32 →
      exec (.blocks r) s = .next (s.putEngine { e with res0 := BitVec.ofNat 64 x, res1 := 0, err := .busFault }))

/-- BusFault of APPLY or FILL: CSTATE becomes FAULT, the address is recorded, key, nonce, kind, width and round count
stay; CTR, OFS, BUFV and BUF are whatever they are (no clause speaks of them); every byte of the buffer holds its old
value or the value the command would have written, every byte outside it its old value, and all of them their old values
when it was the range check that failed (60_exceptions.md R283, R284 b; 20_memory.md R76). -/
def Obligations.StreamBusFaults : Prop :=
  ∀ (s : State) (e : Engine) (i : Instr) (k : Kind) (kinds : List AccessKind) (x : Nat), s.engine? = some e →
    (i, k, kinds) ∈ ([(.apply, .cipher, [.read, .write]), (.fill, .generator, [.write])] : List (Instr × Kind × List AccessKind)) →
    e.ctx.Ready k → e.ctx.Inv → e.ctx.position + e.arg1.toNat ≤ endPos e.ctx.cw64 →
    s.AccessFaults kinds e.arg0.toNat e.arg1.toNat x →
    ∃ (t : State) (e' : Engine), exec i s = .next t ∧ t.engine? = some e' ∧
      e'.err = .busFault ∧ e'.res0 = BitVec.ofNat 64 x ∧ e'.res1 = 0 ∧ e'.ctx.cstate = .fault ∧
      e'.ctx.key = e.ctx.key ∧ e'.ctx.nonce = e.ctx.nonce ∧ e'.ctx.kind = e.ctx.kind ∧ e'.ctx.cw64 = e.ctx.cw64 ∧
      e'.ctx.rnd = e.ctx.rnd ∧
      (∀ y, ¬InRange e.arg0.toNat e.arg1.toNat y → Memory.read t.mem y = Memory.read s.mem y) ∧
      (∀ j, j < e.arg1.toNat → Memory.read t.mem (e.arg0.toNat + j) = Memory.read s.mem (e.arg0.toNat + j) ∨
        Memory.read t.mem (e.arg0.toNat + j) =
          (if i = .apply then Memory.read s.mem (e.arg0.toNat + j) else 0) ^^^ e.ctx.keystream (e.ctx.position + j)) ∧
      (2 ^ 64 < e.arg0.toNat + e.arg1.toNat → t.mem = s.mem)

/-- BusFault on the output of DERIVE or BLOCKS: the address is recorded, the context is unchanged, bytes outside the
output range are unchanged, and every byte inside it holds its old value or the value the command would have written
there, which is what it writes when every byte is admitted (60_exceptions.md R283, R284 c; 43_subkey.md R233;
41_backends.md R170). The last clause names that value by the same command run with nothing denied. -/
def Obligations.OutputBusFaults : Prop :=
  ∀ (s : State) (e : Engine) (r : Rounds) (i : Instr) (n x : Nat), s.engine? = some e → e.arg1 = 32 →
    (i = .derive r ∧ e.arg3 = 24 ∧ n = 44 ∨
      i = .blocks r ∧ e.arg3 = 12 ∧ e.arg4.toNat + e.arg6.toNat ≤ 2 ^ 32 ∧ n = 64 * e.arg6.toNat ∨
      i = .blocks r ∧ e.arg3 = 8 ∧ e.arg4.toNat + e.arg6.toNat ≤ 2 ^ 64 ∧ n = 64 * e.arg6.toNat) →
    s.Accessible [.read] e.arg0.toNat 32 → s.Accessible [.read] e.arg2.toNat e.arg3.toNat →
    s.AccessFaults [.write] e.arg5.toNat n x →
    ∃ t, exec i s = .next t ∧
      t.engine? = some { e with res0 := BitVec.ofNat 64 x, res1 := 0, err := .busFault } ∧
      (∀ y, ¬InRange e.arg5.toNat n y → Memory.read t.mem y = Memory.read s.mem y) ∧
      (e.arg5.toNat + n ≤ 2 ^ 64 →
        ∃ u, exec i { s with params := { s.params with hostDenied := [] } } = .next u ∧
          ∀ y, Memory.read t.mem y = Memory.read s.mem y ∨ Memory.read t.mem y = Memory.read u.mem y) ∧
      (2 ^ 64 < e.arg5.toNat + n → t.mem = s.mem)

/-- A command that comes to a range which covers a byte of a register window is refused by name (20_memory.md R81; log
7): the buffer of APPLY and FILL; the key or seed of INIT, GEN_INIT, DERIVE and BLOCKS; after an accessible key or seed
their nonce or stream id; after accessible inputs the output of DERIVE and BLOCKS. -/
def Obligations.OwnWindowRefused : Prop :=
  ∀ (s : State) (e : Engine) (r : Rounds) (c : Bool) (x : Nat), s.engine? = some e → s.inWindow x = true →
    (e.ctx.Ready .cipher → e.ctx.position + e.arg1.toNat ≤ endPos e.ctx.cw64 → e.arg0.toNat + e.arg1.toNat ≤ 2 ^ 64 →
      InRange e.arg0.toNat e.arg1.toNat x → exec .apply s = .refused .ownWindow) ∧
    (e.ctx.Ready .generator → e.ctx.position + e.arg1.toNat ≤ endPos e.ctx.cw64 → e.arg0.toNat + e.arg1.toNat ≤ 2 ^ 64 →
      InRange e.arg0.toNat e.arg1.toNat x → exec .fill s = .refused .ownWindow) ∧
    (e.arg1 = 32 →
      (e.arg0.toNat + 32 ≤ 2 ^ 64 ∧ InRange e.arg0.toNat 32 x ∨
        s.Accessible [.read] e.arg0.toNat 32 ∧ e.arg2.toNat + e.arg3.toNat ≤ 2 ^ 64 ∧ InRange e.arg2.toNat e.arg3.toNat x) →
      (e.arg3 = 8 ∨ e.arg3 ∈ ([12, 24] : List Word) ∧ (if c then e.arg4.toNat else 0) < 2 ^ 32 →
        exec (.init r c) s = .refused .ownWindow) ∧
      (e.arg3 ∈ ([0, 8, 12] : List Word) → exec (.genInit r) s = .refused .ownWindow) ∧
      (e.arg3 = 24 → exec (.derive r) s = .refused .ownWindow) ∧
      (e.arg3 = 8 ∧ e.arg4.toNat + e.arg6.toNat ≤ 2 ^ 64 ∨
        e.arg3 = 12 ∧ e.arg4.toNat < 2 ^ 32 ∧ e.arg4.toNat + e.arg6.toNat ≤ 2 ^ 32 →
        exec (.blocks r) s = .refused .ownWindow)) ∧
    (e.arg1 = 32 → s.Accessible [.read] e.arg0.toNat 32 → s.Accessible [.read] e.arg2.toNat e.arg3.toNat →
      (e.arg3 = 24 → e.arg5.toNat + 44 ≤ 2 ^ 64 → InRange e.arg5.toNat 44 x → exec (.derive r) s = .refused .ownWindow) ∧
      (e.arg3 = 8 ∧ e.arg4.toNat + e.arg6.toNat ≤ 2 ^ 64 ∨
        e.arg3 = 12 ∧ e.arg4.toNat < 2 ^ 32 ∧ e.arg4.toNat + e.arg6.toNat ≤ 2 ^ 32 →
        e.arg5.toNat + 64 * e.arg6.toNat ≤ 2 ^ 64 → InRange e.arg5.toNat (64 * e.arg6.toNat) x →
        exec (.blocks r) s = .refused .ownWindow))

/-- A failed INIT or GEN_INIT leaves the context zeroized and UNINIT on every path, and host memory unchanged
(42_cursor.md R192; 60_exceptions.md R284 a). -/
def Obligations.FailedConstructionZeroizes : Prop :=
  ∀ (s t : State) (e' : Engine) (r : Rounds) (c : Bool), (exec (.init r c) s = .next t ∨ exec (.genInit r) s = .next t) →
    t.engine? = some e' → t.mem = s.mem ∧ (e'.err ≠ .ok → e'.ctx = Context.zero)

/-! ### Laws between commands -/

/-- TELL after a successful SEEK(p) returns p: 42_cursor.md R201, which the spec marks as derived from R198 and R200. -/
def Obligations.TellAfterSeek : Prop :=
  ∀ (s : State) (e : Engine), s.engine? = some e → e.ctx.Ready .cipher →
    (e.arg1.toNat * 2 ^ 64 + e.arg0.toNat) / 64 ≤ maxCtr e.ctx.cw64 →
    ∃ (t u : State) (e' : Engine), exec .seek s = .next t ∧ exec .tell t = .next u ∧ u.engine? = some e' ∧
      e'.err = .ok ∧ e'.res1.toNat * 2 ^ 64 + e'.res0.toNat = e.arg1.toNat * 2 ^ 64 + e.arg0.toNat

/-- SET_WPOS to the value GET_WPOS gave restores the position when it is a multiple of 4, and otherwise moves back by
P mod 4 bytes (44_generator.md R258, which the spec marks as derived from R255 and R257). It is stated for a position
before END, since SET_WPOS rejects END itself (R255). -/
def Obligations.WordPositionResumes : Prop :=
  ∀ (s : State) (e : Engine), s.engine? = some e → e.ctx.Ready .generator → e.ctx.Inv →
    e.ctx.position < endPos e.ctx.cw64 →
    ∃ (t u : State) (e₁ e₂ : Engine), exec .getWpos s = .next t ∧ t.engine? = some e₁ ∧
      exec .setWpos (t.putEngine { e₁ with arg0 := e₁.res0, arg1 := e₁.res1 }) = .next u ∧ u.engine? = some e₂ ∧
      e₂.err = .ok ∧ e₂.ctx.position = e.ctx.position - e.ctx.position % 4 ∧ e₂.ctx.keystream = e.ctx.keystream

/-- APPLY of L1 bytes at A and then of L2 bytes at A + L1 leaves the same memory and the same context as one APPLY of
L1 + L2 bytes at A (42_cursor.md R196 b, a law the spec marks as derived from R194). -/
def Obligations.ApplyChunking : Prop :=
  ∀ (s : State) (e : Engine) (l₁ l₂ : Word), s.engine? = some e → e.ctx.Ready .cipher → e.ctx.Inv →
    e.arg1.toNat = l₁.toNat + l₂.toNat → e.ctx.position + e.arg1.toNat ≤ endPos e.ctx.cw64 →
    s.Accessible [.read, .write] e.arg0.toNat e.arg1.toNat →
    ∃ (t t₁ t₂ : State) (f f₁ f₂ : Engine), exec .apply s = .next t ∧ t.engine? = some f ∧
      exec .apply (s.putEngine { e with arg1 := l₁ }) = .next t₁ ∧ t₁.engine? = some f₁ ∧
      exec .apply (t₁.putEngine { f₁ with arg0 := e.arg0 + l₁, arg1 := l₂ }) = .next t₂ ∧ t₂.engine? = some f₂ ∧
      t₂.mem = t.mem ∧ f₂.ctx = f.ctx

/-- APPLY, SEEK back to the start position, APPLY again: every byte of memory is back and the position is the same
(42_cursor.md R196 a, a law the spec marks as derived from R194 and R198). The start must be a position SEEK accepts. -/
def Obligations.ApplyRoundTrip : Prop :=
  ∀ (s : State) (e : Engine), s.engine? = some e → e.ctx.Ready .cipher → e.ctx.Inv →
    e.ctx.position < endPos e.ctx.cw64 → e.ctx.position + e.arg1.toNat ≤ endPos e.ctx.cw64 →
    s.Accessible [.read, .write] e.arg0.toNat e.arg1.toNat →
    ∃ (t₁ t₂ t₃ : State) (e₁ e₂ e₃ : Engine), exec .apply s = .next t₁ ∧ t₁.engine? = some e₁ ∧
      exec .seek (t₁.putEngine { e₁ with
        arg0 := BitVec.ofNat 64 e.ctx.position, arg1 := BitVec.ofNat 64 (e.ctx.position / 2 ^ 64) }) = .next t₂ ∧
      t₂.engine? = some e₂ ∧
      exec .apply (t₂.putEngine { e₂ with arg0 := e.arg0, arg1 := e.arg1 }) = .next t₃ ∧ t₃.engine? = some e₃ ∧
      (∀ x, Memory.read t₃.mem x = Memory.read s.mem x) ∧ e₃.ctx.position = e.ctx.position + e.arg1.toNat

/-- SEEK(p) and then APPLY of L bytes XORs keystream bytes [p, p+L) into the buffer, whatever was consumed before
(42_cursor.md R199, marked there as derived from R194 and R198). The keystream is the one the context had before the SEEK. -/
def Obligations.SeekConsistency : Prop :=
  ∀ (s : State) (e : Engine) (a l : Word), s.engine? = some e → e.ctx.Ready .cipher → e.ctx.Inv →
    (e.arg1.toNat * 2 ^ 64 + e.arg0.toNat) / 64 ≤ maxCtr e.ctx.cw64 →
    e.arg1.toNat * 2 ^ 64 + e.arg0.toNat + l.toNat ≤ endPos e.ctx.cw64 → s.Accessible [.read, .write] a.toNat l.toNat →
    ∃ (t u : State) (e₁ : Engine), exec .seek s = .next t ∧ t.engine? = some e₁ ∧ t.mem = s.mem ∧
      exec .apply (t.putEngine { e₁ with arg0 := a, arg1 := l }) = .next u ∧
      ∀ i, i < l.toNat → Memory.read u.mem (a.toNat + i) =
        Memory.read s.mem (a.toNat + i) ^^^ e.ctx.keystream (e.arg1.toNat * 2 ^ 64 + e.arg0.toNat + i)

/-- INIT with C = 1 and ARG4 = c0 leaves the context, the outcome, the result registers, the selector and the memory that
INIT with C = 0 and then SEEK to 64·c0 leave, for every nonce form: 42_cursor.md R193, which the spec marks as derived
from R190 and R198. -/
def Obligations.InitCounterIsInitThenSeek : Prop :=
  ∀ (s : State) (e : Engine) (r : Rounds), s.engine? = some e → e.arg1 = 32 →
    (e.arg3 = 8 ∨ (e.arg3 ∈ ([12, 24] : List Word) ∧ e.arg4.toNat < 2 ^ 32)) →
    s.Accessible [.read] e.arg0.toNat 32 → s.Accessible [.read] e.arg2.toNat e.arg3.toNat →
    ∃ (t u v : State) (f g h : Engine), exec (.init r true) s = .next t ∧ t.engine? = some f ∧
      exec (.init r false) s = .next u ∧ u.engine? = some g ∧
      exec .seek (u.putEngine { g with
        arg0 := BitVec.ofNat 64 (64 * e.arg4.toNat), arg1 := BitVec.ofNat 64 (64 * e.arg4.toNat / 2 ^ 64) }) = .next v ∧
      v.engine? = some h ∧ h.ctx = f.ctx ∧ h.err = f.err ∧ h.res0 = f.res0 ∧ h.res1 = f.res1 ∧ v.mem = t.mem ∧
      v.bselValid = t.bselValid ∧ v.bsel = t.bsel

/-- INIT with a 24-byte nonce leaves the context that DERIVE, and then INIT with the 12-byte nonce on the derived subkey and
subnonce, leave; so the keystreams are the same: 43_subkey.md R234, which the spec marks as derived from R190, R230 and
R233. -/
def Obligations.ExtendedInitIsDerivedInit : Prop :=
  ∀ (s : State) (e : Engine) (r : Rounds), s.engine? = some e → e.arg1 = 32 → e.arg3 = 24 →
    s.Accessible [.read] e.arg0.toNat 32 → s.Accessible [.read] e.arg2.toNat 24 →
    s.Accessible [.read, .write] e.arg5.toNat 44 →
    ∃ (t d u : State) (f g h : Engine), exec (.init r false) s = .next t ∧ t.engine? = some f ∧
      exec (.derive r) s = .next d ∧ d.engine? = some g ∧
      exec (.init r false) (d.putEngine { g with arg0 := e.arg5, arg2 := e.arg5 + 32, arg3 := 12 }) = .next u ∧
      u.engine? = some h ∧ h.ctx = f.ctx ∧ h.ctx.keystream = f.ctx.keystream

/-- FILL of L bytes writes exactly what APPLY from the same position would make of an all-zero buffer of L bytes, and leaves
the same cursor state but for KIND: 44_generator.md R254, which the spec marks as derived from R253 and R194. -/
def Obligations.FillIsApplyOnZeros : Prop :=
  ∀ (s s' : State) (e : Engine), s.engine? = some e → e.ctx.Ready .generator → e.ctx.Inv →
    s'.engine? = some { e with ctx := { e.ctx with kind := .cipher } } →
    (∀ x, InRange e.arg0.toNat e.arg1.toNat x → Memory.read s'.mem x = 0) →
    e.ctx.position + e.arg1.toNat ≤ endPos e.ctx.cw64 →
    s.Accessible [.write] e.arg0.toNat e.arg1.toNat → s'.Accessible [.read, .write] e.arg0.toNat e.arg1.toNat →
    ∃ (t u : State) (f g : Engine), exec .fill s = .next t ∧ t.engine? = some f ∧
      exec .apply s' = .next u ∧ u.engine? = some g ∧ g.ctx = { f.ctx with kind := .cipher } ∧
      ∀ i, i < e.arg1.toNat → Memory.read t.mem (e.arg0.toNat + i) = Memory.read u.mem (e.arg0.toNat + i)

/-! ### The block core and the backends -/

/-- 41_backends.md R160, R163: every backend's `produce_blocks` gives the n blocks Block(K, N, c + j, R), whatever its
batch size, a partial last batch included. -/
def Obligations.BackendsAgree : Prop :=
  ∀ (p : Params) (b : Backend) (key : Vector Byte 32) (nonce : Nonce) (c : Word) (r : Rounds) (n : Nat),
    (Params.produceBlocks p b key nonce c r n).length = n ∧
    ∀ j, j < n → (Params.produceBlocks p b key nonce c r n)[j]? = some (block key nonce (c + BitVec.ofNat 64 j) r)

/-- Two states that differ only in the backends' parameters and the selector's fields step to outcomes that differ only
there: the chosen backend is not observable (41_backends.md R163, from which the spec derives R169; 00_scope.md R12;
10_state.md R54). -/
def Obligations.BackendChoiceUnobservable : Prop :=
  ∀ s s' : State, s.forgetBackend = s'.forgetBackend → forgetBackend (step s) = forgetBackend (step s')

/-- Quarter-rounds on disjoint words commute, so the order of the four column, or of the four diagonal, quarter-rounds
does not change the result (40_block_core.md R135, where the spec marks it as derived from R134). -/
def Obligations.DisjointQuarterRoundsCommute : Prop :=
  ∀ (a b c d a' b' c' d' : Fin 16) (m : Matrix), (∀ x ∈ [a, b, c, d], x ∉ [a', b', c', d']) →
    quarterRound a b c d (quarterRound a' b' c' d' m) = quarterRound a' b' c' d' (quarterRound a b c d m)

/-- In the 64-bit counter form words 13 and 12 hold the whole counter, high word first, so that a carry goes from x[12]
into x[13]; in the 32-bit form x[12] is the counter's low word and x[13] does not depend on the counter (40_block_core.md R143, derived from R132 and R133). The word
positions are the spec's choice from general knowledge (93_implementation_defined.md G2, G3, log 13). -/
def Obligations.CounterWords : Prop :=
  (∀ (key : Vector Byte 32) (n : Vector Byte 8) (c : Word),
    (inputMatrix key (.short n) c)[13].toNat * 2 ^ 32 + (inputMatrix key (.short n) c)[12].toNat = c.toNat ∧
    (c.toNat % 2 ^ 32 = 2 ^ 32 - 1 → c.toNat + 1 < 2 ^ 64 →
      (inputMatrix key (.short n) (c + 1))[12] = 0 ∧
      (inputMatrix key (.short n) (c + 1))[13] = (inputMatrix key (.short n) c)[13] + 1)) ∧
  (∀ (key : Vector Byte 32) (n : Vector Byte 12) (c c' : Word),
    (inputMatrix key (.standard n) c)[12] = c.extractLsb' 0 32 ∧
    (inputMatrix key (.standard n) c)[13] = (inputMatrix key (.standard n) c')[13])

/-! ### Rules of the whole machine -/

/-- The invariant holds at power-on for every choice of the parameters, and so at reset. -/
def Obligations.PowerOnMeetsInvariant : Prop :=
  (∀ (p : Params) (ninst : Nat), (State.powerOn p ninst).Inv) ∧ State.reset.Inv

/-- Every step keeps the invariant: 10_state.md R48 (marked there as derived) and R49 for every READY context, reset
values for every UNINIT one, the selector's agreement with its parameters, memory's canonical form, and that the commands in
flight belong to instances there are, at most one for an instance and for an agent (20_memory.md R72, R84). -/
def Obligations.StepKeepsInvariant : Prop :=
  ∀ s t : State, s.Inv → step s = .next t → t.Inv

/-- A resolved selector stays as it is under every step but a power-on reset (41_backends.md R165;
70_reset_and_hazards.md R313). -/
def Obligations.SelectorResolvesOnce : Prop :=
  ∀ s t : State, s.bselValid = true → s.hostOps[s.pc]? ≠ some .powerOnReset → step s = .next t →
    t.bselValid = true ∧ t.bsel = s.bsel

/-- No command but INIT, GEN_INIT and ZEROIZE changes the key, the nonce, the kind, the counter width or the round count
of a context, or anything at all of a FAULT context (10_state.md R40, R42, R45, R46; 60_exceptions.md R290;
44_generator.md R252). -/
def Obligations.OnlyConstructionChangesInstance : Prop :=
  ∀ (s t : State) (e e' : Engine) (i : Instr), s.engine? = some e → exec i s = .next t → t.engine? = some e' →
    (∀ r c, i ≠ .init r c) → (∀ r, i ≠ .genInit r) → i ≠ .zeroize →
    e'.ctx.key = e.ctx.key ∧ e'.ctx.nonce = e.ctx.nonce ∧ e'.ctx.kind = e.ctx.kind ∧ e'.ctx.cw64 = e.ctx.cw64 ∧
    e'.ctx.rnd = e.ctx.rnd ∧ (e.ctx.cstate = .fault → e'.ctx = e.ctx) ∧
    ((∃ r, i = .derive r) ∨ (∃ r, i = .blocks r) → e'.ctx = e.ctx)

/-- What no command changes: the parameters, the host's list, index and observations, the commands in flight, the other
instances, and the
active instance's ARG registers (10_state.md R33; 20_memory.md R84; 60_exceptions.md R295). -/
def Obligations.CommandFrame : Prop :=
  ∀ (s t : State) (i : Instr), exec i s = .next t →
    t.params = s.params ∧ t.hostOps = s.hostOps ∧ t.pc = s.pc ∧ t.observed = s.observed ∧ t.active = s.active ∧
    t.pending = s.pending ∧ t.engines.length = s.engines.length ∧ (∀ k, k ≠ s.active → t.engines[k]? = s.engines[k]?) ∧
    ∃ e e', s.engine? = some e ∧ t.engine? = some e' ∧
      e'.arg0 = e.arg0 ∧ e'.arg1 = e.arg1 ∧ e'.arg2 = e.arg2 ∧ e'.arg3 = e.arg3 ∧ e'.arg4 = e.arg4 ∧ e'.arg5 = e.arg5 ∧
      e'.arg6 = e.arg6

/-- RES0 and RES1 are written by a successful TELL, a successful GET_WPOS and a BusFault only (10_state.md R34). -/
def Obligations.ResultRegistersFrame : Prop :=
  ∀ (s t : State) (e e' : Engine) (i : Instr), s.engine? = some e → exec i s = .next t → t.engine? = some e' →
    e'.err ≠ .busFault → ¬((i = .tell ∨ i = .getWpos) ∧ e'.err = .ok) →
    e'.res0 = e.res0 ∧ e'.res1 = e.res1

/-- Every command leaves every byte of host memory outside its output range as it was, and INIT, GEN_INIT, SEEK, TELL,
ZEROIZE, SET_WPOS and GET_WPOS leave all of it, whatever the outcome (20_memory.md R75; 60_exceptions.md R284). -/
def Obligations.MemoryFrame : Prop :=
  ∀ (s t : State) (e : Engine) (i : Instr) (x : Nat), s.engine? = some e → exec i s = .next t →
    (i = .apply ∨ i = .fill → ¬InRange e.arg0.toNat e.arg1.toNat x) →
    (∀ r, i = .derive r → ¬InRange e.arg5.toNat 44 x) →
    (∀ r, i = .blocks r → ¬InRange e.arg5.toNat (64 * e.arg6.toNat) x) →
    Memory.read t.mem x = Memory.read s.mem x

/-- Every command of an instance answers a next state unless one of its ranges covers a register window; no command ends
in a fault, and no other refusal occurs (70_reset_and_hazards.md R321; 20_memory.md R81). -/
def Obligations.CommandsComplete : Prop :=
  ∀ (s : State) (e : Engine) (i : Instr), s.engine? = some e →
    (∀ kind a n x, (kind, a, n) ∈ accessRanges i e → InRange a n x → s.inWindow x = false) →
    ∃ t, exec i s = .next t
end

