-- ==== Sys2Proof/Laws/Block.lean ====
section
/-! SUPPORT. What the block core and the backends compute: lane by lane a vector backend does what the scalar rule does,
so every backend's blocks are `Block`'s (41_backends.md R162, R163). -/

namespace Sys2Proof.Machine

theorem lanesDoubleRound_eq (lanes : List Matrix) : lanesDoubleRound lanes = lanes.map doubleRound := by
  simp only [lanesDoubleRound, lanesQuarterRound, List.map_map]
  refine List.map_congr_left fun m _ => ?_
  simp only [Function.comp_apply, doubleRound, columnRound, diagonalRound]

theorem lanesPermute_eq (n : Nat) (lanes : List Matrix) : lanesPermute n lanes = lanes.map (permute n) := by
  induction n generalizing lanes with
  | zero => simp [lanesPermute, permute]
  | succ n ih => simp [lanesPermute, ih, lanesDoubleRound_eq, permute]

theorem lanesBlocks_eq (rounds : Rounds) (inputs : List Matrix) :
    lanesBlocks rounds inputs = inputs.map (blockOfMatrix rounds) := by
  rw [lanesBlocks, lanesPermute_eq]
  induction inputs with
  | nil => rfl
  | cons x xs ih => simp only [List.map_cons, List.zipWith_cons_cons, ih, blockOfMatrix]

theorem vectorBlocks_eq (rounds : Rounds) (batch fuel : Nat) (hb : 1 ≤ batch) (inputs : List Matrix) (hf : inputs.length ≤ fuel) :
    vectorBlocks rounds batch fuel inputs = inputs.map (blockOfMatrix rounds) := by
  induction fuel generalizing inputs with
  | zero => rw [List.length_eq_zero_iff.mp (by omega : inputs.length = 0)]; rfl
  | succ fuel ih =>
    rw [vectorBlocks]
    split
    · next h => rw [List.isEmpty_iff.mp h]; rfl
    · next h =>
      have : 0 < inputs.length := List.length_pos_iff.mpr fun hn => h (by simp [hn])
      rw [ih _ (by simp; omega), lanesBlocks_eq, ← List.map_append, List.take_append_drop]

/-- Every backend's `produce_block` is `Block` (41_backends.md R163). -/
theorem Params.produceBlock_eq (p : Params) (b : Backend) (key : Vector Byte 32) (nonce : Nonce) (c : Word) (rounds : Rounds) :
    Params.produceBlock p b key nonce c rounds = block key nonce c rounds := by
  have hb : 1 ≤ Params.batchOf p b := by cases b <;> simp [Params.batchOf]
  have h1 : ∀ l, l = [blockOfMatrix rounds (inputMatrix key nonce c)] →
      List.headD l (Vector.replicate 64 0) = block key nonce c rounds := by
    rintro l rfl; rfl
  apply h1
  unfold Params.produceBlocks
  cases b <;> simp [vectorBlocks_eq rounds _ 1 hb]

/-- What a context's lazily generated block is, whatever the backend (42_cursor.md R206). -/
@[simp] theorem State.generate_eq (s : State) : s.generate = fun c => block c.key c.nv c.ctr c.rnd := by
  funext c
  exact Params.produceBlock_eq ..

@[simp] theorem byteVector_getElem (n : Nat) (bytes : List Byte) (i : Nat) (h : i < n) :
    (byteVector n bytes)[i] = bytes.getD i 0 := by
  simp [byteVector]

/-- A sequence of the right length is its own fixed-length form. -/
theorem byteVector_toList {n : Nat} (v : Vector Byte n) : byteVector n v.toList = v := by
  ext i h
  simp [h]

theorem toList_byteVector {n : Nat} {bytes : List Byte} (h : bytes.length = n) : (byteVector n bytes).toList = bytes := by
  apply List.ext_getElem
  · simp [h]
  · intro i h1 h2
    simp [h2]

/-- Every backend's `produce_blocks`, as a list of `Block` (41_backends.md R160, R163). -/
theorem Params.produceBlocks_eq (p : Params) (b : Backend) (key : Vector Byte 32) (nonce : Nonce) (c : Word) (rounds : Rounds)
    (n : Nat) : Params.produceBlocks p b key nonce c rounds n = (List.range n).map fun j => block key nonce (c + BitVec.ofNat 64 j) rounds := by
  have hb : 1 ≤ Params.batchOf p b := by cases b <;> simp [Params.batchOf]
  unfold Params.produceBlocks
  cases b <;> simp [vectorBlocks_eq rounds _ n hb] <;> exact fun _ _ => rfl

theorem flatMap_toList_length (l : List Block) : (l.flatMap Vector.toList).length = 64 * l.length := by
  induction l with
  | nil => rfl
  | cons x xs ih => simp [ih]; omega

/-- Byte i of consecutive blocks is byte i mod 64 of block i div 64 (10_state.md R50). -/
theorem flatMap_toList_getElem (l : List Block) (i : Nat) (h : i < (l.flatMap Vector.toList).length) :
    (l.flatMap Vector.toList)[i] =
      (l[i / 64]'(by rw [flatMap_toList_length] at h; omega))[i % 64]'(Nat.mod_lt _ (by decide)) := by
  induction l generalizing i with
  | nil => simp at h
  | cons x xs ih =>
    simp only [List.flatMap_cons]
    by_cases hi : i < 64
    · rw [List.getElem_append_left (by simpa using hi)]
      simp [Nat.div_eq_of_lt hi, Nat.mod_eq_of_lt hi]
    · rw [List.getElem_append_right (by simpa using hi), ih]
      obtain ⟨j, rfl⟩ : ∃ j, i = j + 64 := ⟨i - 64, by omega⟩
      simp

theorem State.blocksOutput_length (s : State) (e : Engine) (rounds : Rounds) (key : List Byte) (nonce : Nonce) :
    (s.blocksOutput e rounds key nonce).length = 64 * e.arg6.toNat := by
  rw [State.blocksOutput, flatMap_toList_length, Params.produceBlocks_eq]
  simp

end Sys2Proof.Machine
end

