-- ==== Sys2Proof/Laws/Memory.lean ====
section
/-! SUPPORT. What the memory operations do: a read after a write, everything outside what is written, and that every
operation keeps the canonical form. -/

namespace Sys2Proof.Machine

@[simp] theorem Memory.read_nil (a : Nat) : Memory.read [] a = 0 := rfl

theorem Memory.read_cons (cell : Host.Cell) (m : Memory) (a : Nat) :
    Memory.read (cell :: m) a = if cell.1 = a then cell.2 else Memory.read m a := by
  by_cases h : cell.1 = a <;> simp [Memory.read, h]

theorem Memory.read_erase_same (m : Memory) (a : Nat) : Memory.read (Memory.erase m a) a = 0 := by
  induction m with
  | nil => rfl
  | cons cell m ih =>
    by_cases h : cell.1 = a
    · simpa [Memory.erase, h] using ih
    · simp only [Memory.erase, bne_iff_ne, ne_eq, h, not_false_eq_true, List.filter_cons_of_pos, Memory.read_cons, if_false]
      exact ih

theorem Memory.read_erase_other (m : Memory) {a x : Nat} (h : x ≠ a) : Memory.read (Memory.erase m a) x = Memory.read m x := by
  induction m with
  | nil => rfl
  | cons cell m ih =>
    by_cases hc : cell.1 = a
    · have : cell.1 ≠ x := fun e => h (e ▸ hc)
      simpa [Memory.erase, hc, Memory.read_cons, Ne.symm h] using ih
    · simp only [Memory.erase, bne_iff_ne, ne_eq, hc, not_false_eq_true, List.filter_cons_of_pos, Memory.read_cons]
      split
      · rfl
      · exact ih

theorem Memory.read_insert_same (a : Nat) (v : Byte) (m : Memory) (h : ∀ cell ∈ m, cell.1 ≠ a) :
    Memory.read (Memory.insert a v m) a = v := by
  induction m with
  | nil => simp [Memory.insert, Memory.read_cons]
  | cons cell m ih =>
    simp only [Memory.insert]
    split
    · rw [Memory.read_cons, if_neg (h cell (by simp))]
      exact ih fun c hc => h c (by simp [hc])
    · simp [Memory.read_cons]

theorem Memory.read_insert_other (a : Nat) (v : Byte) (m : Memory) {x : Nat} (h : x ≠ a) :
    Memory.read (Memory.insert a v m) x = Memory.read m x := by
  induction m with
  | nil => simp [Memory.insert, Memory.read_cons, Ne.symm h]
  | cons cell m ih =>
    simp only [Memory.insert]
    split
    · simp only [Memory.read_cons, ih]
    · simp [Memory.read_cons, Ne.symm h]

theorem Memory.mem_erase_ne (m : Memory) (a : Nat) : ∀ cell ∈ Memory.erase m a, cell.1 ≠ a := by
  intro cell h
  simpa [Memory.erase] using (List.mem_filter.mp h).2

/-- A read of the byte just written. -/
@[simp] theorem Memory.read_write_same (m : Memory) (a : Nat) (v : Byte) : Memory.read (Memory.write m a v) a = v := by
  unfold Memory.write
  split
  · next h => rw [Memory.read_erase_same, h]
  · exact Memory.read_insert_same _ _ _ (Memory.mem_erase_ne m a)

/-- A write leaves every other byte alone. -/
theorem Memory.read_write_other (m : Memory) {a x : Nat} (v : Byte) (h : x ≠ a) :
    Memory.read (Memory.write m a v) x = Memory.read m x := by
  unfold Memory.write
  split
  · exact Memory.read_erase_other m h
  · rw [Memory.read_insert_other _ _ _ h, Memory.read_erase_other m h]

/-! ### Byte sequences -/

@[simp] theorem Memory.readBytes_length (m : Memory) (a n : Nat) : (Memory.readBytes m a n).length = n := by
  simp [Memory.readBytes]

theorem Memory.readBytes_getElem (m : Memory) (a n : Nat) {i : Nat} (h : i < (Memory.readBytes m a n).length) :
    (Memory.readBytes m a n)[i] = Memory.read m (a + i) := by
  simp [Memory.readBytes]

/-- Bytes outside the written range read as before. -/
theorem Memory.read_writeBytes_outside (bytes : List Byte) (m : Memory) (a : Nat) {x : Nat}
    (h : ¬(a ≤ x ∧ x < a + bytes.length)) : Memory.read (Memory.writeBytes m a bytes) x = Memory.read m x := by
  induction bytes generalizing m a with
  | nil => rfl
  | cons v vs ih =>
    simp only [List.length_cons] at h
    rw [Memory.writeBytes, ih _ _ (by omega), Memory.read_write_other _ _ (by omega)]

/-- Byte i of the written range holds byte i of the sequence. -/
theorem Memory.read_writeBytes_inside (bytes : List Byte) (m : Memory) (a : Nat) {i : Nat} (h : i < bytes.length) :
    Memory.read (Memory.writeBytes m a bytes) (a + i) = bytes[i] := by
  induction bytes generalizing m a i with
  | nil => simp at h
  | cons v vs ih =>
    cases i with
    | zero => rw [Memory.writeBytes, Memory.read_writeBytes_outside _ _ _ (by omega)]; simp
    | succ i =>
      rw [Memory.writeBytes, show a + (i + 1) = a + 1 + i by omega, ih _ _ (by simpa using h)]
      rfl

theorem Memory.writeBytes_append (xs ys : List Byte) (m : Memory) (a : Nat) :
    Memory.writeBytes m a (xs ++ ys) = Memory.writeBytes (Memory.writeBytes m a xs) (a + xs.length) ys := by
  induction xs generalizing m a with
  | nil => rfl
  | cons x xs ih => simp only [List.cons_append, Memory.writeBytes, ih, List.length_cons]; congr 1; omega

/-- After a partial write, bytes outside the range read as before. -/
theorem Memory.read_writeSome_outside (landed : Nat → Bool) (bytes : List Byte) (m : Memory) (a : Nat) {x : Nat}
    (h : ¬(a ≤ x ∧ x < a + bytes.length)) : Memory.read (Memory.writeSome landed m a bytes) x = Memory.read m x := by
  induction bytes generalizing m a with
  | nil => rfl
  | cons v vs ih =>
    simp only [List.length_cons] at h
    rw [Memory.writeSome, ih _ _ (by omega)]
    split
    · exact Memory.read_write_other _ _ (by omega)
    · rfl

/-- After a partial write, byte i of the range holds byte i of the sequence if it landed, and its old value if not. -/
theorem Memory.read_writeSome_inside (landed : Nat → Bool) (bytes : List Byte) (m : Memory) (a : Nat) {i : Nat}
    (h : i < bytes.length) :
    Memory.read (Memory.writeSome landed m a bytes) (a + i) = if landed (a + i) then bytes[i] else Memory.read m (a + i) := by
  induction bytes generalizing m a i with
  | nil => simp at h
  | cons v vs ih =>
    cases i with
    | zero =>
      rw [Memory.writeSome, Memory.read_writeSome_outside _ _ _ _ (by omega)]
      cases landed a <;> simp
    | succ i =>
      rw [Memory.writeSome, show a + (i + 1) = a + 1 + i by omega, ih _ _ (by simpa using h), List.getElem_cons_succ]
      split
      · rfl
      · split
        · exact Memory.read_write_other _ _ (by omega)
        · rfl

/-- The first k of n bytes read. -/
theorem Memory.readBytes_take (m : Memory) (a n k : Nat) (h : k ≤ n) : (Memory.readBytes m a n).take k = Memory.readBytes m a k := by
  apply List.ext_getElem
  · simp [h]
  · intro i h1 h2; simp [Memory.readBytes_getElem]

/-- The bytes read after the first k. -/
theorem Memory.readBytes_drop (m : Memory) (a n k : Nat) : (Memory.readBytes m a n).drop k = Memory.readBytes m (a + k) (n - k) := by
  apply List.ext_getElem
  · simp
  · intro i h1 h2; simp [Memory.readBytes_getElem, Nat.add_assoc]

/-- A read of n + k bytes is one of n and one of k. -/
theorem Memory.readBytes_append (m : Memory) (a n k : Nat) :
    Memory.readBytes m a (n + k) = Memory.readBytes m a n ++ Memory.readBytes m (a + n) k := by
  rw [← List.take_append_drop n (Memory.readBytes m a (n + k)), Memory.readBytes_take _ _ _ _ (by omega), Memory.readBytes_drop,
    Nat.add_sub_cancel_left]

/-! ### The canonical form -/

theorem Memory.wf_cons (cell : Host.Cell) (m : Memory) :
    Memory.wf (cell :: m) = true ↔ cell.1 < 2 ^ 64 ∧ cell.2 ≠ 0 ∧ (∀ later ∈ m, cell.1 < later.1) ∧ Memory.wf m = true := by
  simp only [Memory.wf, Bool.and_eq_true, decide_eq_true_eq, bne_iff_ne, List.all_eq_true, and_assoc]

theorem Memory.wf_erase (m : Memory) (a : Nat) (h : Memory.wf m = true) : Memory.wf (Memory.erase m a) = true := by
  induction m with
  | nil => rfl
  | cons cell m ih =>
    rw [Memory.wf_cons] at h
    by_cases hc : cell.1 = a
    · simpa [Memory.erase, hc] using ih h.2.2.2
    · have : Memory.erase (cell :: m) a = cell :: Memory.erase m a := by simp [Memory.erase, hc]
      rw [this, Memory.wf_cons]
      exact ⟨h.1, h.2.1, fun c hcm => h.2.2.1 c (List.mem_filter.mp hcm).1, ih h.2.2.2⟩

theorem Memory.mem_insert {a : Nat} {v : Byte} {m : Memory} {c : Host.Cell} (h : c ∈ Memory.insert a v m) : c = (a, v) ∨ c ∈ m := by
  induction m with
  | nil => simpa [Memory.insert] using h
  | cons cell m ih =>
    simp only [Memory.insert] at h
    split at h
    · rcases List.mem_cons.mp h with rfl | h
      · simp
      · rcases ih h with rfl | h <;> simp [*]
    · simpa using h

theorem Memory.wf_insert (a : Nat) (v : Byte) (m : Memory) (ha : a < 2 ^ 64) (hv : v ≠ 0) (hn : ∀ cell ∈ m, cell.1 ≠ a)
    (h : Memory.wf m = true) : Memory.wf (Memory.insert a v m) = true := by
  induction m with
  | nil => exact (Memory.wf_cons _ _).mpr ⟨ha, hv, by simp, rfl⟩
  | cons cell m ih =>
    have hc := (Memory.wf_cons cell m).mp h
    simp only [Memory.insert]
    split
    · next hlt =>
      rw [Memory.wf_cons]
      refine ⟨hc.1, hc.2.1, fun c hcm => ?_, ih (fun c hcm => hn c (by simp [hcm])) hc.2.2.2⟩
      rcases Memory.mem_insert hcm with rfl | hcm
      · exact hlt
      · exact hc.2.2.1 c hcm
    · next hlt =>
      rw [Memory.wf_cons]
      have hne := hn cell (by simp)
      refine ⟨ha, hv, fun c hcm => ?_, h⟩
      rcases List.mem_cons.mp hcm with rfl | hcm
      · show a < c.1; omega
      · have := hc.2.2.1 c hcm
        show a < c.1; omega

/-- A write below 2^64 keeps the canonical form. -/
theorem Memory.wf_write (m : Memory) (a : Nat) (v : Byte) (ha : a < 2 ^ 64) (h : Memory.wf m = true) :
    Memory.wf (Memory.write m a v) = true := by
  unfold Memory.write
  split
  · exact Memory.wf_erase m a h
  · next hv => exact Memory.wf_insert a v _ ha hv (Memory.mem_erase_ne m a) (Memory.wf_erase m a h)

/-- A sequence of writes below 2^64 keeps the canonical form. -/
theorem Memory.wf_writeBytes (bytes : List Byte) (m : Memory) (a : Nat) (ha : a + bytes.length ≤ 2 ^ 64)
    (h : Memory.wf m = true) : Memory.wf (Memory.writeBytes m a bytes) = true := by
  induction bytes generalizing m a with
  | nil => exact h
  | cons v vs ih =>
    simp only [List.length_cons] at ha
    exact ih _ _ (by omega) (Memory.wf_write m a v (by omega) h)

/-- A partial write below 2^64 keeps the canonical form. -/
theorem Memory.wf_writeSome (landed : Nat → Bool) (bytes : List Byte) (m : Memory) (a : Nat) (ha : a + bytes.length ≤ 2 ^ 64)
    (h : Memory.wf m = true) : Memory.wf (Memory.writeSome landed m a bytes) = true := by
  induction bytes generalizing m a with
  | nil => exact h
  | cons v vs ih =>
    simp only [List.length_cons] at ha
    refine ih _ _ (by omega) ?_
    split
    · exact Memory.wf_write m a v (by omega) h
    · exact h

end Sys2Proof.Machine
end

