-- ==== Sys2Proof/Laws/State.lean ====
section
/-! SUPPORT. One lemma per field per update of the state's records, true by rfl, so that no proof unfolds an update. -/

namespace Sys2Proof.Machine

/-! ### `putEngine` -/

@[simp] theorem State.putEngine_params (s : State) (e : Engine) : (s.putEngine e).params = s.params := rfl
@[simp] theorem State.putEngine_engines (s : State) (e : Engine) : (s.putEngine e).engines = s.engines.set s.active e := rfl
@[simp] theorem State.putEngine_bselValid (s : State) (e : Engine) : (s.putEngine e).bselValid = s.bselValid := rfl
@[simp] theorem State.putEngine_bsel (s : State) (e : Engine) : (s.putEngine e).bsel = s.bsel := rfl
@[simp] theorem State.putEngine_mem (s : State) (e : Engine) : (s.putEngine e).mem = s.mem := rfl
@[simp] theorem State.putEngine_pending (s : State) (e : Engine) : (s.putEngine e).pending = s.pending := rfl
@[simp] theorem State.putEngine_hostOps (s : State) (e : Engine) : (s.putEngine e).hostOps = s.hostOps := rfl
@[simp] theorem State.putEngine_pc (s : State) (e : Engine) : (s.putEngine e).pc = s.pc := rfl
@[simp] theorem State.putEngine_observed (s : State) (e : Engine) : (s.putEngine e).observed = s.observed := rfl
@[simp] theorem State.putEngine_active (s : State) (e : Engine) : (s.putEngine e).active = s.active := rfl
@[simp] theorem State.putEngine_freeCount (s : State) (e : Engine) : (s.putEngine e).freeCount = s.freeCount := rfl

/-- What `putEngine` puts is what `engine?` finds. -/
theorem State.putEngine_engine? {s : State} {e₀ : Engine} (h : s.engine? = some e₀) (e : Engine) :
    (s.putEngine e).engine? = some e := by
  obtain ⟨hlt, -⟩ := List.getElem?_eq_some_iff.mp h
  simp [State.engine?, hlt]

/-- No other instance changes. -/
theorem State.putEngine_other (s : State) (e : Engine) {k : Nat} (h : k ≠ s.active) :
    (s.putEngine e).engines[k]? = s.engines[k]? := by
  simp [Ne.symm h]

@[simp] theorem State.putEngine_putEngine (s : State) (e e' : Engine) : (s.putEngine e).putEngine e' = s.putEngine e' := by
  simp [State.putEngine]

/-! ### `resolve` -/

@[simp] theorem State.resolve_params (s : State) : s.resolve.params = s.params := by unfold State.resolve; split <;> rfl
@[simp] theorem State.resolve_engines (s : State) : s.resolve.engines = s.engines := by unfold State.resolve; split <;> rfl
@[simp] theorem State.resolve_mem (s : State) : s.resolve.mem = s.mem := by unfold State.resolve; split <;> rfl
@[simp] theorem State.resolve_pending (s : State) : s.resolve.pending = s.pending := by unfold State.resolve; split <;> rfl
@[simp] theorem State.resolve_hostOps (s : State) : s.resolve.hostOps = s.hostOps := by unfold State.resolve; split <;> rfl
@[simp] theorem State.resolve_pc (s : State) : s.resolve.pc = s.pc := by unfold State.resolve; split <;> rfl
@[simp] theorem State.resolve_observed (s : State) : s.resolve.observed = s.observed := by unfold State.resolve; split <;> rfl
@[simp] theorem State.resolve_active (s : State) : s.resolve.active = s.active := by unfold State.resolve; split <;> rfl
@[simp] theorem State.resolve_freeCount (s : State) : s.resolve.freeCount = s.freeCount := by unfold State.resolve; split <;> rfl
@[simp] theorem State.resolve_engine? (s : State) : s.resolve.engine? = s.engine? := by simp [State.engine?]
@[simp] theorem State.resolve_bselValid (s : State) : s.resolve.bselValid = true := by
  unfold State.resolve; split <;> simp [*]

/-- A selector that has resolved stays as it is (41_backends.md R165). -/
theorem State.resolve_of_valid {s : State} (h : s.bselValid = true) : s.resolve = s := by simp [State.resolve, h]

@[simp] theorem State.resolve_resolve (s : State) : s.resolve.resolve = s.resolve := State.resolve_of_valid (by simp)

@[simp] theorem State.putEngine_resolve (s : State) (e : Engine) : (s.putEngine e).resolve = s.resolve.putEngine e := by
  unfold State.resolve; split <;> simp_all [State.putEngine]

/-! ### A changed memory or draw count -/

@[simp] theorem State.engine?_withMem (s : State) (m : Memory) : State.engine? { s with mem := m } = s.engine? := rfl
@[simp] theorem State.engine?_withMemDraw (s : State) (m : Memory) (n : Nat) :
    State.engine? { s with mem := m, freeCount := n } = s.engine? := rfl

/-! ### Commands in flight -/

@[simp] theorem State.meet_params (s : State) (rs : List AccessRange) : (s.meet rs).params = s.params := rfl
@[simp] theorem State.meet_engines (s : State) (rs : List AccessRange) : (s.meet rs).engines = s.engines := rfl
@[simp] theorem State.meet_bselValid (s : State) (rs : List AccessRange) : (s.meet rs).bselValid = s.bselValid := rfl
@[simp] theorem State.meet_bsel (s : State) (rs : List AccessRange) : (s.meet rs).bsel = s.bsel := rfl
@[simp] theorem State.meet_mem (s : State) (rs : List AccessRange) : (s.meet rs).mem = s.mem := rfl
@[simp] theorem State.meet_pending (s : State) (rs : List AccessRange) : (s.meet rs).pending = s.pending.map (Flight.meet rs) := rfl
@[simp] theorem State.meet_hostOps (s : State) (rs : List AccessRange) : (s.meet rs).hostOps = s.hostOps := rfl
@[simp] theorem State.meet_pc (s : State) (rs : List AccessRange) : (s.meet rs).pc = s.pc := rfl
@[simp] theorem State.meet_observed (s : State) (rs : List AccessRange) : (s.meet rs).observed = s.observed := rfl
@[simp] theorem State.meet_active (s : State) (rs : List AccessRange) : (s.meet rs).active = s.active := rfl
@[simp] theorem State.meet_freeCount (s : State) (rs : List AccessRange) : (s.meet rs).freeCount = s.freeCount := rfl

@[simp] theorem State.engine?_meet (s : State) (rs : List AccessRange) : (s.meet rs).engine? = s.engine? := rfl

@[simp] theorem State.flightState_params (s : State) (f : Flight) : (s.flightState f).params = s.params := rfl
@[simp] theorem State.flightState_bselValid (s : State) (f : Flight) : (s.flightState f).bselValid = s.bselValid := rfl
@[simp] theorem State.flightState_bsel (s : State) (f : Flight) : (s.flightState f).bsel = s.bsel := rfl
@[simp] theorem State.flightState_mem (s : State) (f : Flight) : (s.flightState f).mem = s.mem := rfl
@[simp] theorem State.flightState_hostOps (s : State) (f : Flight) : (s.flightState f).hostOps = s.hostOps := rfl
@[simp] theorem State.flightState_pc (s : State) (f : Flight) : (s.flightState f).pc = s.pc := rfl
@[simp] theorem State.flightState_observed (s : State) (f : Flight) : (s.flightState f).observed = s.observed := rfl
@[simp] theorem State.flightState_active (s : State) (f : Flight) : (s.flightState f).active = f.inst := rfl
@[simp] theorem State.flightState_freeCount (s : State) (f : Flight) : (s.flightState f).freeCount = s.freeCount := rfl

@[simp] theorem State.endRace_params (s : State) (rs : List AccessRange) : (s.endRace rs).params = s.params := rfl
@[simp] theorem State.endRace_engines (s : State) (rs : List AccessRange) : (s.endRace rs).engines = s.engines := rfl
@[simp] theorem State.endRace_bselValid (s : State) (rs : List AccessRange) : (s.endRace rs).bselValid = s.bselValid := rfl
@[simp] theorem State.endRace_bsel (s : State) (rs : List AccessRange) : (s.endRace rs).bsel = s.bsel := rfl
@[simp] theorem State.endRace_mem (s : State) (rs : List AccessRange) : (s.endRace rs).mem = Memory.scramble s.freeCount rs s.mem := rfl
@[simp] theorem State.endRace_pending (s : State) (rs : List AccessRange) : (s.endRace rs).pending = s.pending := rfl
@[simp] theorem State.endRace_hostOps (s : State) (rs : List AccessRange) : (s.endRace rs).hostOps = s.hostOps := rfl
@[simp] theorem State.endRace_pc (s : State) (rs : List AccessRange) : (s.endRace rs).pc = s.pc := rfl
@[simp] theorem State.endRace_observed (s : State) (rs : List AccessRange) : (s.endRace rs).observed = s.observed := rfl
@[simp] theorem State.endRace_active (s : State) (rs : List AccessRange) : (s.endRace rs).active = s.active := rfl
@[simp] theorem State.endRace_freeCount (s : State) (rs : List AccessRange) : (s.endRace rs).freeCount = s.freeCount + 1 := rfl

@[simp] theorem Flight.meet_agent (f : Flight) (rs : List AccessRange) : (f.meet rs).agent = f.agent := rfl
@[simp] theorem Flight.meet_inst (f : Flight) (rs : List AccessRange) : (f.meet rs).inst = f.inst := rfl
@[simp] theorem Flight.meet_instr (f : Flight) (rs : List AccessRange) : (f.meet rs).instr = f.instr := rfl
@[simp] theorem Flight.meet_args (f : Flight) (rs : List AccessRange) : (f.meet rs).args = f.args := rfl
@[simp] theorem Flight.meet_raced (f : Flight) (rs : List AccessRange) : (f.meet rs).raced = f.raced ++ conflicts f.ranges rs := rfl
@[simp] theorem Flight.meet_ranges (f : Flight) (rs : List AccessRange) : (f.meet rs).ranges = f.ranges := rfl

@[simp] theorem Engine.withArgs_ctx (e : Engine) (v : Vector Word 7) : (e.withArgs v).ctx = e.ctx := rfl
@[simp] theorem Engine.withArgs_res0 (e : Engine) (v : Vector Word 7) : (e.withArgs v).res0 = e.res0 := rfl
@[simp] theorem Engine.withArgs_res1 (e : Engine) (v : Vector Word 7) : (e.withArgs v).res1 = e.res1 := rfl
@[simp] theorem Engine.withArgs_err (e : Engine) (v : Vector Word 7) : (e.withArgs v).err = e.err := rfl
@[simp] theorem Engine.withArgs_args (e : Engine) : e.withArgs e.args = e := rfl
@[simp] theorem Engine.withArgs_withArgs (e : Engine) (v w : Vector Word 7) : (e.withArgs v).withArgs w = e.withArgs w := rfl

/-- What is put into the ARG registers is what is sampled. -/
@[simp] theorem Engine.args_withArgs (e : Engine) (v : Vector Word 7) : (e.withArgs v).args = v := by
  apply Vector.ext
  intro i hi
  match i, hi with
  | 0, _ => rfl
  | 1, _ => rfl
  | 2, _ => rfl
  | 3, _ => rfl
  | 4, _ => rfl
  | 5, _ => rfl
  | 6, _ => rfl

/-- A command's ranges depend on the instance's ARG registers alone (20_memory.md R75, R86). -/
theorem accessRanges_withArgs (i : Instr) (e e' : Engine) (v : Vector Word 7) :
    accessRanges i (e.withArgs v) = accessRanges i (e'.withArgs v) := by cases i <;> rfl

/-! ### `Engine` updates -/

@[simp] theorem Engine.zeroize_ctx (e : Engine) : e.zeroize.ctx = Context.zero := rfl
@[simp] theorem Engine.zeroize_arg0 (e : Engine) : e.zeroize.arg0 = e.arg0 := rfl
@[simp] theorem Engine.zeroize_arg1 (e : Engine) : e.zeroize.arg1 = e.arg1 := rfl
@[simp] theorem Engine.zeroize_arg2 (e : Engine) : e.zeroize.arg2 = e.arg2 := rfl
@[simp] theorem Engine.zeroize_arg3 (e : Engine) : e.zeroize.arg3 = e.arg3 := rfl
@[simp] theorem Engine.zeroize_arg4 (e : Engine) : e.zeroize.arg4 = e.arg4 := rfl
@[simp] theorem Engine.zeroize_arg5 (e : Engine) : e.zeroize.arg5 = e.arg5 := rfl
@[simp] theorem Engine.zeroize_arg6 (e : Engine) : e.zeroize.arg6 = e.arg6 := rfl
@[simp] theorem Engine.zeroize_res0 (e : Engine) : e.zeroize.res0 = e.res0 := rfl
@[simp] theorem Engine.zeroize_res1 (e : Engine) : e.zeroize.res1 = e.res1 := rfl
@[simp] theorem Engine.zeroize_err (e : Engine) : e.zeroize.err = e.err := rfl

@[simp] theorem Engine.setResult_ctx (e : Engine) (v : Nat) : (e.setResult v).ctx = e.ctx := rfl
@[simp] theorem Engine.setResult_res0 (e : Engine) (v : Nat) : (e.setResult v).res0 = BitVec.ofNat 64 v := rfl
@[simp] theorem Engine.setResult_res1 (e : Engine) (v : Nat) : (e.setResult v).res1 = BitVec.ofNat 64 (v / 2 ^ 64) := rfl

@[simp] theorem Engine.setArg_ctx (e : Engine) (i : Fin 7) (v : Word) : (e.setArg i v).ctx = e.ctx := by
  unfold Engine.setArg; split <;> rfl
@[simp] theorem Engine.setArg_res0 (e : Engine) (i : Fin 7) (v : Word) : (e.setArg i v).res0 = e.res0 := by
  unfold Engine.setArg; split <;> rfl
@[simp] theorem Engine.setArg_res1 (e : Engine) (i : Fin 7) (v : Word) : (e.setArg i v).res1 = e.res1 := by
  unfold Engine.setArg; split <;> rfl
@[simp] theorem Engine.setArg_err (e : Engine) (i : Fin 7) (v : Word) : (e.setArg i v).err = e.err := by
  unfold Engine.setArg; split <;> rfl

/-- A read after a write of the same argument register (10_state.md R33). -/
theorem Engine.arg_setArg_same (e : Engine) (i : Fin 7) (v : Word) : (e.setArg i v).arg i = v := by
  fin_cases i <;> rfl

/-- A write to an argument register leaves the others alone: "none has an alias" (10_state.md R33). -/
theorem Engine.arg_setArg_other (e : Engine) {i j : Fin 7} (v : Word) (h : j ≠ i) : (e.setArg i v).arg j = e.arg j := by
  fin_cases i <;> fin_cases j <;> first | exact absurd rfl h | rfl

/-- No register write reaches the context, RES or ERR (10_state.md R34, R36). -/
@[simp] theorem Engine.writeRegister_ctx (e : Engine) (r : Register) (v : Word) : (e.writeRegister r v).ctx = e.ctx := by
  cases r <;> simp [Engine.writeRegister]
@[simp] theorem Engine.writeRegister_res0 (e : Engine) (r : Register) (v : Word) : (e.writeRegister r v).res0 = e.res0 := by
  cases r <;> simp [Engine.writeRegister]
@[simp] theorem Engine.writeRegister_res1 (e : Engine) (r : Register) (v : Word) : (e.writeRegister r v).res1 = e.res1 := by
  cases r <;> simp [Engine.writeRegister]
@[simp] theorem Engine.writeRegister_err (e : Engine) (r : Register) (v : Word) : (e.writeRegister r v).err = e.err := by
  cases r <;> simp [Engine.writeRegister]

/-! ### `Context` updates -/

@[simp] theorem Context.moveTo_cstate (c : Context) (p : Nat) : (c.moveTo p).cstate = c.cstate := rfl
@[simp] theorem Context.moveTo_kind (c : Context) (p : Nat) : (c.moveTo p).kind = c.kind := rfl
@[simp] theorem Context.moveTo_rnd (c : Context) (p : Nat) : (c.moveTo p).rnd = c.rnd := rfl
@[simp] theorem Context.moveTo_cw64 (c : Context) (p : Nat) : (c.moveTo p).cw64 = c.cw64 := rfl
@[simp] theorem Context.moveTo_key (c : Context) (p : Nat) : (c.moveTo p).key = c.key := rfl
@[simp] theorem Context.moveTo_nonce (c : Context) (p : Nat) : (c.moveTo p).nonce = c.nonce := rfl
@[simp] theorem Context.moveTo_nv (c : Context) (p : Nat) : (c.moveTo p).nv = c.nv := rfl
@[simp] theorem Context.moveTo_ctr (c : Context) (p : Nat) : (c.moveTo p).ctr = BitVec.ofNat 64 (p / 64) := rfl
@[simp] theorem Context.moveTo_ofs (c : Context) (p : Nat) : (c.moveTo p).ofs = BitVec.ofNat 7 (p % 64) := rfl
@[simp] theorem Context.moveTo_bufv (c : Context) (p : Nat) : (c.moveTo p).bufv = false := rfl
@[simp] theorem Context.moveTo_buf (c : Context) (p : Nat) : (c.moveTo p).buf = c.buf := rfl
@[simp] theorem Context.moveTo_keystream (c : Context) (p : Nat) : (c.moveTo p).keystream = c.keystream := rfl

@[simp] theorem Context.unspecifiedCursor_cstate (c : Context) (d : Nat) : (c.unspecifiedCursor d).cstate = .fault := rfl
@[simp] theorem Context.unspecifiedCursor_kind (c : Context) (d : Nat) : (c.unspecifiedCursor d).kind = c.kind := rfl
@[simp] theorem Context.unspecifiedCursor_rnd (c : Context) (d : Nat) : (c.unspecifiedCursor d).rnd = c.rnd := rfl
@[simp] theorem Context.unspecifiedCursor_cw64 (c : Context) (d : Nat) : (c.unspecifiedCursor d).cw64 = c.cw64 := rfl
@[simp] theorem Context.unspecifiedCursor_key (c : Context) (d : Nat) : (c.unspecifiedCursor d).key = c.key := rfl
@[simp] theorem Context.unspecifiedCursor_nonce (c : Context) (d : Nat) : (c.unspecifiedCursor d).nonce = c.nonce := rfl

@[simp] theorem Context.construct_cstate (k : Kind) (r : Rounds) (w : Bool) (key : Vector Byte 32) (n : Vector Byte 12) (c : Word) :
    (Context.construct k r w key n c).cstate = .ready := rfl
@[simp] theorem Context.construct_kind (k : Kind) (r : Rounds) (w : Bool) (key : Vector Byte 32) (n : Vector Byte 12) (c : Word) :
    (Context.construct k r w key n c).kind = k := rfl
@[simp] theorem Context.construct_rnd (k : Kind) (r : Rounds) (w : Bool) (key : Vector Byte 32) (n : Vector Byte 12) (c : Word) :
    (Context.construct k r w key n c).rnd = r := rfl
@[simp] theorem Context.construct_cw64 (k : Kind) (r : Rounds) (w : Bool) (key : Vector Byte 32) (n : Vector Byte 12) (c : Word) :
    (Context.construct k r w key n c).cw64 = w := rfl
@[simp] theorem Context.construct_key (k : Kind) (r : Rounds) (w : Bool) (key : Vector Byte 32) (n : Vector Byte 12) (c : Word) :
    (Context.construct k r w key n c).key = key := rfl
@[simp] theorem Context.construct_nonce (k : Kind) (r : Rounds) (w : Bool) (key : Vector Byte 32) (n : Vector Byte 12) (c : Word) :
    (Context.construct k r w key n c).nonce = n := rfl
@[simp] theorem Context.construct_ctr (k : Kind) (r : Rounds) (w : Bool) (key : Vector Byte 32) (n : Vector Byte 12) (c : Word) :
    (Context.construct k r w key n c).ctr = c := rfl
@[simp] theorem Context.construct_ofs (k : Kind) (r : Rounds) (w : Bool) (key : Vector Byte 32) (n : Vector Byte 12) (c : Word) :
    (Context.construct k r w key n c).ofs = 0 := rfl
@[simp] theorem Context.construct_bufv (k : Kind) (r : Rounds) (w : Bool) (key : Vector Byte 32) (n : Vector Byte 12) (c : Word) :
    (Context.construct k r w key n c).bufv = false := rfl

end Sys2Proof.Machine
end

