-- ==== Sys2Proof/Laws/Ops.lean ====
section
/-! SUPPORT. For each shared operation, once, everything it can answer; and what the range check means. -/

namespace Sys2Proof.Machine

/-! ### Ranges -/

/-- `firstDenied` finds nothing iff every byte of the range is admitted for every kind. -/
theorem Params.firstDenied_none (p : Params) (kinds : List AccessKind) (a n : Nat) :
    Params.firstDenied p kinds a n = none ↔ ∀ x, InRange a n x → ∀ k ∈ kinds, Params.hostAdmit p x k = true := by
  induction n generalizing a with
  | zero => simp [Params.firstDenied, InRange]
  | succ n ih =>
    rw [Params.firstDenied]
    split
    · next h =>
      rw [ih]
      simp only [List.all_eq_true] at h
      constructor
      · intro H x hx k hk
        by_cases hxa : x = a
        · exact hxa ▸ h k hk
        · exact H x ⟨by have := hx.1; omega, by have := hx.2; omega⟩ k hk
      · intro H x hx
        exact H x ⟨by have := hx.1; omega, by have := hx.2; omega⟩
    · next h =>
      simp only [reduceCtorEq, false_iff]
      intro H
      exact h (List.all_eq_true.mpr fun k hk => H a ⟨by omega, by omega⟩ k hk)

/-- `firstDenied` finds the first byte of the range that is not admitted for some kind. -/
theorem Params.firstDenied_some (p : Params) (kinds : List AccessKind) (a n x : Nat) :
    Params.firstDenied p kinds a n = some x ↔
      InRange a n x ∧ (∃ k ∈ kinds, Params.hostAdmit p x k = false) ∧
        ∀ y, a ≤ y → y < x → ∀ k ∈ kinds, Params.hostAdmit p y k = true := by
  induction n generalizing a with
  | zero => simp [Params.firstDenied, InRange]
  | succ n ih =>
    rw [Params.firstDenied]
    split
    · next h =>
      simp only [List.all_eq_true] at h
      rw [ih]
      constructor
      · rintro ⟨hx, hk, hy⟩
        refine ⟨⟨by have := hx.1; omega, by have := hx.2; omega⟩, hk, fun y h1 h2 k hk' => ?_⟩
        by_cases hya : y = a
        · exact hya ▸ h k hk'
        · exact hy y (by omega) h2 k hk'
      · rintro ⟨hx, ⟨k, hk, hkf⟩, hy⟩
        have hne : x ≠ a := by
          rintro rfl
          have := h k hk
          rw [hkf] at this
          exact absurd this (by decide)
        exact ⟨⟨by have := hx.1; omega, by have := hx.2; omega⟩, ⟨k, hk, hkf⟩, fun y h1 h2 => hy y (by omega) h2⟩
    · next h =>
      simp only [List.all_eq_true, not_forall] at h
      obtain ⟨k, hk, hkf⟩ := h
      simp only [Bool.not_eq_true] at hkf
      simp only [Option.some.injEq]
      constructor
      · rintro rfl
        exact ⟨⟨by omega, by omega⟩, ⟨k, hk, hkf⟩, fun y h1 h2 => by omega⟩
      · rintro ⟨hx, -, hy⟩
        by_contra hne
        have := hy a (by omega) (by have := hx.1; omega) k hk
        rw [hkf] at this
        exact absurd this (by decide)

/-- A range covers a window iff one of its bytes is in one. -/
theorem State.coversWindow_iff (s : State) (a n : Nat) : s.coversWindow a n = true ↔ ∃ x, InRange a n x ∧ s.inWindow x = true := by
  simp only [State.coversWindow, State.inWindow, decide_eq_true_eq, Bool.and_eq_true, InRange]
  constructor
  · intro h
    exact ⟨max a s.params.engineBase.toNat, by omega⟩
  · rintro ⟨x, hx⟩
    omega

/-- When a range is accessible, byte by byte. -/
theorem State.accessible_iff (s : State) (kinds : List AccessKind) (a n : Nat) :
    s.Accessible kinds a n ↔ n = 0 ∨ (a + n ≤ 2 ^ 64 ∧ ∀ x, InRange a n x →
      s.inWindow x = false ∧ ∀ k ∈ kinds, Params.hostAdmit s.params x k = true) := by
  unfold State.Accessible State.checkRange
  by_cases h0 : n = 0
  · simp [h0]
  · simp only [h0, if_false, false_or]
    by_cases hw : 2 ^ 64 < a + n
    · simp only [hw, if_true, reduceCtorEq, false_iff]; omega
    · simp only [hw, if_false]
      by_cases hc : s.coversWindow a n = true
      · simp only [hc, if_true, reduceCtorEq, false_iff]
        obtain ⟨x, hx, hxw⟩ := (s.coversWindow_iff a n).mp hc
        intro H
        have := (H.2 x hx).1
        rw [hxw] at this
        exact absurd this (by decide)
      · have hnw : ∀ x, InRange a n x → s.inWindow x = false := by
          intro x hx
          by_contra hx'
          exact hc ((s.coversWindow_iff a n).mpr ⟨x, hx, by simpa using hx'⟩)
        simp only [hc, if_false, Bool.false_eq_true]
        cases hf : Params.firstDenied s.params kinds a n with
        | none =>
          have := (Params.firstDenied_none _ _ _ _).mp hf
          simp only [true_iff]
          exact ⟨by omega, fun x hx => ⟨hnw x hx, this x hx⟩⟩
        | some y =>
          simp only [reduceCtorEq, false_iff]
          intro H
          have := (Params.firstDenied_none s.params kinds a n).mpr fun x hx => (H.2 x hx).2
          rw [hf] at this
          exact absurd this (by simp)

/-- The range check reads only the parameters and the number of instances. -/
theorem State.checkRange_congr {s t : State} (hp : t.params = s.params) (hl : t.engines.length = s.engines.length)
    (kinds : List AccessKind) (a n : Nat) : t.checkRange kinds a n = s.checkRange kinds a n := by
  simp [State.checkRange, State.coversWindow, hp, hl]

@[simp] theorem State.checkRange_resolve (s : State) (kinds : List AccessKind) (a n : Nat) :
    s.resolve.checkRange kinds a n = s.checkRange kinds a n := State.checkRange_congr (by simp) (by simp) ..

@[simp] theorem State.checkRange_putEngine (s : State) (e : Engine) (kinds : List AccessKind) (a n : Nat) :
    (s.putEngine e).checkRange kinds a n = s.checkRange kinds a n := State.checkRange_congr (by simp) (by simp) ..

@[simp] theorem State.checkRange_zero (s : State) (kinds : List AccessKind) (a : Nat) : s.checkRange kinds a 0 = .admitted := by
  simp [State.checkRange]

/-- An admitted or denied range lies below 2^64. -/
theorem State.checkRange_fits {s : State} {kinds : List AccessKind} {a n : Nat} (h : s.checkRange kinds a n ≠ .wraps)
    (hn : n ≠ 0) : a + n ≤ 2 ^ 64 := by
  unfold State.checkRange at h
  by_contra hlt
  rw [if_neg hn, if_pos (by omega)] at h
  exact h rfl

/-! ### Outcomes of the shared operations -/

theorem State.onEngine_some {s : State} {e : Engine} (h : s.engine? = some e) (body : Engine → StepOutcome) :
    s.onEngine body = body e := by simp [State.onEngine, h]

/-- If a body on the active instance answers a next state, there was one. -/
theorem State.onEngine_next {s t : State} {body : Engine → StepOutcome} (h : s.onEngine body = .next t) :
    ∃ e, s.engine? = some e ∧ body e = .next t := by
  unfold State.onEngine at h
  split at h
  · next e he => exact ⟨e, he, h⟩
  · cases h

theorem State.complete_eq (s : State) (e : Engine) : s.complete e = .next (s.putEngine { e with err := .ok }) := rfl
theorem State.raise_eq (s : State) (e : Engine) (c : ErrCode) : s.raise e c = .next (s.putEngine { e with err := c }) := rfl
theorem State.busFault_eq (s : State) (e : Engine) (x : Nat) :
    s.busFault e x = .next (s.putEngine { e with res0 := BitVec.ofNat 64 x, res1 := 0, err := .busFault }) := rfl
theorem State.streamFault_eq (s : State) (e : Engine) (x : Nat) (m : Memory) :
    s.streamFault e x m = .next (State.putEngine { s with mem := m, freeCount := s.freeCount + 1 }
      { e with ctx := e.ctx.unspecifiedCursor s.freeCount, res0 := BitVec.ofNat 64 x, res1 := 0, err := .busFault }) := rfl

theorem State.readInput_accessible {s : State} {e : Engine} {m : Memory} {a n : Nat} (h : s.Accessible [.read] a n)
    (body : List Byte → StepOutcome) : s.readInput e m a n body = body (Memory.readBytes m a n) := by
  simp only [State.Accessible] at h
  simp [State.readInput, h]

/-- Everything `readInput` can do when it answers a next state: go on, or end with BusFault. -/
theorem State.readInput_next {s t : State} {e : Engine} {m : Memory} {a n : Nat} {body : List Byte → StepOutcome}
    (h : s.readInput e m a n body = .next t) :
    (s.Accessible [.read] a n ∧ body (Memory.readBytes m a n) = .next t) ∨
      ∃ x, t = s.putEngine { e with res0 := BitVec.ofNat 64 x, res1 := 0, err := .busFault } := by
  unfold State.readInput at h
  split at h
  · next hc => exact .inl ⟨hc, h⟩
  · rw [State.busFault_eq] at h; cases h; exact .inr ⟨a, rfl⟩
  · cases h
  · next x hc => rw [State.busFault_eq] at h; cases h; exact .inr ⟨x, rfl⟩

theorem State.writeOutput_accessible {s : State} {e : Engine} {a n : Nat} {out : List Byte}
    (h : s.Accessible [.write] a n) :
    s.writeOutput e a n out = .next (State.putEngine { s with mem := Memory.writeBytes s.mem a out } { e with err := .ok }) := by
  simp only [State.Accessible] at h
  simp [State.writeOutput, h, State.complete_eq]

/-- Everything `writeOutput` can do when it answers a next state: complete with the output written; BusFault on the
range check, with nothing written; or BusFault at a byte, with some bytes written. -/
theorem State.writeOutput_next {s t : State} {e : Engine} {a n : Nat} {out : List Byte} (h : s.writeOutput e a n out = .next t) :
    (s.Accessible [.write] a n ∧
      t = State.putEngine { s with mem := Memory.writeBytes s.mem a out } { e with err := .ok }) ∨
    (s.checkRange [.write] a n = .wraps ∧
      t = s.putEngine { e with res0 := BitVec.ofNat 64 a, res1 := 0, err := .busFault }) ∨
    ∃ x, s.checkRange [.write] a n = .denied x ∧
      t = State.putEngine { s with mem := s.partlyWritten a out, freeCount := s.freeCount + 1 }
        { e with res0 := BitVec.ofNat 64 x, res1 := 0, err := .busFault } := by
  unfold State.writeOutput at h
  split at h
  · next hc => cases h; exact .inl ⟨hc, rfl⟩
  · next hc => cases h; exact .inr (.inl ⟨hc, rfl⟩)
  · cases h
  · next x hc => cases h; exact .inr (.inr ⟨x, hc, rfl⟩)

theorem Context.requireReady_none {c : Context} {k : Kind} : c.requireReady k = none ↔ c.cstate = .ready ∧ c.kind = k := by
  unfold Context.requireReady
  split
  · next h => simp [h]
  · next h => simp [h]
  · next h => by_cases hk : c.kind = k <;> simp [h, hk]

theorem Context.requireReady_uninit {c : Context} (k : Kind) (h : c.cstate = .uninit) : c.requireReady k = some .notInitialized := by
  simp [Context.requireReady, h]

theorem Context.requireReady_fault {c : Context} (k : Kind) (h : c.cstate = .fault) : c.requireReady k = some .faulted := by
  simp [Context.requireReady, h]

theorem Context.requireReady_kind {c : Context} {k : Kind} (h : c.cstate = .ready) (hk : c.kind ≠ k) :
    c.requireReady k = some .wrongKind := by simp [Context.requireReady, h, hk]

/-- A moved cursor's context is still ready. Cite it: comparing the two contexts by unfolding compares their counters. -/
theorem Context.moveTo_ready (c : Context) (p : Nat) (k : Kind) : (c.moveTo p).Ready k ↔ c.Ready k :=
  ⟨fun h => ⟨h.1, h.2⟩, fun h => ⟨h.1, h.2⟩⟩

/-! ### Nonce forms -/

@[simp] theorem NonceForm.bytes_short : NonceForm.short.bytes = 8 := rfl
@[simp] theorem NonceForm.bytes_standard : NonceForm.standard.bytes = 12 := rfl
@[simp] theorem NonceForm.bytes_extended : NonceForm.extended.bytes = 24 := rfl
@[simp] theorem NonceForm.cw64_short : NonceForm.short.cw64 = true := rfl
@[simp] theorem NonceForm.cw64_standard : NonceForm.standard.cw64 = false := rfl
@[simp] theorem NonceForm.cw64_extended : NonceForm.extended.cw64 = false := rfl

/-- The length INIT reads is its length operand. -/
theorem NonceForm.bytes_ofInitLength {len : Word} {form : NonceForm} (h : NonceForm.ofInitLength len = some form) :
    form.bytes = len.toNat := by
  unfold NonceForm.ofInitLength at h
  split at h
  · cases h; subst_vars; rfl
  · split at h
    · cases h; subst_vars; rfl
    · split at h
      · cases h; subst_vars; rfl
      · cases h

/-- The length BLOCKS reads is its length operand. -/
theorem NonceForm.bytes_ofBlockLength {len : Word} {form : NonceForm} (h : NonceForm.ofBlockLength len = some form) :
    form.bytes = len.toNat := by
  unfold NonceForm.ofBlockLength at h
  split at h
  · cases h; subst_vars; rfl
  · split at h
    · cases h; subst_vars; rfl
    · cases h

/-! ### Ranges inside ranges, and a failed read -/

/-- A part of an accessible range is accessible, in every state with the same parameters and number of instances. -/
theorem State.accessible_sub {s t : State} {kinds : List AccessKind} {a n b m : Nat} (h : s.Accessible kinds a n)
    (hp : t.params = s.params) (hl : t.engines.length = s.engines.length) (hr : m = 0 ∨ (a ≤ b ∧ b + m ≤ a + n)) :
    t.Accessible kinds b m := by
  unfold State.Accessible
  rw [State.checkRange_congr hp hl]
  rw [State.accessible_iff] at h
  show s.Accessible kinds b m
  rw [State.accessible_iff]
  rcases hr with hr | hr
  · exact .inl hr
  · rcases h with h | h
    · exact .inl (by omega)
    · refine .inr ⟨by omega, fun x hx => h.2 x ?_⟩
      unfold InRange at *; omega

theorem State.readInput_faults {s : State} {e : Engine} {m : Memory} {a n x : Nat} (h : s.AccessFaults [.read] a n x)
    (body : List Byte → StepOutcome) : s.readInput e m a n body = s.busFault e x := by
  rcases h with ⟨h, rfl⟩ | h <;> simp [State.readInput, h]

end Sys2Proof.Machine
end

