-- ==== Sys2Proof/Laws/Bus.lean ====
section
/-! SUPPORT. The host's side: what comes after what, races and raced commands, what a step is, and which instances a
window offset can belong to. -/

namespace Sys2Proof.Machine

/-! ### What comes after a next state -/

@[simp] theorem StepOutcome.andThen_next (s : State) (f : State → StepOutcome) : StepOutcome.andThen (.next s) f = f s := rfl
@[simp] theorem StepOutcome.andThen_refused (r : Refusal) (f : State → StepOutcome) :
    StepOutcome.andThen (.refused r) f = .refused r := rfl

/-- Nothing more to do. -/
@[simp] theorem StepOutcome.andThen_done (o : StepOutcome) : o.andThen Host.Outcome.next = o := by cases o <;> rfl

/-- If a sequence answers a next state, its first part did. -/
theorem StepOutcome.andThen_eq_next {o : StepOutcome} {f : State → StepOutcome} {t : State} (h : o.andThen f = .next t) :
    ∃ s, o = .next s ∧ f s = .next t := by
  cases o with
  | next s => exact ⟨s, rfl, h⟩
  | fault r => cases h
  | refused r => cases h

/-! ### Commands and races -/

/-- With the reads of host memory as it is, a command is `exec`'s. -/
theorem execSeeing_reads (i : Instr) (s : State) : execSeeing i s.reads s = exec i s := by cases i <;> rfl

/-- A command with which no one races is `exec`'s. -/
@[simp] theorem State.runRacing_nil (s : State) (i : Instr) : s.runRacing i [] = exec i s := rfl

/-- Bytes outside the ranges stay. -/
theorem Memory.read_scramble_other (draw : Nat) (rs : List AccessRange) (m : Memory) {x : Nat}
    (h : Untouched rs x) : Memory.read (Memory.scramble draw rs m) x = Memory.read m x := by
  induction rs generalizing m with
  | nil => rfl
  | cons r rs ih =>
    rw [Memory.scramble, ih _ fun q hq => h q (List.mem_cons_of_mem _ hq), Memory.read_writeBytes_outside]
    have := h r List.mem_cons_self
    simp only [InRange] at this
    simp only [List.length_map, List.length_range]
    omega

theorem Memory.wf_scramble (draw : Nat) (rs : List AccessRange) (m : Memory) (h : Memory.wf m = true) :
    Memory.wf (Memory.scramble draw rs m) = true := by
  induction rs generalizing m with
  | nil => exact h
  | cons r rs ih =>
    refine ih _ ?_
    by_cases hr : r.2.1 ≤ 2 ^ 64
    · exact Memory.wf_writeBytes _ _ _ (by simp only [List.length_map, List.length_range]; omega) h
    · rw [show min r.2.2 (2 ^ 64 - r.2.1) = 0 by omega]
      exact h

/-- What a conflict is: common bytes of two ranges, of which one writes. -/
theorem conflict_eq_some {m t c : AccessRange} (h : conflict m t = some c) :
    (m.1 = .write ∨ t.1 = .write) ∧ c.1 = t.1 ∧ (∃ x, InRange c.2.1 c.2.2 x) ∧
      ∀ x, InRange c.2.1 c.2.2 x ↔ InRange m.2.1 m.2.2 x ∧ InRange t.2.1 t.2.2 x := by
  unfold conflict at h
  split at h
  · next hc =>
    cases h
    simp only [Bool.and_eq_true, Bool.or_eq_true, beq_iff_eq, decide_eq_true_eq] at hc
    refine ⟨hc.1, rfl, ⟨max m.2.1 t.2.1, ?_⟩, fun x => ?_⟩ <;> simp only [InRange] <;> omega
  · cases h

theorem conflict_exists {m t : AccessRange} (hk : m.1 = .write ∨ t.1 = .write) {x : Nat} (hm : InRange m.2.1 m.2.2 x)
    (ht : InRange t.2.1 t.2.2 x) : ∃ c, conflict m t = some c := by
  unfold conflict
  rw [if_pos]
  · exact ⟨_, rfl⟩
  · simp only [InRange] at hm ht
    simp only [Bool.and_eq_true, Bool.or_eq_true, beq_iff_eq, decide_eq_true_eq]
    exact ⟨hk, by omega⟩

/-- `conflicts` finds exactly the bytes raced for (20_memory.md R85, R92). -/
theorem mem_conflicts (mine theirs : List AccessRange) (kind : AccessKind) (x : Nat) :
    (∃ r ∈ conflicts mine theirs, r.1 = kind ∧ InRange r.2.1 r.2.2 x) ↔ RacesAt mine theirs kind x := by
  simp only [conflicts, List.mem_flatMap, List.mem_filterMap]
  constructor
  · rintro ⟨c, ⟨m, hm, t, ht, hc⟩, rfl, hx⟩
    obtain ⟨hk, hkind, -, hr⟩ := conflict_eq_some hc
    obtain ⟨h1, h2⟩ := (hr x).mp hx
    exact ⟨⟨m, hm, h1, hkind ▸ hk⟩, t, ht, hkind.symm, h2⟩
  · rintro ⟨⟨m, hm, h1, hk⟩, t, ht, rfl, h2⟩
    obtain ⟨c, hc⟩ := conflict_exists hk h1 h2
    obtain ⟨-, hkind, -, hr⟩ := conflict_eq_some hc
    exact ⟨c, ⟨m, hm, t, ht, hc⟩, hkind, (hr x).mpr ⟨h1, h2⟩⟩

theorem conflicts_eq_nil {mine theirs : List AccessRange} (h : ∀ kind x, ¬RacesAt mine theirs kind x) :
    conflicts mine theirs = [] := by
  rw [List.eq_nil_iff_forall_not_mem]
  intro c hc
  obtain ⟨m, -, t, -, he⟩ : ∃ m ∈ mine, ∃ t ∈ theirs, conflict m t = some c := by
    simpa [conflicts, List.mem_flatMap, List.mem_filterMap] using hc
  obtain ⟨-, -, ⟨x, hx⟩, -⟩ := conflict_eq_some he
  exact h c.1 x ((mem_conflicts _ _ _ _).mp ⟨c, hc, rfl, hx⟩)

/-- Races are mutual: where others race with mine, mine race with theirs. -/
theorem RacesAt.symm {mine theirs : List AccessRange} {kind : AccessKind} {x : Nat} (h : RacesAt mine theirs kind x) :
    ∃ kind', RacesAt theirs mine kind' x := by
  obtain ⟨⟨m, hm, h1, hk⟩, t, ht, rfl, h2⟩ := h
  exact ⟨m.1, ⟨t, ht, h2, hk.symm⟩, m, hm, rfl, h1⟩

theorem State.mem_racedBy (s : State) (mine : List AccessRange) (kind : AccessKind) (x : Nat) :
    (∃ r ∈ s.racedBy mine, r.1 = kind ∧ InRange r.2.1 r.2.2 x) ↔ ∃ f ∈ s.pending, RacesAt mine f.held kind x := by
  simp only [State.racedBy, List.mem_flatMap]
  constructor
  · rintro ⟨r, ⟨f, hf, hr⟩, h⟩
    exact ⟨f, hf, (mem_conflicts _ _ _ _).mp ⟨r, hr, h⟩⟩
  · rintro ⟨f, hf, h⟩
    obtain ⟨r, hr, h⟩ := (mem_conflicts _ _ _ _).mpr h
    exact ⟨r, ⟨f, hf, hr⟩, h⟩

/-- What races with nothing in flight finds no byte raced for and marks none. -/
theorem State.Quiet.racedBy {s : State} {mine : List AccessRange} (h : s.Quiet mine) : s.racedBy mine = [] := by
  simp only [State.racedBy, List.flatMap_eq_nil_iff]
  exact fun f hf => conflicts_eq_nil (h f hf)

theorem State.Quiet.meet {s : State} {mine : List AccessRange} (h : s.Quiet mine) : s.meet mine = s := by
  have hid : s.pending.map (Flight.meet mine) = s.pending := by
    refine List.map_congr_left (fun f hf => ?_) |>.trans (List.map_id _)
    have : conflicts f.ranges mine = [] := conflicts_eq_nil fun kind x hx => by
      obtain ⟨kind', ⟨r, hr, h1, h2⟩, q, hq, hk, h3⟩ := hx.symm
      exact h f hf kind' x ⟨⟨r, hr, h1, h2⟩, q, List.mem_append_left _ hq, hk, h3⟩
    simp [Flight.meet, this]
  simp [State.meet, hid]

/-- Meeting accesses adds exactly the bytes for which they race. -/
theorem Flight.meet_racedAt (f : Flight) (theirs : List AccessRange) (kind : AccessKind) (x : Nat) :
    (f.meet theirs).RacedAt kind x ↔ f.RacedAt kind x ∨ RacesAt f.ranges theirs kind x := by
  simp only [Flight.RacedAt, Flight.meet_raced, List.mem_append, or_and_right, exists_or, mem_conflicts]

theorem metBy_meet (p : List Flight) (theirs : List AccessRange) : MetBy p (p.map (Flight.meet theirs)) theirs :=
  ⟨by simp, fun j f h => ⟨f.meet theirs, by simp [h], rfl, f.meet_racedAt theirs⟩⟩

/-- A byte that no one writes is read as it is, by each of a raced command's reads. -/
theorem State.read_racedReads {s : State} {rs : List AccessRange} {x : Nat}
    (h : Unwritten rs x) :
    Memory.read (s.racedReads rs).key x = Memory.read s.mem x ∧ Memory.read (s.racedReads rs).nonce x = Memory.read s.mem x ∧
      Memory.read (s.racedReads rs).buffer x = Memory.read s.mem x := by
  have h' : Untouched (rs.filter fun r => r.1 == .write) x := fun r hr => by
    obtain ⟨h1, h2⟩ := List.mem_filter.mp hr
    exact h r h1 (by simpa using h2)
  exact ⟨Memory.read_scramble_other _ _ _ h', Memory.read_scramble_other _ _ _ h', Memory.read_scramble_other _ _ _ h'⟩

/-- Everything a command with bytes raced for can do when it answers a next state: without one, `exec`'s; with some, the
command on raced reads, and then any value in each of those bytes. -/
theorem State.runRacing_next {s t : State} {i : Instr} {raced : List AccessRange} (h : s.runRacing i raced = .next t) :
    (raced = [] ∧ exec i s = .next t) ∨
    ∃ u, execSeeing i (s.racedReads raced) { s with freeCount := s.freeCount + 3 } = .next u ∧ t = u.endRace raced := by
  cases raced with
  | nil => exact .inl ⟨rfl, h⟩
  | cons r rs =>
    obtain ⟨u, hu, h⟩ := StepOutcome.andThen_eq_next h
    cases h
    exact .inr ⟨u, hu, rfl⟩

/-! ### What a step is -/

/-- A step performs the host's next operation when that waits for nothing. -/
theorem step_performs {s : State} {op : HostOp} (h : s.Performs op) : step s = op.perform { s with pc := s.pc + 1 } := by
  simp only [step, State.hostStep, h.1, h.2]

/-- A step that completes a command in flight, whatever brings it about. -/
theorem step_completes {s : State} {f : Flight} {pc : Nat} (h : s.NextCompletes f pc) :
    step s = State.finish { s with pc := pc } f := by
  rcases h with ⟨hp, hf, rfl⟩ | ⟨op, ho, hw, rfl⟩ | ⟨ho, hf, rfl⟩
  · rw [step_performs hp]
    simp only [HostOp.perform, State.completeOn, hf]
  · simp only [step, State.hostStep, ho, hw]
  · cases hp : s.pending with
    | nil => simp [hp] at hf
    | cons g gs =>
      simp only [hp, List.head?_cons, Option.some.injEq] at hf
      subst hf
      simp only [step, State.hostStep, ho, hp]
      rw [← hp]

/-- A step whose next host operation is a CMD write issues that word to that instance. -/
theorem step_command {s : State} {agent k : Nat} {w : Word} (h : s.NextIsCommand agent k w) :
    step s = State.issue { s with pc := s.pc + 1 } k w := by
  obtain ⟨addr, h1, h2⟩ := h
  have h3 : State.windowOf { s with pc := s.pc + 1 } addr = some (k, 0) := h2
  rw [step_performs h1]
  simp only [HostOp.perform, State.regWrite, State.atRegister, h3]
  rfl

/-- A step whose next host operation begins a CMD write. -/
theorem step_begins {s : State} {agent k : Nat} {w : Word} (h : s.NextBegins agent k w) :
    step s = State.begin { s with pc := s.pc + 1 } agent k w := by
  obtain ⟨addr, h1, h2⟩ := h
  have h3 : State.windowOf { s with pc := s.pc + 1 } addr = some (k, 0) := h2
  rw [step_performs h1]
  simp only [HostOp.perform, State.beginWrite, State.atRegister, h3]
  rfl

/-- A command that begins and completes at once, and races with nothing in flight, is `exec`'s. -/
theorem State.runNow_quiet {s : State} {e : Engine} {i : Instr} (he : s.engine? = some e) (h : s.Quiet (accessRanges i e)) :
    s.runNow i = exec i s := by
  rw [State.runNow, State.onEngine_some he, h.racedBy, h.meet, State.runRacing_nil]

/-- A window belongs to an instance there is, and its offsets are below 0x100 (10_state.md R31). -/
theorem State.windowOf_lt {s : State} {addr : Word} {k off : Nat} (h : s.windowOf addr = some (k, off)) :
    k < s.engines.length ∧ off < 0x100 := by
  unfold State.windowOf at h
  split at h
  · next hw =>
    simp only [State.inWindow, Bool.and_eq_true, decide_eq_true_eq] at hw
    simp only [Option.some.injEq, Prod.mk.injEq] at h
    omega
  · cases h

end Sys2Proof.Machine
end

