-- ==== Sys2Proof/Laws/Cursor.lean ====
section
/-! SUPPORT. What the cursor does: n drawn bytes are the keystream from the position on, the position moves by n, and
the invariant of 10_state.md R48 and R49 is kept. -/

namespace Sys2Proof.Machine

/-- The cursor's part of `Context.Inv`, for a context that commands may draw from. -/
structure Context.CursorOk (generate : Context → Block) (c : Context) : Prop where
  offset : c.ofs.toNat ≤ 64
  exhausted : c.ofs.toNat = 64 → c.bufv = true
  buffered : c.bufv = true → 1 ≤ c.ofs.toNat
  coherent : c.bufv = true → c.buf = generate c

/-- A block generator that reads only the key, the nonce form and value, the counter and the round count. -/
def Generator (generate : Context → Block) : Prop :=
  ∀ c d : Context, c.key = d.key → c.nv = d.nv → c.ctr = d.ctr → c.rnd = d.rnd → generate c = generate d

theorem generator_block : Generator fun c => block c.key c.nv c.ctr c.rnd := by
  intro c d h1 h2 h3 h4
  simp only [h1, h2, h3, h4]

/-- Everything but the cursor fields stays (10_state.md R42, R45, R46). -/
structure Context.SameInstance (c d : Context) : Prop where
  cstate : d.cstate = c.cstate
  kind : d.kind = c.kind
  rnd : d.rnd = c.rnd
  cw64 : d.cw64 = c.cw64
  key : d.key = c.key
  nonce : d.nonce = c.nonce

theorem Context.SameInstance.refl (c : Context) : c.SameInstance c := ⟨rfl, rfl, rfl, rfl, rfl, rfl⟩

theorem Context.SameInstance.trans {c d e : Context} (h : c.SameInstance d) (h' : d.SameInstance e) : c.SameInstance e :=
  ⟨h'.cstate.trans h.cstate, h'.kind.trans h.kind, h'.rnd.trans h.rnd, h'.cw64.trans h.cw64, h'.key.trans h.key,
    h'.nonce.trans h.nonce⟩

theorem Context.SameInstance.nv {c d : Context} (h : c.SameInstance d) : d.nv = c.nv := by
  simp only [Context.nv, h.cw64, h.nonce]

theorem Context.SameInstance.keystream {c d : Context} (h : c.SameInstance d) : d.keystream = c.keystream := by
  funext p
  simp only [Context.keystream, h.nv, h.key, h.rnd]

theorem Context.refill_same (g : Context → Block) (c : Context) : c.SameInstance (c.refill g) := by
  unfold Context.refill Context.fillBuffer Context.nextBlock
  split <;> split <;> exact ⟨rfl, rfl, rfl, rfl, rfl, rfl⟩

theorem Context.draw_same (g : Context → Block) (n : Nat) (c : Context) : c.SameInstance (Context.draw g n c).2 := by
  induction n generalizing c with
  | zero => exact .refl c
  | succ n ih =>
    have := ih { c.refill g with ofs := (c.refill g).ofs + 1 }
    exact (c.refill_same g).trans ⟨this.cstate, this.kind, this.rnd, this.cw64, this.key, this.nonce⟩

@[simp] theorem Context.draw_length (g : Context → Block) (n : Nat) (c : Context) : (Context.draw g n c).1.length = n := by
  induction n generalizing c with
  | zero => rfl
  | succ n ih => simp [Context.draw, ih]

/-- Drawing n + m bytes is drawing n and then m (42_cursor.md R196 b). -/
theorem Context.draw_add (g : Context → Block) (n m : Nat) (c : Context) :
    Context.draw g (n + m) c =
      ((Context.draw g n c).1 ++ (Context.draw g m (Context.draw g n c).2).1, (Context.draw g m (Context.draw g n c).2).2) := by
  induction n generalizing c with
  | zero => simp [Context.draw]
  | succ n ih => rw [show n + 1 + m = n + m + 1 by omega, Context.draw, Context.draw, ih]; rfl

/-- A refilled cursor holds the block of its position, with OFS < 64, at the same position; the counter moves only when
a further byte is needed (42_cursor.md R194, R206). -/
theorem Context.refill_spec {g : Context → Block} (hg : Generator g) {c : Context} (h : c.CursorOk g)
    (hpos : c.position < 2 ^ 70) :
    let d := c.refill g
    d.position = c.position ∧ d.ofs.toNat < 64 ∧ d.bufv = true ∧ d.buf = g d := by
  have hofs := h.offset
  have hctr := c.ctr.isLt
  simp only [Context.position] at hpos
  unfold Context.refill Context.fillBuffer Context.nextBlock
  by_cases h64 : c.ofs = 64
  · have h64' : c.ofs.toNat = 64 := by rw [h64]; rfl
    simp only [h64, if_true, Bool.false_eq_true, if_false, Context.position]
    refine ⟨?_, by decide, trivial, hg _ _ rfl rfl rfl rfl⟩
    rw [BitVec.toNat_add, show (64 : BitVec 7).toNat = 64 from rfl, show (1 : BitVec 64).toNat = 1 from rfl,
      show (0 : BitVec 7).toNat = 0 from rfl, Nat.mod_eq_of_lt (by omega)]
    omega
  · have h64' : c.ofs.toNat ≠ 64 := fun e => h64 (BitVec.eq_of_toNat_eq e)
    simp only [h64, if_false]
    by_cases hb : c.bufv = true
    · simp only [hb, if_true]
      exact ⟨trivial, by omega, trivial, h.coherent hb⟩
    · simp only [hb, if_false, Context.position, Bool.false_eq_true]
      exact ⟨trivial, by omega, trivial, hg _ _ rfl rfl rfl rfl⟩

/-- What n drawn bytes are, from a cursor that is in order and far enough from the end: the keystream bytes from the
position on; and what they leave: the position moved by n, the cursor still in order. -/
theorem Context.draw_spec {c : Context} (h : c.CursorOk fun c => block c.key c.nv c.ctr c.rnd) (n : Nat)
    (hpos : c.position + n ≤ 2 ^ 70) :
    let r := Context.draw (fun c => block c.key c.nv c.ctr c.rnd) n c
    (∀ i (hi : i < r.1.length), r.1[i] = c.keystream (c.position + i)) ∧ r.2.position = c.position + n ∧
      r.2.CursorOk (fun c => block c.key c.nv c.ctr c.rnd) ∧ (1 ≤ n → r.2.bufv = true) := by
  induction n generalizing c with
  | zero => exact ⟨fun i hi => absurd hi (by simp [Context.draw]), rfl, h, fun h => absurd h (by omega)⟩
  | succ n ih =>
    obtain ⟨hp, hlt, hbv, hbuf⟩ := Context.refill_spec generator_block h (by omega)
    have hsame := c.refill_same fun c => block c.key c.nv c.ctr c.rnd
    have hbyte : (c.refill fun c => block c.key c.nv c.ctr c.rnd).bufByte = c.keystream c.position := by
      rw [← hsame.keystream, ← hp]
      generalize c.refill (fun c => block c.key c.nv c.ctr c.rnd) = d at hlt hbuf
      have hmod : d.position % 64 = d.ofs.toNat := by simp only [Context.position]; omega
      have hdiv : d.position / 64 = d.ctr.toNat := by simp only [Context.position]; omega
      simp only [Context.bufByte, Context.keystream, hdiv, BitVec.ofNat_toNat, BitVec.setWidth_eq, hmod]
      rw [hbuf, Vector.getElem?_eq_getElem hlt]
      rfl
    generalize hd : c.refill (fun c => block c.key c.nv c.ctr c.rnd) = d at *
    have hofs1 : (d.ofs + 1).toNat = d.ofs.toNat + 1 := by
      rw [BitVec.toNat_add, show (1 : BitVec 7).toNat = 1 from rfl, Nat.mod_eq_of_lt (by omega)]
    have hok : Context.CursorOk (fun c => block c.key c.nv c.ctr c.rnd) { d with ofs := d.ofs + 1 } :=
      ⟨by simp only [hofs1]; omega, fun _ => hbv, fun _ => by simp only [hofs1]; omega, fun _ => hbuf⟩
    have hpos' : Context.position { d with ofs := d.ofs + 1 } = c.position + 1 := by
      rw [← hp]; simp only [Context.position, hofs1]; omega
    obtain ⟨h1, h2, h3, h4⟩ := ih hok (by rw [hpos']; omega)
    have hks : Context.keystream { d with ofs := d.ofs + 1 } = c.keystream := hsame.keystream
    simp only [Context.draw, hd]
    refine ⟨fun i hi => ?_, by rw [h2, hpos']; omega, h3, fun _ => ?_⟩
    · cases i with
      | zero => simpa using hbyte
      | succ i =>
        have := h1 i (by simpa using hi)
        rw [hks, hpos'] at this
        simpa [show c.position + 1 + i = c.position + (i + 1) by omega] using this
    · cases n with
      | zero => exact hbv
      | succ n => exact h4 (by omega)

/-- The cursor of a READY context that meets the invariant is in order. -/
theorem Context.Inv.cursorOk {c : Context} (h : c.Inv) (hr : c.cstate = .ready) :
    c.CursorOk fun c => block c.key c.nv c.ctr c.rnd :=
  ⟨h.offset hr, h.exhausted hr, h.buffered hr, h.coherent hr⟩

theorem endPos_le (w : Bool) : endPos w ≤ 2 ^ 70 := by cases w <;> decide

theorem maxCtr_lt (w : Bool) : maxCtr w < 2 ^ 64 := by cases w <;> decide

/-- A moved cursor stands at the position it was moved to (42_cursor.md R198, R201). -/
theorem Context.moveTo_position (c : Context) {p : Nat} (h : p / 64 ≤ maxCtr c.cw64) : (c.moveTo p).position = p := by
  have := maxCtr_lt c.cw64
  simp only [Context.position, Context.moveTo_ctr, Context.moveTo_ofs, BitVec.toNat_ofNat]
  omega

/-- The bytes APPLY or FILL would write, whatever the backend. -/
theorem State.streamOutput_resolve (s : State) (e : Engine) (x : Bool) (m : Memory) :
    s.resolve.streamOutput e x m = s.streamOutput e x m := by
  simp [State.streamOutput]

@[simp] theorem State.streamOutput_length (s : State) (e : Engine) (x : Bool) (m : Memory) :
    (s.streamOutput e x m).length = e.arg1.toNat := by
  unfold State.streamOutput; split <;> simp

/-- Byte i of what APPLY or FILL writes: keystream byte P + i, XORed into the old byte for APPLY (42_cursor.md R196 c). -/
theorem State.streamOutput_getElem {s : State} {e : Engine} {m : Memory} (h : e.ctx.Inv) (hr : e.ctx.cstate = .ready)
    (hpos : e.ctx.position + e.arg1.toNat ≤ endPos e.ctx.cw64) (x : Bool) {i : Nat} (hi : i < (s.streamOutput e x m).length) :
    (s.streamOutput e x m)[i] =
      (if x then Memory.read m (e.arg0.toNat + i) else 0) ^^^ e.ctx.keystream (e.ctx.position + i) := by
  have hd := (Context.draw_spec (h.cursorOk hr) e.arg1.toNat (le_trans hpos (endPos_le _))).1
  have hi' : i < (Context.draw (fun c => block c.key c.nv c.ctr c.rnd) e.arg1.toNat e.ctx).1.length := by simpa using hi
  cases x with
  | true => simp [State.streamOutput, Memory.readBytes_getElem, hd i hi']
  | false => simpa [State.streamOutput] using hd i hi'

/-- Everything `streamAccess` can do when it answers a next state: the output written and the cursor moved on; BusFault
on the range check, with no byte written; or BusFault at a byte, with some bytes written. -/
theorem State.streamAccess_next {s t : State} {e : Engine} {x : Bool} {m : Memory} (h : s.streamAccess e x m = .next t) :
    (s.Accessible (streamKinds x) e.arg0.toNat e.arg1.toNat ∧
      t = State.putEngine { s with mem := Memory.writeBytes s.mem e.arg0.toNat (s.streamOutput e x m) }
        { e with ctx := (Context.draw s.generate e.arg1.toNat e.ctx).2, err := .ok }) ∨
    (s.checkRange (streamKinds x) e.arg0.toNat e.arg1.toNat = .wraps ∧ s.streamFault e e.arg0.toNat s.mem = .next t) ∨
    ∃ y, s.checkRange (streamKinds x) e.arg0.toNat e.arg1.toNat = .denied y ∧
      s.streamFault e y (s.partlyWritten e.arg0.toNat (s.streamOutput e x m)) = .next t := by
  unfold State.streamAccess at h
  split at h
  · next hc => cases h; exact .inl ⟨hc, rfl⟩
  · next hc => exact .inr (.inl ⟨hc, h⟩)
  · cases h
  · next y hc => exact .inr (.inr ⟨y, hc, h⟩)

/-- Everything `stream` can do when it answers a next state, up to its access phase. -/
theorem State.stream_next {s t : State} {kind : Kind} {x : Bool} {m : Memory} (h : s.stream kind x m = .next t) :
    ∃ e, s.engine? = some e ∧
      ((∃ code, e.ctx.requireReady kind = some code ∧ t = s.putEngine { e with err := code }) ∨
      (e.ctx.requireReady kind = none ∧ endPos e.ctx.cw64 < e.ctx.position + e.arg1.toNat ∧
        t = s.putEngine { e with ctx := { e.ctx with cstate := .fault }, err := .counterOverflow }) ∨
      (e.ctx.requireReady kind = none ∧ e.ctx.position + e.arg1.toNat ≤ endPos e.ctx.cw64 ∧
        ((e.arg1 = 0 ∧ t = s.putEngine { e with err := .ok }) ∨
          (e.arg1 ≠ 0 ∧ s.resolve.streamAccess e x m = .next t)))) := by
  obtain ⟨e, he, hb⟩ := State.onEngine_next h
  refine ⟨e, he, ?_⟩
  split at hb
  · next code hc => cases hb; exact .inl ⟨code, hc, rfl⟩
  · next hc =>
    split at hb
    · next hlt => cases hb; exact .inr (.inl ⟨hc, hlt, rfl⟩)
    · next hlt =>
      split at hb
      · next h0 => cases hb; exact .inr (.inr ⟨hc, by omega, .inl ⟨h0, rfl⟩⟩)
      · next h0 => exact .inr (.inr ⟨hc, by omega, .inr ⟨h0, hb⟩⟩)

end Sys2Proof.Machine
end

