-- ==== Sys2Proof/Laws/Commands.lean ====
section
/-! SUPPORT. What each shared command body does once its checks pass, so that no later proof unfolds a command; and the
128-bit operand. -/

namespace Sys2Proof.Machine

/-- A number below 2^128 split into two registers is put together again (30_encoding.md R109). -/
theorem ofNat_halves (n : Nat) (h : n < 2 ^ 128) :
    (BitVec.ofNat 64 (n / 2 ^ 64)).toNat * 2 ^ 64 + (BitVec.ofNat 64 n).toNat = n := by
  simp only [BitVec.toNat_ofNat]; omega

theorem Context.position_lt (c : Context) : c.position < 2 ^ 71 := by
  have := c.ctr.isLt
  have := c.ofs.isLt
  simp only [Context.position]; omega

/-- SEEK and SET_WPOS on a READY context of the kind they need. -/
theorem State.seekTo_ready {s : State} {e : Engine} {k : Kind} {f : Engine → Nat} (he : s.engine? = some e) (hr : e.ctx.Ready k) :
    s.seekTo k f =
      if maxCtr e.ctx.cw64 < f e / 64 then s.raise e .seekOutOfRange else s.complete { e with ctx := e.ctx.moveTo (f e) } := by
  rw [State.seekTo, State.onEngine_some he, Context.requireReady_none.mpr hr]

/-- TELL and GET_WPOS on a READY context of the kind they need. -/
theorem State.report_ready {s : State} {e : Engine} {k : Kind} {f : Context → Nat} (he : s.engine? = some e) (hr : e.ctx.Ready k) :
    s.report k f = s.complete (e.setResult (f e.ctx)) := by
  rw [State.report, State.onEngine_some he, Context.requireReady_none.mpr hr]

/-- APPLY and FILL on a READY context of the kind they need, for a request within the keystream. -/
theorem State.stream_ready {s : State} {e : Engine} {k : Kind} {x : Bool} {m : Memory} (he : s.engine? = some e) (hr : e.ctx.Ready k)
    (hp : e.ctx.position + e.arg1.toNat ≤ endPos e.ctx.cw64) :
    s.stream k x m = if e.arg1 = 0 then s.complete e else s.resolve.streamAccess e x m := by
  rw [State.stream, State.onEngine_some he, Context.requireReady_none.mpr hr]
  simp only
  rw [if_neg (by omega)]

/-- INIT past its operand checks: it reads the key, then the nonce, and builds the context. -/
theorem State.runInit_reads {s : State} {e : Engine} {r : Rounds} {c : Bool} {v : Reads} {form : NonceForm} (he : s.engine? = some e)
    (h1 : e.arg1 = 32) (hf : NonceForm.ofInitLength e.arg3 = some form) (hc : (e.initialCounter c).toNat ≤ maxCtr form.cw64) :
    s.runInit r c v =
      s.readInput e.zeroize v.key e.arg0.toNat 32 fun key =>
        s.readInput e.zeroize v.nonce e.arg2.toNat form.bytes fun nonce =>
          State.complete (if form = .extended then s.resolve else s)
            { e with ctx := form.cipherContext r key nonce (e.initialCounter c) } := by
  rw [State.runInit, State.onEngine_some he, State.initCipher, if_neg (by simp [h1])]
  simp only [Engine.zeroize_arg3, hf]
  rw [if_neg (show ¬maxCtr form.cw64 < (e.zeroize.initialCounter c).toNat from Nat.not_lt.mpr hc)]
  rfl

/-- GEN_INIT past its operand checks: it reads the seed and, where there is one, the stream id. -/
theorem State.runGenInit_reads {s : State} {e : Engine} {r : Rounds} {v : Reads} {form : NonceForm} (he : s.engine? = some e) (h1 : e.arg1 = 32)
    (hf : NonceForm.ofStreamLength e.arg3 = some form) :
    s.runGenInit r v =
      s.readInput e.zeroize v.key e.arg0.toNat 32 fun seed =>
        if e.arg3 = 0 then s.complete { e with ctx := form.generatorContext r seed (List.replicate 8 0) }
        else s.readInput e.zeroize v.nonce e.arg2.toNat form.bytes fun sid =>
          s.complete { e with ctx := form.generatorContext r seed sid } := by
  rw [State.runGenInit, State.onEngine_some he, State.initGenerator, if_neg (by simp [h1])]
  simp only [Engine.zeroize_arg3, hf]
  rfl

/-- DERIVE past its operand checks. -/
theorem State.runDerive_reads {s : State} {e : Engine} {r : Rounds} {v : Reads} (he : s.engine? = some e) (h1 : e.arg1 = 32) (h3 : e.arg3 = 24) :
    s.runDerive r v =
      s.readInput e v.key e.arg0.toNat 32 fun key =>
        s.readInput e v.nonce e.arg2.toNat 24 fun nonce =>
          s.resolve.writeOutput e e.arg5.toNat 44 ((subkey (byteVector 32 key) nonce r).toList ++ subnonce nonce) := by
  rw [State.runDerive, State.onEngine_some he, if_neg (by simp [h1]), if_neg (by simp [h3])]

/-- BLOCKS past its operand checks. -/
theorem State.runBlocks_reads {s : State} {e : Engine} {r : Rounds} {v : Reads} {form : NonceForm} (he : s.engine? = some e) (h1 : e.arg1 = 32)
    (hf : NonceForm.ofBlockLength e.arg3 = some form) (hc : e.arg4.toNat ≤ maxCtr form.cw64)
    (hn : e.arg4.toNat + e.arg6.toNat ≤ maxCtr form.cw64 + 1) :
    s.runBlocks r v =
      s.readInput e v.key e.arg0.toNat 32 fun key =>
        s.readInput e v.nonce e.arg2.toNat form.bytes fun nonce =>
          if e.arg6 = 0 then s.complete e
          else s.resolve.writeOutput e e.arg5.toNat (64 * e.arg6.toNat) (s.resolve.blocksOutput e r key (form.blockNonce nonce)) := by
  rw [State.runBlocks, State.onEngine_some he, if_neg (by simp [h1])]
  simp only [hf]
  rw [if_neg (by omega), if_neg (by omega)]

/-- Everything `seekTo` can do when it answers a next state. -/
theorem State.seekTo_next {s t : State} {k : Kind} {f : Engine → Nat} (h : s.seekTo k f = .next t) :
    ∃ e, s.engine? = some e ∧
      ((∃ code, e.ctx.requireReady k = some code ∧ t = s.putEngine { e with err := code }) ∨
      (e.ctx.Ready k ∧ maxCtr e.ctx.cw64 < f e / 64 ∧ t = s.putEngine { e with err := .seekOutOfRange }) ∨
      (e.ctx.Ready k ∧ f e / 64 ≤ maxCtr e.ctx.cw64 ∧ t = s.putEngine { e with ctx := e.ctx.moveTo (f e), err := .ok })) := by
  obtain ⟨e, he, h⟩ := State.onEngine_next h
  refine ⟨e, he, ?_⟩
  split at h
  · next code hc => cases h; exact .inl ⟨code, hc, rfl⟩
  · next hc =>
    split at h
    · next hl => cases h; exact .inr (.inl ⟨Context.requireReady_none.mp hc, hl, rfl⟩)
    · next hl => cases h; exact .inr (.inr ⟨Context.requireReady_none.mp hc, Nat.le_of_not_lt hl, rfl⟩)

/-- Everything `report` can do when it answers a next state. -/
theorem State.report_next {s t : State} {k : Kind} {f : Context → Nat} (h : s.report k f = .next t) :
    ∃ e, s.engine? = some e ∧
      ((∃ code, e.ctx.requireReady k = some code ∧ t = s.putEngine { e with err := code }) ∨
      (e.ctx.Ready k ∧ t = s.putEngine { e.setResult (f e.ctx) with err := .ok })) := by
  obtain ⟨e, he, h⟩ := State.onEngine_next h
  refine ⟨e, he, ?_⟩
  split at h
  · next code hc => cases h; exact .inl ⟨code, hc, rfl⟩
  · next hc => cases h; exact .inr ⟨Context.requireReady_none.mp hc, rfl⟩

/-- Everything `initCipher` can do when it answers a next state, for an instance whose context is already zero: an
error that leaves it so, or the new context. -/
theorem State.initCipher_next {s t : State} {e : Engine} {r : Rounds} {c : Bool} {v : Reads}
    (h : s.initCipher e r c v = .next t) :
    (∃ code, code ≠ .ok ∧ code ≠ .busFault ∧ t = s.putEngine { e with err := code }) ∨
    (∃ x, t = s.putEngine { e with res0 := BitVec.ofNat 64 x, res1 := 0, err := .busFault }) ∨
    ∃ form, NonceForm.ofInitLength e.arg3 = some form ∧ (e.initialCounter c).toNat ≤ maxCtr form.cw64 ∧
      t = State.putEngine (if form = .extended then s.resolve else s)
        { e with
          ctx := form.cipherContext r (Memory.readBytes v.key e.arg0.toNat 32) (Memory.readBytes v.nonce e.arg2.toNat form.bytes)
            (e.initialCounter c)
          err := .ok } := by
  unfold State.initCipher at h
  split at h
  · cases h; exact .inl ⟨_, by decide, by decide, rfl⟩
  · split at h
    · cases h; exact .inl ⟨_, by decide, by decide, rfl⟩
    · next form hf =>
      split at h
      · cases h; exact .inl ⟨_, by decide, by decide, rfl⟩
      · next hc =>
        rcases State.readInput_next h with ⟨-, h⟩ | ⟨x, rfl⟩
        · rcases State.readInput_next h with ⟨-, h⟩ | ⟨x, rfl⟩
          · cases h; exact .inr (.inr ⟨form, hf, Nat.le_of_not_lt hc, rfl⟩)
          · exact .inr (.inl ⟨x, rfl⟩)
        · exact .inr (.inl ⟨x, rfl⟩)

/-- Everything `initGenerator` can do when it answers a next state, for an instance whose context is already zero. -/
theorem State.initGenerator_next {s t : State} {e : Engine} {r : Rounds} {v : Reads} (h : s.initGenerator e r v = .next t) :
    (∃ code, code ≠ .ok ∧ code ≠ .busFault ∧ t = s.putEngine { e with err := code }) ∨
    (∃ x, t = s.putEngine { e with res0 := BitVec.ofNat 64 x, res1 := 0, err := .busFault }) ∨
    ∃ form sid, NonceForm.ofStreamLength e.arg3 = some form ∧
      (e.arg3 = 0 ∧ sid = List.replicate 8 0 ∨ e.arg3 ≠ 0 ∧ sid = Memory.readBytes v.nonce e.arg2.toNat form.bytes) ∧
      t = s.putEngine { e with
        ctx := form.generatorContext r (Memory.readBytes v.key e.arg0.toNat 32) sid
        err := .ok } := by
  unfold State.initGenerator at h
  split at h
  · cases h; exact .inl ⟨_, by decide, by decide, rfl⟩
  · split at h
    · cases h; exact .inl ⟨_, by decide, by decide, rfl⟩
    · next form hf =>
      rcases State.readInput_next h with ⟨-, h⟩ | ⟨x, rfl⟩
      · split at h
        · next h0 => cases h; exact .inr (.inr ⟨form, _, hf, .inl ⟨h0, rfl⟩, rfl⟩)
        · next h0 =>
          rcases State.readInput_next h with ⟨-, h⟩ | ⟨x, rfl⟩
          · cases h; exact .inr (.inr ⟨form, _, hf, .inr ⟨h0, rfl⟩, rfl⟩)
          · exact .inr (.inl ⟨x, rfl⟩)
      · exact .inr (.inl ⟨x, rfl⟩)

/-- Everything DERIVE can do when it answers a next state. -/
theorem State.runDerive_next {s t : State} {r : Rounds} {v : Reads} (h : s.runDerive r v = .next t) :
    ∃ e, s.engine? = some e ∧
      ((∃ code, code ≠ .busFault ∧ t = s.putEngine { e with err := code }) ∨
      (∃ x, t = s.putEngine { e with res0 := BitVec.ofNat 64 x, res1 := 0, err := .busFault }) ∨
      ∃ out, out.length = 44 ∧ s.resolve.writeOutput e e.arg5.toNat 44 out = .next t) := by
  obtain ⟨e, he, h⟩ := State.onEngine_next h
  refine ⟨e, he, ?_⟩
  split at h
  · cases h; exact .inl ⟨_, by decide, rfl⟩
  · split at h
    · cases h; exact .inl ⟨_, by decide, rfl⟩
    · rcases State.readInput_next h with ⟨-, h⟩ | ⟨x, rfl⟩
      · rcases State.readInput_next h with ⟨-, h⟩ | ⟨x, rfl⟩
        · exact .inr (.inr ⟨_, by simp [subnonce], h⟩)
        · exact .inr (.inl ⟨x, rfl⟩)
      · exact .inr (.inl ⟨x, rfl⟩)

/-- Everything BLOCKS can do when it answers a next state. -/
theorem State.runBlocks_next {s t : State} {r : Rounds} {v : Reads} (h : s.runBlocks r v = .next t) :
    ∃ e, s.engine? = some e ∧
      ((∃ code, code ≠ .busFault ∧ t = s.putEngine { e with err := code }) ∨
      (∃ x, t = s.putEngine { e with res0 := BitVec.ofNat 64 x, res1 := 0, err := .busFault }) ∨
      ∃ out, out.length = 64 * e.arg6.toNat ∧ s.resolve.writeOutput e e.arg5.toNat (64 * e.arg6.toNat) out = .next t) := by
  obtain ⟨e, he, h⟩ := State.onEngine_next h
  refine ⟨e, he, ?_⟩
  split at h
  · cases h; exact .inl ⟨_, by decide, rfl⟩
  · split at h
    · cases h; exact .inl ⟨_, by decide, rfl⟩
    · split at h
      · cases h; exact .inl ⟨_, by decide, rfl⟩
      · split at h
        · cases h; exact .inl ⟨_, by decide, rfl⟩
        · rcases State.readInput_next h with ⟨-, h⟩ | ⟨x, rfl⟩
          · rcases State.readInput_next h with ⟨-, h⟩ | ⟨x, rfl⟩
            · split at h
              · cases h; exact .inl ⟨_, by decide, rfl⟩
              · exact .inr (.inr ⟨_, State.blocksOutput_length .., h⟩)
            · exact .inr (.inl ⟨x, rfl⟩)
          · exact .inr (.inl ⟨x, rfl⟩)

end Sys2Proof.Machine
end

