-- ==== Sys2Proof/Laws/PerInstr.lean ====
section
/-! SUPPORT. Per command: its word passes every check of 30_encoding.md R105 and has its bits 63:11 clear (R100), and a
command takes a round count exactly if its opcode does (R103). -/

namespace Sys2Proof.Laws.CommandWord

/-- The word of a command is one of the legal words, below 2^11, and carries a round count only where one is meant. -/
def Statement (i : Instr) : Prop :=
  WellFormed.commandWord (encode i) = true ∧ (encode i).toNat < 2 ^ 11 ∧
    (WellFormed.takesRounds (encode i) = false → roundsField i = 0#2)

theorem init (r : Rounds) (c : Bool) : Statement (.init r c) := by cases r <;> cases c <;> (unfold Statement; decide)
theorem apply : Statement .apply := by (unfold Statement; decide)
theorem seek : Statement .seek := by (unfold Statement; decide)
theorem tell : Statement .tell := by (unfold Statement; decide)
theorem zeroize : Statement .zeroize := by (unfold Statement; decide)
theorem genInit (r : Rounds) : Statement (.genInit r) := by cases r <;> (unfold Statement; decide)
theorem fill : Statement .fill := by (unfold Statement; decide)
theorem setWpos : Statement .setWpos := by (unfold Statement; decide)
theorem getWpos : Statement .getWpos := by (unfold Statement; decide)
theorem derive (r : Rounds) : Statement (.derive r) := by cases r <;> (unfold Statement; decide)
theorem blocks (r : Rounds) : Statement (.blocks r) := by cases r <;> (unfold Statement; decide)

end Sys2Proof.Laws.CommandWord
end

