-- ==== Sys2Proof/Machine/Assembler.lean ====
section
/-! DEFINITION. The assembler's language of 30_encoding.md R110–R112 as data: the three operations, the rules of a
command's spelling (R111), the pseudo-instructions with their expansions (R112), and the bus accesses they encode to. -/

namespace Sys2Proof.Machine

/-- The mnemonics of 30_encoding.md R102. -/
inductive Mnemonic where
  | init
  | apply
  | seek
  | tell
  | zeroize
  | genInit
  | fill
  | setWpos
  | getWpos
  | derive
  | blocks
deriving DecidableEq, Repr

/-- `<MNEMONIC>[.r<8|12|20>][.c]` (30_encoding.md R110). -/
structure Spelling where
  mnemonic : Mnemonic
  rounds : Option Rounds
  counter : Bool
deriving DecidableEq, Repr

/-- The command a spelling stands for: ".rN is mandatory for INIT, GEN_INIT, DERIVE and BLOCKS, and forbidden
elsewhere; .c is allowed only on INIT" (30_encoding.md R111). -/
def Spelling.command (sp : Spelling) : Option Instr :=
  match sp.mnemonic, sp.rounds, sp.counter with
  | .init, some r, c => some (.init r c)
  | .genInit, some r, false => some (.genInit r)
  | .derive, some r, false => some (.derive r)
  | .blocks, some r, false => some (.blocks r)
  | .apply, none, false => some .apply
  | .seek, none, false => some .seek
  | .tell, none, false => some .tell
  | .zeroize, none, false => some .zeroize
  | .fill, none, false => some .fill
  | .setWpos, none, false => some .setWpos
  | .getWpos, none, false => some .getWpos
  | _, _, _ => none

/-- The spelling of a command (30_encoding.md R114). -/
def Spelling.ofCommand : Instr → Spelling
  | .init r c => ⟨.init, some r, c⟩
  | .apply => ⟨.apply, none, false⟩
  | .seek => ⟨.seek, none, false⟩
  | .tell => ⟨.tell, none, false⟩
  | .zeroize => ⟨.zeroize, none, false⟩
  | .genInit r => ⟨.genInit, some r, false⟩
  | .fill => ⟨.fill, none, false⟩
  | .setWpos => ⟨.setWpos, none, false⟩
  | .getWpos => ⟨.getWpos, none, false⟩
  | .derive r => ⟨.derive, some r, false⟩
  | .blocks r => ⟨.blocks, some r, false⟩

/-- The registers `rd` may name (30_encoding.md R110). -/
inductive Readable where
  | status
  | arg (i : Fin 7)
  | res0
  | res1
deriving DecidableEq, Repr

/-- The three operations of a host program (30_encoding.md R110). A `rd`'s name is the host's own, not the engine's. -/
inductive AsmOp where
  | wr (i : Fin 7) (value : Word)
  | rd (r : Readable)
  | cmd (i : Instr)
deriving DecidableEq, Repr

/-- Window offsets of the registers `rd` may name (10_state.md R31). -/
def Readable.offset : Readable → Nat
  | .status => 0x08
  | .arg i => 0x10 + 8 * i.val
  | .res0 => 0x50
  | .res1 => 0x58

/-- The host address of an offset in instance k's window (10_state.md R31). -/
def Params.windowAddress (p : Params) (k off : Nat) : Word := p.engineBase + BitVec.ofNat 64 (k * 0x100 + off)

/-- "Each operation is encoded as a bus access" (30_encoding.md R111), here of host agent `agent` to the window of
instance k. -/
def AsmOp.busAccess (p : Params) (agent k : Nat) : AsmOp → HostOp
  | .wr i v => .regWrite agent (Params.windowAddress p k (0x10 + 8 * i.val)) 64 v
  | .rd r => .regRead agent (Params.windowAddress p k r.offset) 64
  | .cmd i => .regWrite agent (Params.windowAddress p k 0) 64 (encode i)

/-- The pseudo-instructions (30_encoding.md R112); positions are natural numbers. -/
inductive Pseudo where
  | init (r : Rounds) (key klen nonce nlen : Word)
  | initCounter (r : Rounds) (key klen nonce nlen ctr : Word)
  | apply (buf len : Word)
  | fill (buf len : Word)
  | seek (p : Nat)
  | setwpos (n : Nat)
  | tell
  | getwpos
  | geninit (r : Rounds) (seed sid slen : Word)
  | derive (r : Rounds) (key nonce out : Word)
  | blocks (r : Rounds) (key nonce nlen ctr out n : Word)
  | tryApply (buf len : Word)
deriving DecidableEq, Repr

/-- "An assembler expands each into the listed operations, in order" (30_encoding.md R112). DESIGN CHOICE (log 19): for a
position of 2^128 or more, whose `div 2^64` is no 64-bit value, the rule is silent; the model takes its low 64 bits, so that
`seek 2^128` is a SEEK to 0. -/
def Pseudo.expand : Pseudo → List AsmOp
  | .init r key klen nonce nlen => [.wr 0 key, .wr 1 klen, .wr 2 nonce, .wr 3 nlen, .cmd (.init r false)]
  | .initCounter r key klen nonce nlen ctr => [.wr 0 key, .wr 1 klen, .wr 2 nonce, .wr 3 nlen, .wr 4 ctr, .cmd (.init r true)]
  | .apply buf len => [.wr 0 buf, .wr 1 len, .cmd .apply]
  | .fill buf len => [.wr 0 buf, .wr 1 len, .cmd .fill]
  | .seek p => [.wr 0 (BitVec.ofNat 64 p), .wr 1 (BitVec.ofNat 64 (p / 2 ^ 64)), .cmd .seek]
  | .setwpos n => [.wr 0 (BitVec.ofNat 64 n), .wr 1 (BitVec.ofNat 64 (n / 2 ^ 64)), .cmd .setWpos]
  | .tell => [.cmd .tell, .rd .res0, .rd .res1]
  | .getwpos => [.cmd .getWpos, .rd .res0, .rd .res1]
  | .geninit r seed sid slen => [.wr 0 seed, .wr 1 32, .wr 2 sid, .wr 3 slen, .cmd (.genInit r)]
  | .derive r key nonce out => [.wr 0 key, .wr 1 32, .wr 2 nonce, .wr 3 24, .wr 5 out, .cmd (.derive r)]
  | .blocks r key nonce nlen ctr out n =>
    [.wr 0 key, .wr 1 32, .wr 2 nonce, .wr 3 nlen, .wr 4 ctr, .wr 5 out, .wr 6 n, .cmd (.blocks r)]
  | .tryApply buf len => [.wr 0 buf, .wr 1 len, .cmd .apply, .rd .status]

/-- The result of `try_apply`: "e = s[11:8]" of the STATUS value read (30_encoding.md R112). -/
def errorField (status : Word) : BitVec 4 := status.extractLsb' 8 4

/-- A host program as the host's operation list (30_encoding.md R110–R112). -/
def assemble (p : Params) (agent k : Nat) (program : List Pseudo) : List HostOp :=
  (program.flatMap Pseudo.expand).map (AsmOp.busAccess p agent k)

end Sys2Proof.Machine
end

