-- ==== Sys2Proof/Tests/Slice0.lean ====
section
/-! SUPPORT. The model's own tests: ill-formed words, words written out bit by bit, one-step tests whose expected results
are those of 95_test_vectors.md, and for every statement with hypotheses a state and operands that meet them. -/

namespace Sys2Proof.Tests

open Sys2Proof.Machine

/-! ### Small states -/

/-- Bytes from numbers. -/
def bytes (l : List Nat) : List Byte := l.map (BitVec.ofNat 8)

/-- K0 and N8 of 95_test_vectors.md §0 are counting bytes. -/
def counting (n : Nat) : List Byte := (List.range n).map (BitVec.ofNat 8)

/-- NB of 95_test_vectors.md §0. -/
def nb : List Byte := bytes [0, 0, 0, 9, 0, 0, 0, 0x4a, 0, 0, 0, 0]

/-- N24 of 95_test_vectors.md §0. -/
def n24 : List Byte := nb ++ bytes [0x31, 0x41, 0x59, 0x27] ++ counting 8

/-- Host memory with the given pieces. -/
def memory (pieces : List (Nat × List Byte)) : Memory := pieces.foldl (fun m p => Memory.writeBytes m p.1 p.2) []

/-- An instance with the given ARG registers and context. -/
def eng (a0 a1 a2 a3 a4 a5 a6 : Word) (c : Context) : Engine :=
  { Engine.zero with arg0 := a0, arg1 := a1, arg2 := a2, arg3 := a3, arg4 := a4, arg5 := a5, arg6 := a6, ctx := c }

/-- The reset machine with that one instance and that host memory. -/
def st (e : Engine) (m : Memory) : State := { State.reset with engines := [e], mem := m }

/-- The same, where accesses of one kind to one byte are not admitted. -/
def denying (e : Engine) (m : Memory) (k : AccessKind) (x : Nat) : State :=
  { st e m with params := { Params.default with hostDenied := [⟨k, x, 1⟩] } }

/-- The machine whose host has one operation to do. -/
def host (op : HostOp) : State := { st (eng 0 0 0 0 0 0 0 Context.zero) [] with hostOps := [op] }

/-- A READY cipher after INIT(K0, NB) with 20 rounds (V-I1). -/
def cipher : Context := Context.construct .cipher .r20 false (byteVector 32 (counting 32)) (byteVector 12 nb) 0

/-- The same with the 64-bit counter and nonce N8. -/
def wideCipher : Context :=
  Context.construct .cipher .r20 true (byteVector 32 (counting 32)) (byteVector 12 (counting 8 ++ bytes [0, 0, 0, 0])) 0

/-- A READY generator with seed K0 and no stream id (V-G1). -/
def generator : Context := Context.construct .generator .r20 true (byteVector 32 (counting 32)) (Vector.replicate 12 0) 0

/-- A FAULT context (as after V-A6). -/
def faulted : Context := { cipher with cstate := .fault }

/-- A cursor at the end of its keystream. -/
def atEnd (c : Context) : Context :=
  { c with ctr := BitVec.ofNat 64 (maxCtr c.cw64), ofs := 64, bufv := true, buf := block c.key c.nv (BitVec.ofNat 64 (maxCtr c.cw64)) c.rnd }

/-- Check the next state and the active instance of an outcome. -/
def after (o : StepOutcome) (check : State → Engine → Bool) : Bool :=
  match o with
  | .next t => match t.engine? with
    | some e => check t e
    | none => false
  | .fault _ => false
  | .refused _ => false

/-! ### Well-formedness: an ill-formed word for each check, and ill-formed spellings -/

theorem test_reservedBits_refused : WellFormed.reservedClear 0x801 = false ∧ WellFormed.commandWord 0x801 = false := by decide
theorem test_reservedBit63_refused : WellFormed.reservedClear 0x8000000000000001 = false := by decide
theorem test_unlistedOpcode_refused : WellFormed.opcodeListed 0x006 = false ∧ WellFormed.commandWord 0x006 = false := by decide
theorem test_reservedRounds_refused : WellFormed.roundsLegal 0x301 = false ∧ WellFormed.commandWord 0x301 = false := by decide
theorem test_misplacedRounds_refused : WellFormed.roundsLegal 0x102 = false ∧ WellFormed.commandWord 0x102 = false := by decide
theorem test_misplacedCounter_refused : WellFormed.counterFlagLegal 0x410 = false ∧ WellFormed.commandWord 0x410 = false := by decide
theorem test_takesRounds_not_apply : WellFormed.takesRounds 0x002 = false := by decide
theorem test_spelling_needs_rounds : Spelling.command ⟨.init, none, false⟩ = none := by decide
theorem test_spelling_forbids_rounds : Spelling.command ⟨.apply, some .r8, false⟩ = none := by decide
theorem test_spelling_forbids_counter : Spelling.command ⟨.blocks, some .r8, true⟩ = none := by decide

/-! ### Decoding: words written out from 30_encoding.md R100, R102, R103: 63:11 zero, C, RND, OP -/

theorem test_decode_init : decode (0#53 ++ 1#1 ++ 0b10#2 ++ 0b00000001#8) = .ok (.init .r20 true) := by decide
theorem test_decode_init8 : decode (0#53 ++ 0#1 ++ 0b00#2 ++ 0b00000001#8) = .ok (.init .r8 false) := by decide
theorem test_decode_apply : decode (0#53 ++ 0#1 ++ 0b00#2 ++ 0b00000010#8) = .ok .apply := by decide
theorem test_decode_seek : decode (0#53 ++ 0#1 ++ 0b00#2 ++ 0b00000011#8) = .ok .seek := by decide
theorem test_decode_tell : decode (0#53 ++ 0#1 ++ 0b00#2 ++ 0b00000100#8) = .ok .tell := by decide
theorem test_decode_zeroize : decode (0#53 ++ 0#1 ++ 0b00#2 ++ 0b00000101#8) = .ok .zeroize := by decide
theorem test_decode_genInit : decode (0#53 ++ 0#1 ++ 0b01#2 ++ 0b00001000#8) = .ok (.genInit .r12) := by decide
theorem test_decode_fill : decode (0#53 ++ 0#1 ++ 0b00#2 ++ 0b00001001#8) = .ok .fill := by decide
theorem test_decode_setWpos : decode (0#53 ++ 0#1 ++ 0b00#2 ++ 0b00001010#8) = .ok .setWpos := by decide
theorem test_decode_getWpos : decode (0#53 ++ 0#1 ++ 0b00#2 ++ 0b00001011#8) = .ok .getWpos := by decide
theorem test_decode_derive : decode (0#53 ++ 0#1 ++ 0b10#2 ++ 0b00010000#8) = .ok (.derive .r20) := by decide
theorem test_decode_blocks : decode (0#53 ++ 0#1 ++ 0b01#2 ++ 0b00010001#8) = .ok (.blocks .r12) := by decide

/-- 30_encoding.md R106: each of the rule's cases is refused under its own name. -/
theorem test_decode_errors :
    decode 0x801 = .error .reservedBits ∧ decode 0x00C = .error .reservedOpcode ∧ decode 0x311 = .error .reservedRounds ∧
    decode 0x411 = .error .misplacedCounterFlag ∧ decode 0x30A = .error .misplacedRounds ∧
    decode 0x409 = .error .misplacedRounds := by decide

theorem test_decodeTableWord : decodeTableWord 64 0x601 = some (.init .r20 true) ∧ decodeTableWord 64 0x602 = none := by decide

/-- A placed command is the very next step: ZEROIZE on the reset machine ends with STATUS 0 (V-Z2), APPLY with
NotInitialized (V-A5). -/
theorem test_withFetchWord :
    after (step (State.reset.withFetchWord 64 0x005)) (fun t e => t.pc == 1 && e.status == 0) = true ∧
    after (step (State.reset.withFetchWord 64 0x002)) (fun t e => t.pc == 1 && e.status == 0x600) = true := by decide

/-! ### The host's side -/

/-- §6: an illegal word on a READY context after `apply 0x1100, 5`: STATUS 0x185 and nothing else. -/
theorem test_illegal_word :
    after (step { st (eng 0x1100 5 0 0 0 0 0 { cipher with ofs := 5, bufv := true }) [] with
        hostOps := [.regWrite 0 0x8000000000000000 64 0x801] })
      (fun _ e => e == { eng 0x1100 5 0 0 0 0 0 { cipher with ofs := 5, bufv := true } with err := .illegalCommand } &&
        e.status == 0x185) = true := by decide

/-- 30_encoding.md R111: `wr ARG6, v` is a write at offset 0x40, `rd STATUS` a read at 0x08. -/
theorem test_bus_offsets :
    AsmOp.busAccess Params.default 0 0 (.wr 6 5) = .regWrite 0 0x8000000000000040 64 5 ∧
    AsmOp.busAccess Params.default 0 2 (.rd .status) = .regRead 0 0x8000000000000208 64 := by decide

/-! ### Witnesses: for every statement with hypotheses, a state and operands that meet them -/

theorem wit_DecodeAndEncodeAgree : Instr.wellFormed (.init .r20 true) = true := by decide

/-- One word for each of the five clauses. -/
theorem wit_ReservedEncodingsAreIllegal :
    (0x012 : Word).extractLsb' 0 8 ∉ [0x01#8, 0x02#8, 0x03#8, 0x04#8, 0x05#8, 0x08#8, 0x09#8, 0x0A#8, 0x0B#8, 0x10#8, 0x11#8] ∧
    (0x301 : Word).extractLsb' 8 2 = 3#2 ∧
    ((0x102 : Word).extractLsb' 0 8 ∉ [0x01#8, 0x08#8, 0x10#8, 0x11#8] ∧ (0x102 : Word).extractLsb' 8 2 ≠ 0#2) ∧
    ((0x402 : Word).extractLsb' 0 8 ≠ 0x01#8 ∧ (0x402 : Word).extractLsb' 10 1 = 1#1) ∧
    (0x801 : Word).extractLsb' 11 53 ≠ 0#53 ∧ (0x8000000000000001 : Word).extractLsb' 11 53 ≠ 0#53 := by decide

/-- The host writes a word to CMD of instance 0. -/
def issuing (w : Word) : State :=
  { st (eng 0x1000 1 0x2000 0 0 0 0 Context.zero) [] with hostOps := [.regWrite 0 0x8000000000000000 64 w] }

theorem st_windowOf (e : Engine) : State.windowOf (st e []) 0x8000000000000000 = some (0, 0) := by
  have h : State.windowOf (st Engine.zero []) 0x8000000000000000 = some (0, 0) := by decide
  exact h

theorem issuing_nextIsCommand (w : Word) : (issuing w).NextIsCommand 0 0 w :=
  ⟨0x8000000000000000, ⟨rfl, rfl⟩, st_windowOf _⟩

/-- Agent 3's APPLY of 8 bytes at 0x1100 is in flight on instance 1, and agent 1 has written its last byte. -/
def racedFlight : Flight := ⟨3, 1, .apply, #v[0x1100, 8, 0, 0, 0, 0, 0], [(.write, 0x1107, 1)]⟩

/-- Two instances; the second has the raced command in flight, and agent 0 of the host has one operation to do. -/
def busy (e : Engine) (op : HostOp) : State :=
  { st e [] with engines := [e, eng 9 9 9 9 9 9 9 cipher], pending := [racedFlight], hostOps := [op] }

theorem busy_windowOf (e : Engine) (op : HostOp) : State.windowOf (busy e op) 0x8000000000000000 = some (0, 0) := by
  have h : State.windowOf (busy Engine.zero .powerOnReset) 0x8000000000000000 = some (0, 0) := by decide
  exact h

theorem busy_awaited (e : Engine) (op : HostOp) (h : op.waitsFor (busy Engine.zero .powerOnReset) racedFlight = false) :
    (busy e op).awaited op = none := by
  have h' : op.waitsFor (busy e op) racedFlight = false := h
  show List.find? (op.waitsFor (busy e op)) [racedFlight] = none
  rw [List.find?_cons, h']
  rfl

/-- An APPLY next to the one in flight, a command that begins and overlaps it at its last byte, and the three ways in which
the one in flight completes. -/
theorem wit_StepRunsTheDecodedCommand :
    let quiet := eng 0x1000 1 0x2000 0 0 0 0 Context.zero
    let op : HostOp := .regWrite 0 0x8000000000000000 64 0x002
    let begins : HostOp := .beginWrite 0 0x8000000000000000 64 0x002
    let done : HostOp := .completes 1
    let waits : HostOp := .memRead 3 0x9000
    decode 0x002 = .ok .apply ∧ Instr.wellFormed .apply = true ∧ (busy quiet op).engines[0]? = some quiet ∧
    (busy quiet op).NextIsCommand 0 0 0x002 ∧ (busy quiet op).racedBy (accessRanges .apply quiet) = [] ∧
    (busy quiet begins).NextBegins 0 0 0x002 ∧
    (busy quiet begins).racedBy [(.write, 0x1107, 1)] ≠ [] ∧
    (busy quiet done).NextCompletes racedFlight 1 ∧ (busy quiet waits).NextCompletes racedFlight 0 ∧
    State.NextCompletes { busy quiet op with hostOps := [] } racedFlight 0 ∧
    (busy quiet done).engines[racedFlight.inst]? = some (eng 9 9 9 9 9 9 9 cipher) := by
  refine ⟨by decide, by decide, rfl, ⟨_, ⟨rfl, busy_awaited _ _ (by decide)⟩, busy_windowOf _ _⟩, by decide,
    ⟨_, ⟨rfl, busy_awaited _ _ (by decide)⟩, busy_windowOf _ _⟩, by decide, .inl ⟨⟨rfl, busy_awaited _ _ (by decide)⟩, rfl, rfl⟩,
    .inr (.inl ⟨_, rfl, rfl, rfl⟩), .inr (.inr ⟨rfl, rfl, rfl⟩), rfl⟩

/-- What races with nothing in flight is quiet; the APPLY above is. -/
theorem quiet_of_racedBy {s : State} {mine : List AccessRange} (h : s.racedBy mine = []) : s.Quiet mine := by
  intro f hf kind x hx
  obtain ⟨r, hr, -⟩ := (State.mem_racedBy s mine kind x).mpr ⟨f, hf, hx⟩
  rw [h] at hr
  cases hr

theorem wit_IllegalCommandChangesOnlyErr :
    let e := eng 0x1000 1 0x2000 0 0 0 0 Context.zero
    (issuing 0x000).NextIsCommand 0 0 0x000 ∧ decode 0x000 = .error .reservedOpcode ∧ (issuing 0x000).engines[0]? = some e ∧
    (busy e (.beginWrite 0 0x8000000000000000 64 0x000)).NextBegins 0 0 0x000 ∧
    (busy e (.beginWrite 0 0x8000000000000000 64 0x000)).engines[0]? = some e :=
  ⟨issuing_nextIsCommand _, by decide, rfl, ⟨_, ⟨rfl, busy_awaited _ _ (by decide)⟩, busy_windowOf _ _⟩, rfl⟩

/-- The last byte of the last of two windows that end at 2^64. -/
theorem wit_WindowAddressesResolve :
    let s := State.powerOn { Params.default with engineBase := 0xFFFFFFFFFFFFFE00 } 2
    1 < s.engines.length ∧ 0xFF < 0x100 ∧ s.params.engineBase.toNat + 0x100 * s.engines.length ≤ 2 ^ 64 ∧
    s.windowOf 0xFFFFFFFFFFFFFFFF = some (1, 0xFF) := by decide

/-- Every offset of a window that a clause names, its first and its last one. -/
theorem wit_RegisterReads :
    ∀ off ∈ [0x00, 0x08, 0x10, 0x18, 0x20, 0x28, 0x30, 0x38, 0x40, 0x48, 0x50, 0x58, 0x60, 0xF8],
      let addr : Word := 0x8000000000000000 + BitVec.ofNat 64 off
      (host (.regRead 3 addr 64)).Performs (.regRead 3 addr 64) ∧
      (host (.regRead 3 addr 64)).windowOf addr = some (0, off) ∧ off % 8 = 0 ∧
      (host (.regRead 3 addr 64)).engines[0]? = some (eng 0 0 0 0 0 0 0 Context.zero) := by
  unfold State.Performs
  decide

theorem wit_IneffectiveAccesses_reads :
    ∀ off ∈ [0x48, 0x60, 0xF8],
      let addr : Word := 0x8000000000000000 + BitVec.ofNat 64 off
      (host (.regRead 3 addr 64)).windowOf addr = some (0, off) ∧ off % 8 = 0 ∧ 0 < (host (.regRead 3 addr 64)).engines.length ∧
      (off = 0x48 ∨ (0x60 ≤ off ∧ off ≤ 0xF8)) ∧
      (host (.regRead 3 addr 64)).Performs (.regRead 3 addr 64) := by
  unfold State.Performs
  decide

theorem wit_IneffectiveAccesses_writes :
    ∀ off ∈ [0x48, 0x60, 0xF8, 0x08, 0x50, 0x58],
      let addr : Word := 0x8000000000000000 + BitVec.ofNat 64 off
      (host (.regWrite 3 addr 64 9)).windowOf addr = some (0, off) ∧ off % 8 = 0 ∧
      0 < (host (.regWrite 3 addr 64 9)).engines.length ∧
      (off = 0x48 ∨ (0x60 ≤ off ∧ off ≤ 0xF8) ∨ off = 0x08 ∨ off = 0x50 ∨ off = 0x58) ∧
      (host (.regWrite 3 addr 64 9)).Performs (.regWrite 3 addr 64 9) ∧
      (host (.beginWrite 3 addr 64 9)).Performs (.beginWrite 3 addr 64 9) := by
  unfold State.Performs
  decide

theorem wit_ArgumentWritesStore :
    ∀ off ∈ [0x10, 0x18, 0x20, 0x28, 0x30, 0x38, 0x40],
      let addr : Word := 0x8000000000000000 + BitVec.ofNat 64 off
      (host (.regWrite 3 addr 64 9)).Performs (.regWrite 3 addr 64 9) ∧
      (host (.beginWrite 3 addr 64 9)).Performs (.beginWrite 3 addr 64 9) ∧
      (host (.regWrite 3 addr 64 9)).windowOf addr = some (0, off) ∧
      (host (.regWrite 3 addr 64 9)).engines[0]? = some (eng 0 0 0 0 0 0 0 Context.zero) := by
  unfold State.Performs
  decide

/-- Too narrow, too wide, misaligned; a read, a write and a write that begins. -/
theorem wit_OddRegisterAccessesRefused :
    ∀ p ∈ [(32, 0x10), (128, 0x10), (64, 0x14), (64, 0x11)],
      let addr : Word := 0x8000000000000000 + BitVec.ofNat 64 p.2
      (host (.regRead 3 addr p.1)).windowOf addr = some (0, p.2) ∧ (p.1 ≠ 64 ∨ p.2 % 8 ≠ 0) ∧
      (host (.regRead 3 addr p.1)).Performs (.regRead 3 addr p.1) ∧
      (host (.regWrite 3 addr p.1 9)).Performs (.regWrite 3 addr p.1 9) ∧
      (host (.beginWrite 3 addr p.1 9)).Performs (.beginWrite 3 addr p.1 9) := by
  unfold State.Performs
  decide

theorem construct_fresh_inv (k : Kind) (r : Rounds) (w : Bool) (key : Vector Byte 32) (n : Vector Byte 12)
    (hn : w = true → ∀ i : Fin 12, 8 ≤ i.val → n[i] = 0) : (Context.construct k r w key n 0).Inv where
  uninit h := by cases h
  counter _ := Nat.zero_le _
  offset _ := Nat.zero_le _
  exhausted _ h := by cases h
  buffered _ h := by cases h
  coherent _ h := by cases h
  shortNonce := hn

/-- The byte just below the windows, and the windows' first byte; a write next to the command in flight, and one into its
range. -/
theorem wit_HostByteWrites :
    (∀ k ∈ ([0x7FFFFFFFFFFFFFFF, 0x8000000000000000] : List Nat), let a : Word := BitVec.ofNat 64 k;
      (host (.memWrite 1 a 5)).Performs (.memWrite 1 a 5)) ∧
    (host (.memWrite 1 0x7FFFFFFFFFFFFFFF 5)).inWindow (0x7FFFFFFFFFFFFFFF : Word).toNat = false ∧
    (host (.memWrite 1 0x8000000000000000 5)).inWindow (0x8000000000000000 : Word).toNat = true ∧
    (busy Engine.zero (.memWrite 1 0x10FF 5)).Performs (.memWrite 1 0x10FF 5) ∧
    (busy Engine.zero (.memWrite 1 0x10FF 5)).racedBy [(.write, 0x10FF, 1)] = [] ∧
    (busy Engine.zero (.memWrite 1 0x1100 5)).Performs (.memWrite 1 0x1100 5) ∧
    (busy Engine.zero (.memWrite 1 0x1100 5)).racedBy [(.write, 0x1100, 1)] ≠ [] := by
  unfold State.Performs
  decide

/-- The bytes just behind the last window and at its end; a read next to the command in flight, and one in its range. -/
theorem wit_HostByteReads :
    (∀ k ∈ ([0x8000000000000100, 0x80000000000000FF] : List Nat), let a : Word := BitVec.ofNat 64 k;
      (host (.memRead 1 a)).Performs (.memRead 1 a)) ∧
    (host (.memRead 1 0x8000000000000100)).inWindow (0x8000000000000100 : Word).toNat = false ∧
    (host (.memRead 1 0x80000000000000FF)).inWindow (0x80000000000000FF : Word).toNat = true ∧
    (busy Engine.zero (.memRead 1 0x1108)).Performs (.memRead 1 0x1108) ∧
    (busy Engine.zero (.memRead 1 0x1108)).Quiet [(.read, 0x1108, 1)] ∧
    (busy Engine.zero (.memRead 1 0x1107)).Performs (.memRead 1 0x1107) ∧
    ¬(busy Engine.zero (.memRead 1 0x1107)).Quiet [(.read, 0x1107, 1)] := by
  refine ⟨?_, by decide, by decide, ⟨rfl, busy_awaited _ _ (by decide)⟩, quiet_of_racedBy (by decide),
    ⟨rfl, busy_awaited _ _ (by decide)⟩, fun h => ?_⟩
  · unfold State.Performs
    decide
  · exact absurd (State.Quiet.racedBy h) (by decide)

/-- With a command in flight, an address outside its output. -/
theorem wit_PowerOnResetClears :
    (busy Engine.zero .powerOnReset).hostOps[(busy Engine.zero .powerOnReset).pc]? = some .powerOnReset ∧
    (∀ f ∈ (busy Engine.zero .powerOnReset).pending, Untouched f.raced 0x1108 ∧
      ∀ a n, (.write, a, n) ∈ f.ranges → ¬InRange a n 0x1108) ∧
    (host .powerOnReset).pending = [] := by
  refine ⟨by decide, fun f hf => ?_, rfl⟩
  obtain rfl : f = racedFlight := List.mem_singleton.mp hf
  refine ⟨by unfold Untouched InRange; decide, fun a n h => ?_⟩
  have h' : ((.write, a, n) : AccessRange) ∈ ([(.read, 0x1100, 8), (.write, 0x1100, 8)] : List AccessRange) := h
  simp only [List.mem_cons, Prod.mk.injEq, List.not_mem_nil, or_false] at h'
  unfold InRange
  omega

/-- Each clause on CURSOR at the ends of its range. -/
theorem wit_StatusFields :
    Context.zero.cstate = .uninit ∧ cipher.cstate ≠ .uninit ∧
    (∀ o ∈ ([0, 63] : List (BitVec 7)), ({ cipher with ofs := o } : Context).bufv = false ∧ o.toNat ≤ 63) ∧
    (∀ o ∈ ([1, 63] : List (BitVec 7)), ({ cipher with ofs := o, bufv := true } : Context).bufv = true ∧ 1 ≤ o.toNat ∧ o.toNat ≤ 63) ∧
    ({ cipher with ofs := 64, bufv := true } : Context).bufv = true ∧ (64 : BitVec 7).toNat = 64 := by decide

theorem st_engine? (e : Engine) (m : Memory) : (st e m).engine? = some e := rfl

/-- Each clause; the pairs are those of the statement's list. -/
theorem wit_RequireReadyErrors :
    (st (eng 0 0 0 0 0 0 0 Context.zero) []).engine? = some (eng 0 0 0 0 0 0 0 Context.zero) ∧ Context.zero.cstate = .uninit ∧
    (st (eng 0 0 0 0 0 0 0 faulted) []).engine? = some (eng 0 0 0 0 0 0 0 faulted) ∧ faulted.cstate = .fault ∧
    (st (eng 0 0 0 0 0 0 0 generator) []).engine? = some (eng 0 0 0 0 0 0 0 generator) ∧ generator.cstate = .ready ∧
    generator.kind ≠ .cipher ∧ cipher.cstate = .ready ∧ cipher.kind ≠ .generator :=
  ⟨rfl, by decide, rfl, by decide, rfl, by decide, by decide, by decide, by decide⟩

theorem cipher_ready : cipher.Ready .cipher := ⟨rfl, rfl⟩
theorem wideCipher_ready : wideCipher.Ready .cipher := ⟨rfl, rfl⟩
theorem generator_ready : generator.Ready .generator := ⟨rfl, rfl⟩

theorem cipher_inv : cipher.Inv := construct_fresh_inv _ _ _ _ _ (by decide)
theorem wideCipher_inv : wideCipher.Inv := construct_fresh_inv _ _ _ _ _ (by decide)
theorem generator_inv : generator.Inv := construct_fresh_inv _ _ _ _ _ (by decide)

/-- ZEROIZE, TELL and GET_WPOS. -/
theorem wit_ZeroizeErases : (st (eng 0 0 0 0 0 0 0 faulted) []).engine? = some (eng 0 0 0 0 0 0 0 faulted) := rfl
theorem wit_TellReportsPosition :
    (st (eng 0 0 0 0 0 0 0 wideCipher) []).engine? = some (eng 0 0 0 0 0 0 0 wideCipher) ∧ wideCipher.Ready .cipher :=
  ⟨rfl, wideCipher_ready⟩
theorem wit_GetWposReportsWords :
    (st (eng 0 0 0 0 0 0 0 generator) []).engine? = some (eng 0 0 0 0 0 0 0 generator) ∧ generator.Ready .generator :=
  ⟨rfl, generator_ready⟩

/-- Both clauses of SEEK at their boundary, for the 32-bit and the 64-bit counter. -/
theorem wit_SeekMovesCursor :
    (st (eng 0x3FFFFFFFFF 0 0 0 0 0 0 cipher) []).engine? = some (eng 0x3FFFFFFFFF 0 0 0 0 0 0 cipher) ∧ cipher.Ready .cipher ∧
    ((0 : Word).toNat * 2 ^ 64 + (0x3FFFFFFFFF : Word).toNat) / 64 ≤ maxCtr cipher.cw64 ∧
    maxCtr cipher.cw64 < ((0 : Word).toNat * 2 ^ 64 + (0x4000000000 : Word).toNat) / 64 ∧
    wideCipher.Ready .cipher ∧
    ((0x3F : Word).toNat * 2 ^ 64 + (0xFFFFFFFFFFFFFFFF : Word).toNat) / 64 ≤ maxCtr wideCipher.cw64 ∧
    maxCtr wideCipher.cw64 < ((0x40 : Word).toNat * 2 ^ 64 + (0 : Word).toNat) / 64 :=
  ⟨rfl, cipher_ready, by decide, by decide, wideCipher_ready, by decide, by decide⟩

theorem wit_SetWposMovesCursor :
    (st (eng 0xFFFFFFFFFFFFFFFF 0xF 0 0 0 0 0 generator) []).engine? = some (eng 0xFFFFFFFFFFFFFFFF 0xF 0 0 0 0 0 generator) ∧
    generator.Ready .generator ∧
    ((0xF : Word).toNat * 2 ^ 64 + (0xFFFFFFFFFFFFFFFF : Word).toNat) / 16 ≤ maxCtr generator.cw64 ∧
    maxCtr generator.cw64 < ((0x10 : Word).toNat * 2 ^ 64 + (0 : Word).toNat) / 16 :=
  ⟨rfl, generator_ready, by decide, by decide⟩

/-- A construction's ARG registers, with the key at 0x1000 and the nonce at 0x1020. -/
def building (len ctr : Word) : Engine := eng 0x1000 32 0x1020 len ctr 0x1200 1 Context.zero

theorem firstDenied_default (kinds : List AccessKind) (a n : Nat) : Params.firstDenied Params.default kinds a n = none := by
  induction n generalizing a with
  | zero => rfl
  | succ n ih =>
    have h : kinds.all (Params.hostAdmit Params.default a) = true := by
      simp [Params.hostAdmit, Params.default]
    rw [Params.firstDenied, if_pos h, ih]

/-- Every range beside the window is accessible in a state of these tests. -/
theorem st_accessible (e : Engine) (m : Memory) (kinds : List AccessKind) (a n : Nat)
    (h : a + n ≤ 0x8000000000000000 ∨ (0x8000000000000100 ≤ a ∧ a + n ≤ 2 ^ 64)) : (st e m).Accessible kinds a n := by
  have hb : (st e m).params.engineBase.toNat = 0x8000000000000000 := by
    show Params.default.engineBase.toNat = _
    decide
  have hl : (st e m).engines.length = 1 := rfl
  have hp : (st e m).params = Params.default := rfl
  have hc : (st e m).coversWindow a n = false := by
    rw [State.coversWindow, hb, hl, decide_eq_false_iff_not]
    omega
  have hw : ¬ 2 ^ 64 < a + n := by omega
  unfold State.Accessible State.checkRange
  by_cases hn : n = 0
  · rw [if_pos hn]
  · rw [if_neg hn, if_neg hw, hc, hp, firstDenied_default]
    rfl

/-- Ranges below the windows cover none. -/
theorem below_windows (e : Engine) (rs : List AccessRange) (h : ∀ r ∈ rs, r.2.1 + r.2.2 ≤ 0x8000000000000000)
    (kind : AccessKind) (a n x : Nat) (hr : (kind, a, n) ∈ rs) (hx : InRange a n x) : (st e []).inWindow x = false := by
  have hb : (st e []).params.engineBase.toNat = 0x8000000000000000 := by
    show Params.default.engineBase.toNat = _
    decide
  have := h _ hr
  simp only [InRange] at hx
  simp only [State.inWindow, hb, Bool.and_eq_false_iff, decide_eq_false_iff_not]
  simp only at this
  omega

/-- The ranges of every command of these tests lie below the windows. -/
theorem wit_RacedCommandsGoOn_ranges :
    (∀ r ∈ accessRanges .apply (eng 0x1100 8 0 0 0 0 0 cipher), r.2.1 + r.2.2 ≤ 0x8000000000000000) ∧
    (∀ r ∈ accessRanges .fill (eng 0x1100 8 0 0 0 0 0 generator), r.2.1 + r.2.2 ≤ 0x8000000000000000) ∧
    ∀ len ∈ ([0, 8, 12, 24] : List Nat),
      ∀ i ∈ ([.init .r8 true, .genInit .r12, .derive .r20, .blocks .r20] : List Instr),
        ∀ r ∈ accessRanges i (building (BitVec.ofNat 64 len) 5), r.2.1 + r.2.2 ≤ 0x8000000000000000 := by decide

/-- The first byte of the buffer raced for by a write and the last one by a read, APPLY and FILL. -/
theorem wit_RacedCommandsGoOn_streams :
    let raced : List AccessRange := [(.write, 0x1100, 1), (.read, 0x1107, 1)]
    (st (eng 0x1100 8 0 0 0 0 0 cipher) []).engine? = some (eng 0x1100 8 0 0 0 0 0 cipher) ∧
    (∀ kind a n x, (kind, a, n) ∈ accessRanges .apply (eng 0x1100 8 0 0 0 0 0 cipher) → InRange a n x →
      (st (eng 0x1100 8 0 0 0 0 0 cipher) []).inWindow x = false) ∧
    cipher.Ready .cipher ∧ cipher.Inv ∧ cipher.position + 8 ≤ endPos cipher.cw64 ∧
    generator.Ready .generator ∧ generator.Inv ∧ generator.position + 8 ≤ endPos generator.cw64 ∧
    (st (eng 0x1100 8 0 0 0 0 0 cipher) []).Accessible [.read, .write] 0x1100 8 ∧
    (st (eng 0x1100 8 0 0 0 0 0 generator) []).Accessible [.write] 0x1100 8 ∧
    Untouched raced (0x1100 + 6) ∧ ¬Untouched raced 0x1100 ∧ ¬Untouched raced 0x1107 ∧ Unwritten raced 0x1107 :=
  ⟨rfl, below_windows _ _ wit_RacedCommandsGoOn_ranges.1, cipher_ready, cipher_inv, by decide, generator_ready, generator_inv,
    by decide, st_accessible _ _ _ _ _ (by decide), st_accessible _ _ _ _ _ (by decide),
    by unfold Untouched InRange; decide, by unfold Untouched InRange; decide, by unfold Untouched InRange; decide,
    by unfold Unwritten InRange; decide⟩

/-- The last byte of the key written, for each construction and each length of its nonce; and raced for by a read of DERIVE's
first output byte alone, when no input byte is written by others. -/
theorem wit_RacedCommandsGoOn_keys :
    (∀ len ∈ ([0, 8, 12, 24] : List Nat),
      let e := building (BitVec.ofNat 64 len) 5
      (st e []).engine? = some e ∧ e.arg1 = 32 ∧ e.arg3.toNat = len ∧ (if true then e.arg4.toNat else 0) < 2 ^ 32 ∧
      e.arg4.toNat + e.arg6.toNat ≤ 2 ^ 32 ∧ (st e []).Accessible [.read] e.arg0.toNat 32 ∧
      (st e []).Accessible [.read] e.arg2.toNat e.arg3.toNat ∧ (st e []).Accessible [.write] e.arg5.toNat 44 ∧
      (st e []).Accessible [.write] e.arg5.toNat (64 * e.arg6.toNat) ∧
      Unwritten [(.write, 0x101F, 1)] (e.arg0.toNat + 30) ∧ Unwritten [(.write, 0x101F, 1)] (e.arg2.toNat + 23) ∧
      Untouched [(.write, 0x101F, 1)] (e.arg5.toNat + 43) ∧ ¬Unwritten [(.write, 0x101F, 1)] (e.arg0.toNat + 31)) ∧
    ∀ x, Unwritten [(.read, 0x1200, 1)] x := by
  refine ⟨?_, fun x r hr hk => ?_⟩
  · unfold State.Accessible Unwritten Untouched InRange
    decide
  · obtain rfl : r = (.read, 0x1200, 1) := List.mem_singleton.mp hr
    cases hk

/-- The last nonce byte alone written: no input of the derived key, and of DERIVE's output only the last byte depends on it. -/
theorem wit_RacedCommandsGoOn_derived :
    let e := building 24 0
    let raced : List AccessRange := [(.write, 0x1037, 1)]
    e.arg3 = 24 ∧ UnwrittenIn raced e.arg0.toNat 32 ∧ UnwrittenIn raced e.arg2.toNat 16 ∧
    Untouched raced (e.arg5.toNat + 31) ∧ InRange e.arg5.toNat 32 (e.arg5.toNat + 31) ∧
    Untouched raced (e.arg5.toNat + 36 + 6) ∧ Unwritten raced (e.arg2.toNat + 16 + 6) ∧
    ¬Unwritten raced (e.arg2.toNat + 16 + 7) := by
  have h : ∀ x, x < 0x1037 → Unwritten [(.write, 0x1037, 1)] x := fun x hx r hr _ => by
    obtain rfl : r = (.write, 0x1037, 1) := List.mem_singleton.mp hr
    simp only [InRange]
    omega
  have h0 : (building 24 0).arg0.toNat = 0x1000 := by decide
  have h2 : (building 24 0).arg2.toNat = 0x1020 := by decide
  refine ⟨rfl, fun x hx => h x ?_, fun x hx => h x ?_, ?_, ?_, ?_, ?_, ?_⟩
  · unfold InRange at hx; omega
  · unfold InRange at hx; omega
  all_goals (try unfold Untouched); (try unfold Unwritten); unfold InRange; decide

/-- An INIT that fails, its ranges below the windows. -/
theorem wit_RacedCommandsGoOn_failed :
    let e := building 13 0
    exec (.init .r20 false) (st e []) = .next ((st e []).putEngine { e with err := .invalidNonceLength }) ∧
    ((st e []).putEngine { e with err := .invalidNonceLength }).engine? = some { e with err := .invalidNonceLength } ∧
    ErrCode.invalidNonceLength ≠ .ok ∧
    ∀ r ∈ accessRanges (.init .r20 false) e, r.2.1 + r.2.2 ≤ 0x8000000000000000 := ⟨rfl, rfl, by decide, by decide⟩

theorem wit_InitCompletes :
    (st (building 8 0xFFFFFFFFFFFFFFFF) []).engine? = some (building 8 0xFFFFFFFFFFFFFFFF) ∧
    (building 8 0xFFFFFFFFFFFFFFFF).arg1 = 32 ∧
    (st (building 8 0xFFFFFFFFFFFFFFFF) []).Accessible [.read] (building 8 0xFFFFFFFFFFFFFFFF).arg0.toNat 32 ∧
    (st (building 8 0xFFFFFFFFFFFFFFFF) []).Accessible [.read] 0x1020 8 ∧ (building 8 0xFFFFFFFFFFFFFFFF).arg3 = 8 ∧
    (st (building 12 0xFFFFFFFF) []).Accessible [.read] (building 12 0xFFFFFFFF).arg0.toNat 32 ∧
    (st (building 12 0xFFFFFFFF) []).Accessible [.read] 0x1020 12 ∧ (building 12 0xFFFFFFFF).arg3 = 12 ∧
    (if true then (building 12 0xFFFFFFFF).arg4.toNat else 0) < 2 ^ 32 :=
  ⟨rfl, rfl, st_accessible _ _ _ _ _ (by decide), st_accessible _ _ _ _ _ (by decide), rfl, st_accessible _ _ _ _ _ (by decide),
    st_accessible _ _ _ _ _ (by decide), rfl, by decide⟩

theorem wit_ExtendedInitCompletes :
    (st (building 24 0xFFFFFFFF) []).engine? = some (building 24 0xFFFFFFFF) ∧ (building 24 0xFFFFFFFF).arg1 = 32 ∧
    (building 24 0xFFFFFFFF).arg3 = 24 ∧ (if true then (building 24 0xFFFFFFFF).arg4.toNat else 0) < 2 ^ 32 ∧
    (st (building 24 0xFFFFFFFF) []).Accessible [.read] (building 24 0xFFFFFFFF).arg0.toNat 32 ∧
    (st (building 24 0xFFFFFFFF) []).Accessible [.read] (building 24 0xFFFFFFFF).arg2.toNat 24 :=
  ⟨rfl, rfl, rfl, by decide, st_accessible _ _ _ _ _ (by decide), st_accessible _ _ _ _ _ (by decide)⟩

theorem wit_GenInitCompletes :
    (∀ k ∈ ([0, 8, 12] : List Nat), let len : Word := BitVec.ofNat 64 k; (st (building len 0) []).engine? = some (building len 0) ∧ (building len 0).arg1 = 32 ∧
      (building len 0).arg3 = len) ∧
    (∀ k ∈ ([0, 8, 12] : List Nat), let len : Word := BitVec.ofNat 64 k;
      (st (building len 0) []).checkRange [.read] (building len 0).arg0.toNat 32 = .admitted ∧
      (st (building len 0) []).checkRange [.read] (building len 0).arg2.toNat (building len 0).arg3.toNat = .admitted) := by
  decide

/-- A buffer that ends at 2^64, and a request that ends at the end of the keystream. -/
theorem wit_ApplyXorsKeystream :
    let e := eng 0xFFFFFFFFFFFFFFF0 16 0 0 0 0 0 cipher
    (st e []).engine? = some e ∧ e.ctx.Ready .cipher ∧ e.ctx.Inv ∧ e.ctx.position + e.arg1.toNat ≤ endPos e.ctx.cw64 ∧
    (st e []).Accessible [.read, .write] e.arg0.toNat e.arg1.toNat :=
  ⟨rfl, cipher_ready, cipher_inv, by decide, st_accessible _ _ _ _ _ (by decide)⟩

theorem wit_FillWritesKeystream :
    let e := eng 0x3000 16 0 0 0 0 0 generator
    (st e []).engine? = some e ∧ e.ctx.Ready .generator ∧ e.ctx.Inv ∧ e.ctx.position + e.arg1.toNat ≤ endPos e.ctx.cw64 ∧
    (st e []).Accessible [.write] e.arg0.toNat e.arg1.toNat :=
  ⟨rfl, generator_ready, generator_inv, by decide, st_accessible _ _ _ _ _ (by decide)⟩

/-- At the end of the keystream. -/
theorem wit_EmptyRequestsChangeNothing :
    let e := eng 0x3000 0 0 0 0 0 0 (atEnd cipher)
    (st e []).engine? = some e ∧ (Instr.apply, Kind.cipher) ∈ ([(.apply, .cipher), (.fill, .generator)] : List (Instr × Kind)) ∧
    e.ctx.Ready .cipher ∧ e.arg1 = 0 ∧ e.ctx.position ≤ endPos e.ctx.cw64 :=
  ⟨rfl, by decide, ⟨rfl, rfl⟩, rfl, by decide⟩

/-- One byte too many, at the end and from the start. -/
theorem wit_RequestsPastTheEndFault :
    let e := eng 0x3000 1 0 0 0 0 0 (atEnd generator)
    let f := eng 0x1100 0x4000000001 0 0 0 0 0 cipher
    (st e []).engine? = some e ∧ (Instr.fill, Kind.generator) ∈ ([(.apply, .cipher), (.fill, .generator)] : List (Instr × Kind)) ∧
    e.ctx.Ready .generator ∧ endPos e.ctx.cw64 < e.ctx.position + e.arg1.toNat ∧
    (st f []).engine? = some f ∧ f.ctx.Ready .cipher ∧ endPos f.ctx.cw64 < f.ctx.position + f.arg1.toNat :=
  ⟨rfl, by decide, ⟨rfl, rfl⟩, by decide, rfl, cipher_ready, by decide⟩

theorem wit_DeriveCompletes :
    let e := building 24 0
    (st e []).engine? = some e ∧ e.arg1 = 32 ∧ e.arg3 = 24 ∧ (st e []).Accessible [.read] e.arg0.toNat 32 ∧
    (st e []).Accessible [.read] e.arg2.toNat 24 ∧ (st e []).Accessible [.write] e.arg5.toNat 44 :=
  ⟨rfl, rfl, rfl, st_accessible _ _ _ _ _ (by decide), st_accessible _ _ _ _ _ (by decide), st_accessible _ _ _ _ _ (by decide)⟩

/-- Both nonce forms, the 32-bit one at the last counter, and no block at all. -/
theorem wit_BlocksCompletes :
    let e := eng 0x1000 32 0x1020 8 0xFFFFFFFF 0x1200 2 Context.zero
    let f := eng 0x1000 32 0x1020 12 0xFFFFFFFF 0x1200 1 Context.zero
    let g := eng 0x1000 32 0x1020 12 0xFFFFFFFF 0x1200 0 Context.zero
    ((st e []).engine? = some e ∧ e.arg1 = 32 ∧ e.arg3 = 8 ∧ e.arg4.toNat ≤ maxCtr true ∧
      e.arg4.toNat + e.arg6.toNat ≤ maxCtr true + 1) ∧
    ((st f []).engine? = some f ∧ f.arg1 = 32 ∧ f.arg3 = 12 ∧ f.arg4.toNat ≤ maxCtr false ∧
      f.arg4.toNat + f.arg6.toNat ≤ maxCtr false + 1) ∧
    ((st g []).engine? = some g ∧ g.arg3 = 12 ∧ g.arg4.toNat + g.arg6.toNat ≤ maxCtr false + 1) ∧
    (st e []).Accessible [.read] e.arg0.toNat 32 ∧ (st e []).Accessible [.read] e.arg2.toNat e.arg3.toNat ∧
    (st e []).Accessible [.write] e.arg5.toNat (64 * e.arg6.toNat) ∧
    (st f []).Accessible [.read] f.arg2.toNat f.arg3.toNat ∧ (st f []).Accessible [.write] f.arg5.toNat (64 * f.arg6.toNat) ∧
    (st g []).Accessible [.write] g.arg5.toNat (64 * g.arg6.toNat) := by
  unfold State.Accessible
  decide

/-- A wrong key length, and each wrong length and counter after a right one. -/
theorem wit_OperandChecksInOrder :
    (st (eng 0 33 0 13 0 0 0 cipher) []).engine? = some (eng 0 33 0 13 0 0 0 cipher) ∧ (33 : Word) ≠ 32 ∧
    (st (building 13 0) []).engine? = some (building 13 0) ∧ (building 13 0).arg1 = 32 ∧
    (building 13 0).arg3 ∉ ([8, 12, 24] : List Word) ∧ (building 13 0).arg3 ∉ ([0, 8, 12] : List Word) ∧
    (building 13 0).arg3 ≠ 24 ∧ (building 13 0).arg3 ∉ ([8, 12] : List Word) ∧
    (building 24 0x100000000).arg3 ∈ ([12, 24] : List Word) ∧ 2 ^ 32 ≤ (building 24 0x100000000).arg4.toNat ∧
    (building 12 0x100000000).arg3 ∈ ([12, 24] : List Word) := by
  refine ⟨rfl, by decide, rfl, rfl, ?_⟩
  decide

/-- V-K6, V-K4 and V-K9. -/
theorem wit_BlocksCounterOverflow :
    let e := eng 0 32 0 12 0x100000000 0 1 Context.zero
    let f := eng 0 32 0 12 0xFFFFFFFF 0 2 Context.zero
    let g := eng 0 32 0 8 0xFFFFFFFFFFFFFFFF 0 2 Context.zero
    (st e []).engine? = some e ∧ e.arg1 = 32 ∧ e.arg3 = 12 ∧ maxCtr false < e.arg4.toNat ∧
    (st f []).engine? = some f ∧ f.arg3 = 12 ∧ 0 < f.arg6.toNat ∧ maxCtr false < f.arg4.toNat + f.arg6.toNat - 1 ∧
    (st g []).engine? = some g ∧ g.arg3 = 8 ∧ 0 < g.arg6.toNat ∧ maxCtr true < g.arg4.toNat + g.arg6.toNat - 1 := by
  decide

/-- The key range runs past 2^64 (V-D5); the last nonce byte is not admitted; each command's lengths and counters. -/
theorem wit_InputBusFaults :
    let e := eng 0xFFFFFFFFFFFFFFF0 32 0x1020 24 0 0x1200 1 Context.zero
    (st e []).engine? = some e ∧ e.arg1 = 32 ∧ (st e []).AccessFaults [.read] e.arg0.toNat 32 0xFFFFFFFFFFFFFFF0 ∧ e.arg3 = 24 ∧
    ∀ k ∈ ([8, 12, 24] : List Nat), let len : Word := BitVec.ofNat 64 k;
      (denying (building len 0xFFFFFFFF) [] .read (0x1020 + len.toNat - 1)).Accessible [.read] (building len 0xFFFFFFFF).arg0.toNat 32 ∧
      (denying (building len 0xFFFFFFFF) [] .read (0x1020 + len.toNat - 1)).AccessFaults [.read] (building len 0xFFFFFFFF).arg2.toNat
        (building len 0xFFFFFFFF).arg3.toNat (0x1020 + len.toNat - 1) := by
  unfold State.Accessible State.AccessFaults
  decide

theorem wit_InputBusFaults_operands :
    (building 8 0xFFFFFFFF).arg3 = 8 ∧
    (building 24 0xFFFFFFFF).arg3 ∈ ([12, 24] : List Word) ∧ (if true then (building 24 0xFFFFFFFF).arg4.toNat else 0) < 2 ^ 32 ∧
    (∀ k ∈ ([0, 8, 12] : List Nat), let len : Word := BitVec.ofNat 64 k; (building len 0).arg3 ∈ ([0, 8, 12] : List Word)) ∧
    (building 8 0xFFFFFFFF).arg4.toNat + (building 8 0xFFFFFFFF).arg6.toNat ≤ 2 ^ 64 ∧
    (building 12 0xFFFFFFFF).arg4.toNat < 2 ^ 32 ∧
    (building 12 0xFFFFFFFF).arg4.toNat + (building 12 0xFFFFFFFF).arg6.toNat ≤ 2 ^ 32 := by decide

/-- V-F1 and V-F2. -/
theorem wit_StreamBusFaults :
    let e := eng 0xFFFFFFFFFFFFFFF8 16 0 0 0 0 0 cipher
    let f := eng 0x1100 16 0 0 0 0 0 cipher
    (st e []).engine? = some e ∧
    (Instr.apply, Kind.cipher, [AccessKind.read, .write]) ∈
      ([(.apply, .cipher, [.read, .write]), (.fill, .generator, [.write])] : List (Instr × Kind × List AccessKind)) ∧
    e.ctx.Ready .cipher ∧ e.ctx.Inv ∧ e.ctx.position + e.arg1.toNat ≤ endPos e.ctx.cw64 ∧
    (st e []).AccessFaults [.read, .write] e.arg0.toNat e.arg1.toNat 0xFFFFFFFFFFFFFFF8 ∧
    2 ^ 64 < e.arg0.toNat + e.arg1.toNat ∧
    (denying f [] .write 0x1108).engine? = some f ∧
    (denying f [] .write 0x1108).AccessFaults [.read, .write] f.arg0.toNat f.arg1.toNat 0x1108 :=
  ⟨rfl, by decide, cipher_ready, cipher_inv, by decide, by unfold State.AccessFaults; decide, by decide, rfl,
    by unfold State.AccessFaults; decide⟩

/-- FILL's clause: the last byte of the buffer is not admitted. -/
theorem wit_StreamBusFaults_fill :
    let f := eng 0x1100 16 0 0 0 0 0 generator
    (denying f [] .write 0x110F).engine? = some f ∧ f.ctx.Ready .generator ∧ f.ctx.Inv ∧
    f.ctx.position + f.arg1.toNat ≤ endPos f.ctx.cw64 ∧
    (denying f [] .write 0x110F).AccessFaults [.write] f.arg0.toNat f.arg1.toNat 0x110F :=
  ⟨rfl, generator_ready, generator_inv, by decide, by unfold State.AccessFaults; decide⟩

/-- A derived output whose last byte is not admitted, and V-K12 and its 64-bit counter form for BLOCKS. -/
theorem wit_OutputBusFaults :
    let d := building 24 0
    let b := eng 0x1000 32 0x1020 12 0 0xFFFFFFFFFFFFFFC1 1 Context.zero
    let w := eng 0x1000 32 0x1020 8 0xFFFFFFFFFFFFFFFF 0x1200 1 Context.zero
    ((denying d [] .write 0x122B).engine? = some d ∧ d.arg1 = 32 ∧ d.arg3 = 24 ∧
      (denying d [] .write 0x122B).Accessible [.read] d.arg0.toNat 32 ∧
      (denying d [] .write 0x122B).Accessible [.read] d.arg2.toNat d.arg3.toNat ∧
      (denying d [] .write 0x122B).AccessFaults [.write] d.arg5.toNat 44 0x122B ∧ d.arg5.toNat + 44 ≤ 2 ^ 64) ∧
    ((st b []).engine? = some b ∧ b.arg1 = 32 ∧ b.arg3 = 12 ∧ b.arg4.toNat + b.arg6.toNat ≤ 2 ^ 32 ∧
      (st b []).Accessible [.read] b.arg0.toNat 32 ∧ (st b []).Accessible [.read] b.arg2.toNat b.arg3.toNat ∧
      (st b []).AccessFaults [.write] b.arg5.toNat (64 * b.arg6.toNat) 0xFFFFFFFFFFFFFFC1 ∧
      2 ^ 64 < b.arg5.toNat + 64 * b.arg6.toNat) ∧
    ((denying w [] .write 0x1200).engine? = some w ∧ w.arg1 = 32 ∧ w.arg3 = 8 ∧ w.arg4.toNat + w.arg6.toNat ≤ 2 ^ 64 ∧
      (denying w [] .write 0x1200).Accessible [.read] w.arg0.toNat 32 ∧
      (denying w [] .write 0x1200).Accessible [.read] w.arg2.toNat w.arg3.toNat ∧
      (denying w [] .write 0x1200).AccessFaults [.write] w.arg5.toNat (64 * w.arg6.toNat) 0x1200) := by
  unfold State.Accessible State.AccessFaults
  decide

/-- APPLY and FILL: the buffer's last byte is the windows' first. -/
theorem wit_OwnWindowRefused_stream :
    let e := eng 0x7FFFFFFFFFFFFFF1 16 0 0 0 0 0 cipher
    let f := eng 0x7FFFFFFFFFFFFFF1 16 0 0 0 0 0 generator
    (st e []).engine? = some e ∧ (st e []).inWindow 0x8000000000000000 = true ∧ e.ctx.Ready .cipher ∧
    e.ctx.position + e.arg1.toNat ≤ endPos e.ctx.cw64 ∧ e.arg0.toNat + e.arg1.toNat ≤ 2 ^ 64 ∧
    InRange e.arg0.toNat e.arg1.toNat 0x8000000000000000 ∧
    (st f []).engine? = some f ∧ f.ctx.Ready .generator ∧ f.ctx.position + f.arg1.toNat ≤ endPos f.ctx.cw64 :=
  ⟨rfl, by decide, cipher_ready, by decide, by decide, by unfold InRange; decide, rfl, generator_ready, by decide⟩

/-- A key over the windows' last byte, for each command's lengths; after an accessible key a nonce or stream id over it. -/
theorem wit_OwnWindowRefused_inputs :
    (st (eng 0 0 0 0 0 0 0 Context.zero) []).inWindow 0x80000000000000FF = true ∧
    (∀ k ∈ ([0, 8, 12, 24] : List Nat),
      let len : Word := BitVec.ofNat 64 k
      let e := eng 0x80000000000000FF 32 0x1020 len 0xFFFFFFFF 0x1200 1 Context.zero
      (st e []).engine? = some e ∧ (st e []).inWindow 0x80000000000000FF = true ∧ e.arg1 = 32 ∧ e.arg0.toNat + 32 ≤ 2 ^ 64 ∧
      InRange e.arg0.toNat 32 0x80000000000000FF ∧ e.arg3 = len ∧ (if true then e.arg4.toNat else 0) < 2 ^ 32 ∧
      e.arg4.toNat + e.arg6.toNat ≤ 2 ^ 32) ∧
    (∀ k ∈ ([8, 12, 24] : List Nat),
      let len : Word := BitVec.ofNat 64 k
      let e := eng 0x1000 32 0x80000000000000FF len 0xFFFFFFFF 0x1200 1 Context.zero
      (st e []).engine? = some e ∧ (st e []).inWindow 0x80000000000000FF = true ∧ e.arg1 = 32 ∧
      (st e []).Accessible [.read] e.arg0.toNat 32 ∧ e.arg2.toNat + e.arg3.toNat ≤ 2 ^ 64 ∧
      InRange e.arg2.toNat e.arg3.toNat 0x80000000000000FF ∧ e.arg3 = len ∧ (if true then e.arg4.toNat else 0) < 2 ^ 32 ∧
      e.arg4.toNat < 2 ^ 32 ∧ e.arg4.toNat + e.arg6.toNat ≤ 2 ^ 32) := by
  unfold State.Accessible InRange
  decide

/-- An output over the windows' last byte after accessible inputs: DERIVE's, and BLOCKS's with either nonce. -/
theorem wit_OwnWindowRefused_outputs :
    ∀ k ∈ ([8, 12, 24] : List Nat),
      let len : Word := BitVec.ofNat 64 k
      let e := eng 0x1000 32 0x1020 len 0xFFFFFFFF 0x80000000000000FF 1 Context.zero
      (st e []).engine? = some e ∧ (st e []).inWindow 0x80000000000000FF = true ∧ e.arg1 = 32 ∧ e.arg3 = len ∧
      (st e []).Accessible [.read] e.arg0.toNat 32 ∧ (st e []).Accessible [.read] e.arg2.toNat e.arg3.toNat ∧
      e.arg5.toNat + 44 ≤ 2 ^ 64 ∧ InRange e.arg5.toNat 44 0x80000000000000FF ∧
      e.arg4.toNat < 2 ^ 32 ∧ e.arg4.toNat + e.arg6.toNat ≤ 2 ^ 32 ∧ e.arg5.toNat + 64 * e.arg6.toNat ≤ 2 ^ 64 ∧
      InRange e.arg5.toNat (64 * e.arg6.toNat) 0x80000000000000FF := by
  unfold State.Accessible InRange
  decide

/-- A failed INIT and a failed GEN_INIT: a next state whose instance has an error. -/
theorem wit_FailedConstructionZeroizes :
    let s := st (building 13 0) []
    exec (.init .r20 false) s = .next (s.putEngine { building 13 0 with err := .invalidNonceLength }) ∧
    exec (.genInit .r20) s = .next (s.putEngine { building 13 0 with err := .invalidNonceLength }) ∧
    (s.putEngine { building 13 0 with err := .invalidNonceLength }).engine? =
      some { building 13 0 with err := .invalidNonceLength } ∧ ErrCode.invalidNonceLength ≠ .ok :=
  ⟨rfl, rfl, rfl, by decide⟩

theorem wit_TellAfterSeek :
    let e := eng 0xFFFFFFFFFFFFFFFF 0x3F 0 0 0 0 0 wideCipher
    (st e []).engine? = some e ∧ e.ctx.Ready .cipher ∧ (e.arg1.toNat * 2 ^ 64 + e.arg0.toNat) / 64 ≤ maxCtr e.ctx.cw64 :=
  ⟨rfl, wideCipher_ready, by decide⟩

/-- A position that is no multiple of 4. -/
theorem wit_WordPositionResumes :
    let c : Context := { generator with ofs := 10 }
    (st (eng 0 0 0 0 0 0 0 c) []).engine? = some (eng 0 0 0 0 0 0 0 c) ∧ c.Ready .generator ∧ c.Inv ∧ c.position < endPos c.cw64 :=
  ⟨rfl, ⟨rfl, rfl⟩,
    ⟨(by intro h; cases h), fun _ => Nat.zero_le _, (by decide), (by decide), (by intro _ h; cases h), (by intro _ h; cases h), (by decide)⟩,
    by decide⟩

/-- 7 bytes and then 9, of a buffer that ends at 2^64. -/
theorem wit_ApplyChunking :
    let e := eng 0xFFFFFFFFFFFFFFF0 16 0 0 0 0 0 cipher
    (st e []).engine? = some e ∧ e.ctx.Ready .cipher ∧ e.ctx.Inv ∧ e.arg1.toNat = (7 : Word).toNat + (9 : Word).toNat ∧
    e.ctx.position + e.arg1.toNat ≤ endPos e.ctx.cw64 ∧
    (st e []).Accessible [.read, .write] e.arg0.toNat e.arg1.toNat :=
  ⟨rfl, cipher_ready, cipher_inv, by decide, by decide, st_accessible _ _ _ _ _ (by decide)⟩

theorem wit_ApplyRoundTrip :
    let e := eng 0x1100 16 0 0 0 0 0 cipher
    (st e (memory [(0x1100, counting 16)])).engine? = some e ∧ e.ctx.Ready .cipher ∧ e.ctx.Inv ∧
    e.ctx.position < endPos e.ctx.cw64 ∧ e.ctx.position + e.arg1.toNat ≤ endPos e.ctx.cw64 ∧
    (st e (memory [(0x1100, counting 16)])).Accessible [.read, .write] e.arg0.toNat e.arg1.toNat :=
  ⟨rfl, cipher_ready, cipher_inv, by decide, by decide, st_accessible _ _ _ _ _ (by decide)⟩

/-- V-S6: position 100, 28 bytes. -/
theorem wit_SeekConsistency :
    let e := eng 100 0 0 0 0 0 0 cipher
    (st e []).engine? = some e ∧ e.ctx.Ready .cipher ∧ e.ctx.Inv ∧
    (e.arg1.toNat * 2 ^ 64 + e.arg0.toNat) / 64 ≤ maxCtr e.ctx.cw64 ∧
    e.arg1.toNat * 2 ^ 64 + e.arg0.toNat + (28 : Word).toNat ≤ endPos e.ctx.cw64 ∧
    (st e []).Accessible [.read, .write] (0x1100 : Word).toNat (28 : Word).toNat :=
  ⟨rfl, cipher_ready, cipher_inv, by decide, by decide, st_accessible _ _ _ _ _ (by decide)⟩

theorem wit_InitCounterIsInitThenSeek :
    (st (building 8 0xFFFFFFFFFFFFFFFF) []).engine? = some (building 8 0xFFFFFFFFFFFFFFFF) ∧
    (building 8 0xFFFFFFFFFFFFFFFF).arg1 = 32 ∧ (building 8 0xFFFFFFFFFFFFFFFF).arg3 = 8 ∧
    (∀ k ∈ ([12, 24] : List Nat), let len : Word := BitVec.ofNat 64 k; (building len 0xFFFFFFFF).arg3 ∈ ([12, 24] : List Word)) ∧
    (building 24 0xFFFFFFFF).arg4.toNat < 2 ^ 32 ∧
    ∀ k ∈ ([8, 12, 24] : List Nat), let len : Word := BitVec.ofNat 64 k;
      (st (building len 0xFFFFFFFF) []).Accessible [.read] (building len 0xFFFFFFFF).arg0.toNat 32 ∧
      (st (building len 0xFFFFFFFF) []).Accessible [.read] (building len 0xFFFFFFFF).arg2.toNat (building len 0xFFFFFFFF).arg3.toNat := by
  unfold State.Accessible
  decide

theorem wit_ExtendedInitIsDerivedInit :
    let e := building 24 0
    (st e []).engine? = some e ∧ e.arg1 = 32 ∧ e.arg3 = 24 ∧ (st e []).Accessible [.read] e.arg0.toNat 32 ∧
    (st e []).Accessible [.read] e.arg2.toNat 24 ∧ (st e []).Accessible [.read, .write] e.arg5.toNat 44 :=
  ⟨rfl, rfl, rfl, st_accessible _ _ _ _ _ (by decide), st_accessible _ _ _ _ _ (by decide), st_accessible _ _ _ _ _ (by decide)⟩

theorem wit_FillIsApplyOnZeros :
    let e := eng 0x3000 16 0 0 0 0 0 generator
    let f := eng 0x3000 16 0 0 0 0 0 { generator with kind := .cipher }
    (st e (memory [(0x3000, counting 16)])).engine? = some e ∧ e.ctx.Ready .generator ∧ e.ctx.Inv ∧ (st f []).engine? = some f ∧
    (∀ x, InRange e.arg0.toNat e.arg1.toNat x → Memory.read (st f []).mem x = 0) ∧
    e.ctx.position + e.arg1.toNat ≤ endPos e.ctx.cw64 ∧
    (st e (memory [(0x3000, counting 16)])).Accessible [.write] e.arg0.toNat e.arg1.toNat ∧
    (st f []).Accessible [.read, .write] e.arg0.toNat e.arg1.toNat :=
  ⟨rfl, generator_ready, generator_inv, rfl, fun _ _ => rfl, by decide, st_accessible _ _ _ _ _ (by decide),
    st_accessible _ _ _ _ _ (by decide)⟩

/-- Block 4 of 5: the partial last batch of a backend with 4 lanes. -/
theorem wit_BackendsAgree : Params.batchOf Params.default .wideVector = 4 ∧ 4 < 5 := by decide

/-- A portable machine and one whose selector has chosen a vector backend, with a command to run. -/
theorem wit_BackendChoiceUnobservable :
    let s := issuing 0x211
    let s' := { s with
      params := { s.params with backends := [.wideVector], feat := [.wideVector], batch := [(.wideVector, 7)] }
      bselValid := true
      bsel := some .wideVector }
    s ≠ s' ∧ s.forgetBackend = s'.forgetBackend := by decide

/-- The first and the second column quarter-round. -/
theorem wit_DisjointQuarterRoundsCommute :
    ∀ x ∈ ([0, 4, 8, 12] : List (Fin 16)), x ∉ ([1, 5, 9, 13] : List (Fin 16)) := by decide

theorem wit_CounterWords : (0xFFFFFFFF : Word).toNat % 2 ^ 32 = 2 ^ 32 - 1 ∧ (0xFFFFFFFF : Word).toNat + 1 < 2 ^ 64 := by decide

theorem reset_with_hostOps_inv (ops : List HostOp) : State.Inv { State.reset with hostOps := ops } where
  contexts e he := by
    obtain rfl : e = Engine.zero := by simpa [State.reset, State.powerOn] using he
    exact ⟨fun _ => rfl, by decide, by decide, by decide, by decide, (by intro h; cases h), (by decide)⟩
  selector := rfl
  memory := rfl
  instances f hf := by cases hf
  single := List.Pairwise.nil

/-- A command that succeeds, from a state with the invariant. -/
theorem wit_StepKeepsInvariant :
    let s := { State.reset with hostOps := [.regWrite 0 0x8000000000000000 64 0x005] }
    s.Inv ∧ step s = .next { s with pc := 1 } := ⟨reset_with_hostOps_inv _, by rfl⟩

theorem wit_SelectorResolvesOnce :
    let s := { issuing 0x005 with bselValid := true, bsel := some .portable }
    s.bselValid = true ∧ s.hostOps[s.pc]? ≠ some .powerOnReset ∧
    step s = .next { s with pc := 1 } := ⟨rfl, by decide, by rfl⟩

theorem complete_moved (d : Context) (p : Nat) :
    State.complete (st (eng 100 0 0 0 0 0 0 d) []) { eng 100 0 0 0 0 0 0 d with ctx := (eng 100 0 0 0 0 0 0 d).ctx.moveTo p } =
      .next ((st (eng 100 0 0 0 0 0 0 d) []).putEngine (eng 100 0 0 0 0 0 0 (d.moveTo p))) := rfl

/-- SEEK to position 100 on a READY cipher; `c` is the context with its cursor moved. -/
theorem seek_next : ∃ c : Context, c = cipher.moveTo 100 ∧
    exec .seek (st (eng 100 0 0 0 0 0 0 cipher) []) =
      .next ((st (eng 100 0 0 0 0 0 0 cipher) []).putEngine (eng 100 0 0 0 0 0 0 c)) := by
  refine ⟨_, rfl, ?_⟩
  have hp : Engine.operand128 (eng 100 0 0 0 0 0 0 cipher) = 100 := by decide
  have hs : exec .seek = fun s => State.seekTo s .cipher Engine.operand128 := rfl
  rw [hs]
  show State.seekTo (st (eng 100 0 0 0 0 0 0 cipher) []) .cipher Engine.operand128 = _
  rw [State.seekTo_ready (st_engine? _ _) cipher_ready, hp, if_neg (by decide)]
  exact complete_moved cipher 100

/-- A command on a READY context that answers a next state; the same state serves the frames that follow. -/
theorem wit_OnlyConstructionChangesInstance :
    ∃ e' : Engine, exec .seek (st (eng 100 0 0 0 0 0 0 cipher) []) = .next ((st (eng 100 0 0 0 0 0 0 cipher) []).putEngine e') ∧
    ((st (eng 100 0 0 0 0 0 0 cipher) []).putEngine e').engine? = some e' ∧
    (st (eng 100 0 0 0 0 0 0 cipher) []).engine? = some (eng 100 0 0 0 0 0 0 cipher) ∧ (∀ r c, Instr.seek ≠ .init r c) ∧
    (∀ r, Instr.seek ≠ .genInit r) ∧ Instr.seek ≠ .zeroize := by
  obtain ⟨c, -, h⟩ := seek_next
  exact ⟨_, h, rfl, rfl, by simp, by simp, by simp⟩

theorem wit_CommandFrame : ∃ t, exec .seek (st (eng 100 0 0 0 0 0 0 cipher) []) = .next t := by
  obtain ⟨c, -, h⟩ := seek_next
  exact ⟨_, h⟩

theorem wit_ResultRegistersFrame :
    ∃ e' : Engine, exec .seek (st (eng 100 0 0 0 0 0 0 cipher) []) = .next ((st (eng 100 0 0 0 0 0 0 cipher) []).putEngine e') ∧
    ((st (eng 100 0 0 0 0 0 0 cipher) []).putEngine e').engine? = some e' ∧
    (st (eng 100 0 0 0 0 0 0 cipher) []).engine? = some (eng 100 0 0 0 0 0 0 cipher) ∧
    e'.err ≠ .busFault ∧ ¬((Instr.seek = .tell ∨ Instr.seek = .getWpos) ∧ e'.err = .ok) := by
  obtain ⟨c, -, h⟩ := seek_next
  exact ⟨_, h, rfl, rfl, by simp [eng, Engine.zero], by simp⟩

/-- An APPLY that answers a next state, and the bytes on both sides of its buffer. -/
theorem wit_MemoryFrame :
    let e := eng 0x1100 16 0 0 0 0 0 cipher
    (st e []).engine? = some e ∧ after (exec .apply (st e [])) (fun _ _ => true) = true ∧
    ¬InRange e.arg0.toNat e.arg1.toNat 0x10FF ∧ ¬InRange e.arg0.toNat e.arg1.toNat 0x1110 := by
  unfold InRange
  decide

/-- BLOCKS with all of its ranges below the windows. -/
theorem wit_CommandsComplete :
    let e := building 12 0
    (st e []).engine? = some e ∧
    ∀ kind a n x, (kind, a, n) ∈ accessRanges (.blocks .r20) e → InRange a n x → (st e []).inWindow x = false := by
  refine ⟨rfl, fun kind a n x h hx => ?_⟩
  have h' : (kind, a, n) ∈ ([(.read, 0x1000, 32), (.read, 0x1020, 12), (.write, 0x1200, 64)] : List (AccessKind × Nat × Nat)) := h
  have hb : (st (building 12 0) []).params.engineBase.toNat = 0x8000000000000000 := by decide
  simp only [List.mem_cons, Prod.mk.injEq, List.not_mem_nil, or_false] at h'
  unfold InRange at hx
  simp only [State.inWindow, hb, Bool.and_eq_false_iff, decide_eq_false_iff_not]
  omega

/-! ### The block core (95_test_vectors.md §1.1, §2.1, §3.1) -/

theorem test_rotl32 : rotl32 0x80000001 7 = 0x000000C0 ∧ rotl32 0x12345678 8 = 0x34567812 := by decide

/-- The mixed-values row of the quarter-round table. -/
theorem test_quarterRound :
    let m := quarterRound 0 1 2 3 ((Vector.replicate 16 0).set 0 0x11111111 |>.set 1 0x01020304 |>.set 2 0x9b8d6f43 |>.set 3 0x01234567)
    m[0] = 0xea2a92f4 ∧ m[1] = 0xcb1cf8ce ∧ m[2] = 0x4581472e ∧ m[3] = 0x5881c4bb := by decide

/-- The known-answer scenario: the first 16 keystream bytes XOR 00 … 0f. -/
theorem test_known_answer :
    List.zipWith (· ^^^ ·) ((block (Vector.replicate 32 0x42) (.standard (Vector.replicate 12 0x24)) 0 .r20).toList.take 16) (counting 16) =
      bytes [0xe4, 0x05, 0x62, 0x6e, 0x4f, 0x12, 0x36, 0xb3, 0x67, 0x0e, 0xe4, 0x28, 0x33, 0x2e, 0xa2, 0x0e] := by
  decide +kernel

/-- V-C2: the first bytes in the 64-bit counter form after the carry into x[13]. -/
theorem test_block_wide_counter :
    (block (byteVector 32 (counting 32)) (.short (byteVector 8 (counting 8))) 0x100000000 .r20).toList.take 8 =
      bytes [0x2f, 0xca, 0xb2, 0xc0, 0x9a, 0x96, 0x05, 0x45] := by decide +kernel

/-- V-H2a and V-H1: the first and last bytes of the derived subkey. -/
theorem test_hblock :
    (hblock (byteVector 32 (counting 32)) (byteVector 16 n24) .r8).toList.take 4 = bytes [0x75, 0x3f, 0x89, 0x7b] ∧
    (hblock (byteVector 32 (counting 32)) (byteVector 16 n24) .r20).toList.drop 28 = bytes [0x26, 0xd3, 0xec, 0xdc] := by
  decide +kernel

/-! ### One step of each command -/

/-- V-I9: INIT with a counter stands at block 5, STATUS 0x81. -/
theorem test_init_counter :
    after (exec (.init .r20 true) (st (eng 0x1000 32 0x1020 12 5 0 0 faulted) (memory [(0x1000, counting 32), (0x1020, nb)])))
      (fun _ e => e.status == 0x81 && e.ctx == { cipher with ctr := 5 }) = true := by decide

/-- V-X1: INIT with a 24-byte nonce. -/
theorem test_init_extended :
    after (exec (.init .r20 false) (st (eng 0x1000 32 0x1020 24 0 0 0 Context.zero) (memory [(0x1000, counting 32), (0x1020, n24)])))
      (fun t e => e.status == 0x81 && e.ctx.key.toList.take 4 == bytes [0x82, 0x41, 0x3b, 0x42] &&
        e.ctx.nonce.toList == bytes [0, 0, 0, 0, 0, 1, 2, 3, 4, 5, 6, 7] && t.bselValid) = true := by decide +kernel

/-- V-A3: 65 bytes of zeros; the last one is the first byte of block 1. -/
theorem test_apply_block_boundary :
    after (exec .apply (st (eng 0x1100 65 0 0 0 0 0 cipher) []))
      (fun t e => e.status == 0x85 && e.ctx.ctr == 1 && e.ctx.ofs == 1 && Memory.read t.mem 0x1100 == 0x8a &&
        Memory.read t.mem 0x1140 == 0x10 && Memory.read t.mem 0x1141 == 0) = true := by decide +kernel

/-- V-F2: byte 0x1108 is not admitted. The cursor is free, so only what the spec fixes is looked at. -/
theorem test_apply_busFault :
    after (exec .apply (denying (eng 0x1100 16 0 0 0 0 0 cipher) [] .write 0x1108))
      (fun t e => e.err == .busFault && e.res0 == 0x1108 && e.res1 == 0 && e.ctx.cstate == .fault && e.ctx.key == cipher.key &&
        t.freeCount == 1) = true := by decide

/-- V-S1: the last position of a 32-bit stream. -/
theorem test_seek_last :
    after (exec .seek (st (eng 0x3FFFFFFFFF 0 0 0 0 0 0 cipher) []))
      (fun _ e => e.status == 0x81 && e.ctx.ctr == 0xFFFFFFFF && e.ctx.ofs == 63 && !e.ctx.bufv) = true := by decide

/-- V-S2: the position END(32) is rejected. -/
theorem test_seek_end :
    after (exec .seek (st (eng 0x4000000000 0 0 0 0 0 0 cipher) []))
      (fun _ e => e.status == 0x581 && e.ctx == cipher) = true := by decide

/-- V-I10: TELL at block 2^64 − 1 needs RES1. -/
theorem test_tell_wide :
    after (exec .tell (st (eng 0 0 0 0 0 0 0 { wideCipher with ctr := 0xFFFFFFFFFFFFFFFF }) []))
      (fun _ e => e.status == 0xA1 && e.res0 == 0xFFFFFFFFFFFFFFC0 && e.res1 == 0x3F) = true := by decide

/-- V-A7: TELL of a FAULT context leaves RES. -/
theorem test_tell_faulted :
    after (exec .tell (st { eng 0 0 0 0 0 0 0 faulted with res0 := 7 } []))
      (fun _ e => e.status == 0x782 && e.res0 == 7) = true := by decide

/-- V-Z1: ARG and RES stay, the context is erased. -/
theorem test_zeroize :
    after (exec .zeroize (st { eng 1 2 3 4 5 6 7 cipher with res0 := 8 } []))
      (fun _ e => e == { eng 1 2 3 4 5 6 7 Context.zero with res0 := 8 }) = true := by decide

/-- V-G1: GEN_INIT without a stream id, ARG2 not read. -/
theorem test_genInit :
    after (exec (.genInit .r20) (st (eng 0x2000 32 0xFFFFFFFFFFFFFFFF 0 0 0 0 Context.zero) (memory [(0x2000, counting 32)])))
      (fun _ e => e.status == 0xB1 && e.ctx == generator) = true := by decide

/-- V-G6: a 24-byte stream id. -/
theorem test_genInit_length :
    after (exec (.genInit .r20) (st (eng 0x2000 32 0x1020 24 0 0 0 cipher) []))
      (fun _ e => e.status == 0x300 && e.ctx == Context.zero) = true := by decide

/-- V-G1: FILL of 10 bytes. -/
theorem test_fill :
    after (exec .fill (st (eng 0x3000 10 0 0 0 0 0 generator) (memory [(0x3000, counting 12)])))
      (fun t e => e.status == 0xB5 && Memory.readBytes t.mem 0x3000 12 ==
        bytes [0x39, 0xfd, 0x2b, 0x7d, 0xd9, 0xc5, 0x19, 0x6a, 0x8d, 0xbd, 10, 11]) = true := by decide +kernel

/-- V-G12: one byte past the end of a 64-bit stream. -/
theorem test_fill_past_end :
    after (exec .fill (st (eng 0x3400 1 0 0 0 0 0 { generator with ctr := 0xFFFFFFFFFFFFFFFF, ofs := 64, bufv := true }) []))
      (fun t e => e.status == 0x4BA && t.mem == []) = true := by decide

/-- V-G9: the last word of a 32-bit stream. -/
theorem test_setWpos :
    after (exec .setWpos (st (eng 0xFFFFFFFFF 0 0 0 0 0 0 { cipher with kind := .generator }) []))
      (fun _ e => e.status == 0x91 && e.ctx.ctr == 0xFFFFFFFF && e.ctx.ofs == 60) = true := by decide

/-- V-G8: word 2^36. -/
theorem test_setWpos_end :
    after (exec .setWpos (st (eng 0x1000000000 0 0 0 0 0 0 { cipher with kind := .generator }) []))
      (fun _ e => e.status == 0x591) = true := by decide

/-- V-G12: GET_WPOS at 2^68. -/
theorem test_getWpos :
    after (exec .getWpos (st (eng 0 0 0 0 0 0 0 { generator with ctr := 0xFFFFFFFFFFFFFFFF, ofs := 64, bufv := true }) []))
      (fun _ e => e.status == 0xB9 && e.res0 == 0 && e.res1 == 0x10) = true := by decide

/-- V-G10: GET_WPOS on a cipher. -/
theorem test_getWpos_wrongKind :
    after (exec .getWpos (st (eng 0 0 0 0 0 0 0 cipher) [])) (fun _ e => e.status == 0x881 && e.res0 == 0) = true := by decide

/-- V-D7: the output over the nonce. -/
theorem test_derive_overlap :
    after (exec (.derive .r20) (st (eng 0x1000 32 0x1020 24 0 0x1020 0 Context.zero) (memory [(0x1000, counting 32), (0x1020, n24)])))
      (fun t e => e.status == 0 && Memory.readBytes t.mem 0x1020 4 == bytes [0x82, 0x41, 0x3b, 0x42] &&
        Memory.readBytes t.mem 0x1040 13 == bytes [0, 0, 0, 0, 0, 1, 2, 3, 4, 5, 6, 7, 0]) = true := by decide +kernel

/-- V-D5: the key range wraps. -/
theorem test_derive_wraps :
    after (exec (.derive .r20) (st (eng 0xFFFFFFFFFFFFFFF0 32 0x1020 24 0 0x1200 0 Context.zero) []))
      (fun t e => e.status == 0x900 && e.res0 == 0xFFFFFFFFFFFFFFF0 && e.res1 == 0 && t.mem == []) = true := by decide

/-- V-K14: one block of 8 rounds, its first and last bytes, and the byte behind it. -/
theorem test_blocks :
    after (exec (.blocks .r8) (st (eng 0x1000 32 0x1020 12 0 0x1200 1 Context.zero) []))
      (fun t e => e.status == 0 && Memory.readBytes t.mem 0x1200 4 == bytes [0x3e, 0x00, 0xef, 0x2f] &&
        Memory.readBytes t.mem 0x123C 5 == bytes [0x0e, 0x0c, 0xfe, 0x42, 0]) = true := by decide +kernel

/-- V-K8: c + n − 1 is taken in ℕ. -/
theorem test_blocks_overflow :
    after (exec (.blocks .r20) (st (eng 0x1000 32 0x1020 12 0 0x1200 0xFFFFFFFFFFFFFFFF Context.zero) []))
      (fun t e => e.status == 0x400 && t.mem == []) = true := by decide

/-! ### Commands in flight -/

/-- APPLY of 4 bytes at 0x1100 begun by agent 0; what `ops` says happens next. -/
def applying (ops : List HostOp) : State :=
  { st (eng 0x1100 4 0 0 0 0 0 cipher) [] with hostOps := .beginWrite 0 0x8000000000000000 64 0x002 :: ops }

/-- Steps one after another. -/
def stepsOn (s : State) : Nat → StepOutcome
  | 0 => .next s
  | n + 1 => StepOutcome.andThen (step s) fun t => stepsOn t n

/-- V-A1's first bytes from a command that was in flight; another agent's access beside the buffer has its effect, and an ARG
write meanwhile stays and is not seen by the command (20_memory.md R85, R86). -/
theorem test_apply_in_flight :
    after (stepsOn (applying [.memWrite 1 0x1104 9, .regWrite 1 0x8000000000000010 64 0x2000, .completes 0]) 4)
      (fun t e => t.pending == [] && e.status == 0x85 && e.arg0 == 0x2000 &&
        Memory.readBytes t.mem 0x1100 5 == bytes [0x8a, 0xdc, 0x91, 0xfd, 9]) = true := by decide +kernel

/-- 20_memory.md R85: a raced APPLY goes on, and its cursor is V-A1's kind; its own agent's next operation waits for it
(R72). -/
theorem test_apply_raced :
    after (stepsOn (applying [.memWrite 1 0x1103 7, .memRead 0 0x1000]) 3)
      (fun t e => t.pc == 2 && t.pending == [] && t.observed == [] && e.status == 0x85 && e.ctx.ofs == 4) = true := by
  decide

/-- 20_memory.md R92: the same command and one of agent 1 on a second instance that overlaps it at 0x1103, both in flight:
they race for that byte, and both go on. -/
theorem test_two_in_flight :
    let s := applying [.beginWrite 1 0x8000000000000100 64 0x002, .completes 1, .completes 0]
    let both := { s with engines := s.engines ++ [eng 0x1103 4 0 0 0 0 0 cipher] }
    after (stepsOn both 2) (fun t _ => t.pending.length == 2 &&
      t.pending.all fun f => !f.raced.isEmpty && f.raced.all fun r => r.2 == (0x1103, 1)) = true ∧
    after (stepsOn both 4) (fun t _ => t.pending == [] && t.engines.all fun e => e.status == 0x85 && e.ctx.ofs == 4) = true := by
  decide +kernel

end Sys2Proof.Tests
end

section
/-! The backend is not observable (00_scope.md R12, 10_state.md R54, 41_backends.md R163). Operations that do not resolve the
selector commute with forgetting the backend; a command or an operation that may resolve it ends the same way, up to the
backend, from a state and from that state without its backend. -/

namespace Sys2Proof.Machine

/-! ### What forgetting the backend leaves alone -/

@[simp] theorem State.forgetBackend_forgetBackend (s : State) : s.forgetBackend.forgetBackend = s.forgetBackend := rfl
@[simp] theorem State.forgetBackend_engine? (s : State) : s.forgetBackend.engine? = s.engine? := rfl
@[simp] theorem State.forgetBackend_engines (s : State) : s.forgetBackend.engines = s.engines := rfl
@[simp] theorem State.forgetBackend_pending (s : State) : s.forgetBackend.pending = s.pending := rfl
@[simp] theorem State.forgetBackend_hostOps (s : State) : s.forgetBackend.hostOps = s.hostOps := rfl
@[simp] theorem State.forgetBackend_pc (s : State) : s.forgetBackend.pc = s.pc := rfl
@[simp] theorem State.inWindow_forgetBackend (s : State) : s.forgetBackend.inWindow = s.inWindow := rfl
@[simp] theorem State.windowOf_forgetBackend (s : State) : s.forgetBackend.windowOf = s.windowOf := rfl
@[simp] theorem State.racedBy_forgetBackend (s : State) : s.forgetBackend.racedBy = s.racedBy := rfl

@[simp] theorem State.awaited_forgetBackend (s : State) (op : HostOp) : s.forgetBackend.awaited op = s.awaited op := by
  cases op <;> rfl

/-- Resolving the selector changes only what is forgotten. -/
@[simp] theorem State.resolve_forgetBackend (s : State) : s.resolve.forgetBackend = s.forgetBackend := by
  unfold State.resolve
  split <;> rfl

/-- Admission does not depend on the backend parameters. -/
theorem State.firstDenied_forgetBackend (s : State) (kinds : List AccessKind) (a n : Nat) :
    Params.firstDenied s.forgetBackend.params kinds a n = Params.firstDenied s.params kinds a n := by
  induction n generalizing a with
  | zero => rfl
  | succ n ih => rw [Params.firstDenied, Params.firstDenied, ih]; rfl

@[simp] theorem State.checkRange_forgetBackend (s : State) (kinds : List AccessKind) (a n : Nat) :
    s.forgetBackend.checkRange kinds a n = s.checkRange kinds a n := by
  simp only [State.checkRange, State.firstDenied_forgetBackend]
  rfl

@[simp] theorem State.streamOutput_forgetBackend (s : State) (e : Engine) (x : Bool) (m : Memory) :
    s.forgetBackend.streamOutput e x m = s.streamOutput e x m := by
  simp only [State.streamOutput, State.generate_eq]

/-- The blocks that BLOCKS writes are the same whatever the state's backend (41_backends.md R163). -/
theorem State.blocksOutput_eq_of_anyBackend (s s' : State) (e : Engine) (r : Rounds) (key : List Byte) (nonce : Nonce) :
    s.blocksOutput e r key nonce = s'.blocksOutput e r key nonce := by
  simp only [State.blocksOutput, Params.produceBlocks_eq]

/-! ### Outcomes -/

@[simp] theorem forgetBackend_next (s : State) : forgetBackend (.next s) = .next s.forgetBackend := rfl

@[simp] theorem forgetBackend_complete (s : State) (e : Engine) : forgetBackend (s.complete e) = s.forgetBackend.complete e := rfl

/-- Outcomes alike up to the backend go on alike, when what comes after does not see the backend. -/
theorem forgetBackend_andThen {o o' : StepOutcome} {f g : State → StepOutcome} (ho : forgetBackend o = forgetBackend o')
    (hf : ∀ t t' : State, t.forgetBackend = t'.forgetBackend → forgetBackend (f t) = forgetBackend (g t')) :
    forgetBackend (o.andThen f) = forgetBackend (o'.andThen g) := by
  cases o with
  | next t =>
    cases o' with
    | next t' => exact hf t t' (by simpa using ho)
    | fault r => cases r
    | refused r => cases ho
  | fault r => cases r
  | refused r =>
    cases o' with
    | next t' => cases ho
    | fault r' => cases r'
    | refused r' => exact ho

/-! ### The shared operations -/

/-- A command's body on the active instance. -/
theorem forgetBackend_onEngine {s : State} {body body' : Engine → StepOutcome}
    (h : ∀ e, forgetBackend (body e) = forgetBackend (body' e)) :
    forgetBackend (s.forgetBackend.onEngine body) = forgetBackend (s.onEngine body') := by
  simp only [State.onEngine, State.forgetBackend_engine?]
  cases s.engine? with
  | none => rfl
  | some e => exact h e

/-- An input range, and what follows with its bytes. -/
theorem forgetBackend_readInput {s : State} {e : Engine} {seen : Memory} {a n : Nat} {body body' : List Byte → StepOutcome}
    (h : ∀ bytes, forgetBackend (body bytes) = forgetBackend (body' bytes)) :
    forgetBackend (s.forgetBackend.readInput e seen a n body) = forgetBackend (s.readInput e seen a n body') := by
  simp only [State.readInput, State.checkRange_forgetBackend]
  cases s.checkRange [.read] a n with
  | admitted => exact h _
  | wraps => rfl
  | ownWindow => rfl
  | denied x => rfl

@[simp] theorem forgetBackend_writeOutput (s : State) (e : Engine) (a n : Nat) (out : List Byte) :
    forgetBackend (s.writeOutput e a n out) = s.forgetBackend.writeOutput e a n out := by
  simp only [State.writeOutput, State.checkRange_forgetBackend]
  cases s.checkRange [.write] a n <;> rfl

@[simp] theorem forgetBackend_streamAccess (s : State) (e : Engine) (x : Bool) (m : Memory) :
    forgetBackend (s.streamAccess e x m) = s.forgetBackend.streamAccess e x m := by
  simp only [State.streamAccess, State.checkRange_forgetBackend, State.streamOutput_forgetBackend, State.generate_eq]
  cases s.checkRange (streamKinds x) e.arg0.toNat e.arg1.toNat <;> rfl

/-! ### The commands -/

/-- APPLY and FILL. -/
theorem forgetBackend_stream (s : State) (kind : Kind) (x : Bool) (m : Memory) :
    forgetBackend (s.forgetBackend.stream kind x m) = forgetBackend (s.stream kind x m) := by
  refine forgetBackend_onEngine fun e => ?_
  cases e.ctx.requireReady kind with
  | some code => rfl
  | none =>
    dsimp only
    split
    · rfl
    split
    · rfl
    · simp

/-- SEEK and SET_WPOS. -/
theorem forgetBackend_seekTo (s : State) (kind : Kind) (position : Engine → Nat) :
    forgetBackend (s.forgetBackend.seekTo kind position) = forgetBackend (s.seekTo kind position) := by
  refine forgetBackend_onEngine fun e => ?_
  cases e.ctx.requireReady kind with
  | some code => rfl
  | none => dsimp only; split <;> rfl

/-- TELL and GET_WPOS. -/
theorem forgetBackend_report (s : State) (kind : Kind) (value : Context → Nat) :
    forgetBackend (s.forgetBackend.report kind value) = forgetBackend (s.report kind value) := by
  refine forgetBackend_onEngine fun e => ?_
  cases e.ctx.requireReady kind <;> rfl

theorem forgetBackend_runInit (s : State) (r : Rounds) (c : Bool) (seen : Reads) :
    forgetBackend (s.forgetBackend.runInit r c seen) = forgetBackend (s.runInit r c seen) := by
  refine forgetBackend_onEngine fun e => ?_
  unfold State.initCipher
  split
  · rfl
  cases NonceForm.ofInitLength e.zeroize.arg3 with
  | none => rfl
  | some form =>
    dsimp only
    split
    · rfl
    refine forgetBackend_readInput fun key => forgetBackend_readInput fun nonce => ?_
    split <;> simp

theorem forgetBackend_runGenInit (s : State) (r : Rounds) (seen : Reads) :
    forgetBackend (s.forgetBackend.runGenInit r seen) = forgetBackend (s.runGenInit r seen) := by
  refine forgetBackend_onEngine fun e => ?_
  unfold State.initGenerator
  split
  · rfl
  · cases NonceForm.ofStreamLength e.zeroize.arg3 with
    | none => rfl
    | some form =>
      refine forgetBackend_readInput fun seed => ?_
      split
      · rfl
      · exact forgetBackend_readInput fun sid => rfl

theorem forgetBackend_runDerive (s : State) (r : Rounds) (seen : Reads) :
    forgetBackend (s.forgetBackend.runDerive r seen) = forgetBackend (s.runDerive r seen) := by
  refine forgetBackend_onEngine fun e => ?_
  split
  · rfl
  split
  · rfl
  exact forgetBackend_readInput fun key => forgetBackend_readInput fun nonce => by simp

theorem forgetBackend_runBlocks (s : State) (r : Rounds) (seen : Reads) :
    forgetBackend (s.forgetBackend.runBlocks r seen) = forgetBackend (s.runBlocks r seen) := by
  refine forgetBackend_onEngine fun e => ?_
  split
  · rfl
  cases NonceForm.ofBlockLength e.arg3 with
  | none => rfl
  | some form =>
    dsimp only
    split
    · rfl
    split
    · rfl
    refine forgetBackend_readInput fun key => forgetBackend_readInput fun nonce => ?_
    split
    · rfl
    · rw [State.blocksOutput_eq_of_anyBackend s.forgetBackend.resolve s.resolve]
      simp

/-- A command with given reads, whatever the command. -/
theorem forgetBackend_execSeeing (i : Instr) (seen : Reads) (s : State) :
    forgetBackend (execSeeing i seen s.forgetBackend) = forgetBackend (execSeeing i seen s) := by
  cases i with
  | init r c => exact forgetBackend_runInit s r c seen
  | apply => exact forgetBackend_stream s _ _ _
  | seek => exact forgetBackend_seekTo s _ _
  | tell => exact forgetBackend_report s .cipher Context.position
  | zeroize => exact forgetBackend_onEngine fun _ => rfl
  | genInit r => exact forgetBackend_runGenInit s r seen
  | fill => exact forgetBackend_stream s _ _ _
  | setWpos => exact forgetBackend_seekTo s _ _
  | getWpos => exact forgetBackend_report s .generator fun c => c.position / 4
  | derive r => exact forgetBackend_runDerive s r seen
  | blocks r => exact forgetBackend_runBlocks s r seen

theorem forgetBackend_exec (i : Instr) (s : State) : forgetBackend (exec i s.forgetBackend) = forgetBackend (exec i s) := by
  rw [← execSeeing_reads, ← execSeeing_reads]
  exact forgetBackend_execSeeing i s.reads s

/-! ### Commands in flight and the host's operations -/

theorem forgetBackend_runRacing (s : State) (i : Instr) (raced : List AccessRange) :
    forgetBackend (s.forgetBackend.runRacing i raced) = forgetBackend (s.runRacing i raced) := by
  cases raced with
  | nil => exact forgetBackend_exec i s
  | cons r rs =>
    refine forgetBackend_andThen
      (forgetBackend_execSeeing i (s.racedReads (r :: rs)) { s with freeCount := s.freeCount + 3 }) fun t t' h => ?_
    exact congrArg (fun u : State => Host.Outcome.next (u.endRace (r :: rs))) h

theorem forgetBackend_runNow (s : State) (i : Instr) :
    forgetBackend (s.forgetBackend.runNow i) = forgetBackend (s.runNow i) :=
  forgetBackend_onEngine fun e => forgetBackend_runRacing (s.meet (accessRanges i e)) i (s.racedBy (accessRanges i e))

theorem forgetBackend_finish (s : State) (f : Flight) :
    forgetBackend (s.forgetBackend.finish f) = forgetBackend (s.finish f) := by
  unfold State.finish
  rw [State.forgetBackend_engines]
  cases s.engines[f.inst]? with
  | none => rfl
  | some e =>
    refine forgetBackend_andThen (forgetBackend_runRacing (s.flightState f) f.instr f.raced) fun t t' h => ?_
    exact congrArg (fun u : State =>
      Host.Outcome.next { u with engines := u.engines.modify f.inst fun e' => e'.withArgs e.args }) h

theorem forgetBackend_issue (s : State) (k : Nat) (w : Word) :
    forgetBackend (s.forgetBackend.issue k w) = forgetBackend (s.issue k w) := by
  unfold State.issue
  cases decode w with
  | error d => exact forgetBackend_onEngine (s := { s with active := k }) fun _ => rfl
  | ok i => exact forgetBackend_runNow { s with active := k } i

theorem forgetBackend_begin (s : State) (agent k : Nat) (w : Word) :
    forgetBackend (s.forgetBackend.begin agent k w) = forgetBackend (s.begin agent k w) := by
  unfold State.begin
  cases decode w with
  | error d => exact forgetBackend_onEngine (s := { s with active := k }) fun _ => rfl
  | ok i => exact forgetBackend_onEngine (s := { s with active := k }) fun _ => rfl

/-- An access to a register, and what it does there. -/
theorem forgetBackend_atRegister {s : State} {addr : Word} {width : Nat} {body body' : Nat → Register → StepOutcome}
    (h : ∀ k r, forgetBackend (body k r) = forgetBackend (body' k r)) :
    forgetBackend (s.forgetBackend.atRegister addr width body) = forgetBackend (s.atRegister addr width body') := by
  unfold State.atRegister
  rw [State.windowOf_forgetBackend]
  cases s.windowOf addr with
  | none => rfl
  | some w => simp only [apply_ite forgetBackend, h]

theorem forgetBackend_regRead (s : State) (agent : Nat) (addr : Word) (width : Nat) :
    forgetBackend (s.forgetBackend.regRead agent addr width) = forgetBackend (s.regRead agent addr width) := by
  refine forgetBackend_atRegister fun k r => ?_
  rw [State.forgetBackend_engines]
  cases s.engines[k]? <;> rfl

theorem forgetBackend_regWrite (s : State) (addr : Word) (width : Nat) (value : Word) :
    forgetBackend (s.forgetBackend.regWrite addr width value) = forgetBackend (s.regWrite addr width value) := by
  refine forgetBackend_atRegister fun k r => ?_
  cases r with
  | cmd => exact forgetBackend_issue s k value
  | _ => rfl

theorem forgetBackend_beginWrite (s : State) (agent : Nat) (addr : Word) (width : Nat) (value : Word) :
    forgetBackend (s.forgetBackend.beginWrite agent addr width value) = forgetBackend (s.beginWrite agent addr width value) := by
  refine forgetBackend_atRegister fun k r => ?_
  cases r with
  | cmd => exact forgetBackend_begin s agent k value
  | _ => rfl

theorem forgetBackend_hostRead (s : State) (agent : Nat) (addr : Word) :
    forgetBackend (s.forgetBackend.hostRead agent addr) = forgetBackend (s.hostRead agent addr) := by
  unfold State.hostRead
  rw [State.inWindow_forgetBackend, State.racedBy_forgetBackend]
  split
  · rfl
  · cases s.racedBy [(.read, addr.toNat, 1)] <;> rfl

theorem forgetBackend_hostWrite (s : State) (addr : Word) (value : Byte) :
    forgetBackend (s.forgetBackend.hostWrite addr value) = forgetBackend (s.hostWrite addr value) := by
  unfold State.hostWrite
  rw [State.inWindow_forgetBackend]
  split <;> rfl

theorem forgetBackend_completeOn (s : State) (k : Nat) :
    forgetBackend (s.forgetBackend.completeOn k) = forgetBackend (s.completeOn k) := by
  unfold State.completeOn
  rw [State.forgetBackend_pending]
  cases s.pending.find? fun f => f.inst == k with
  | none => rfl
  | some f => exact forgetBackend_finish s f

/-- One operation of the host's list. -/
theorem forgetBackend_perform (op : HostOp) (s : State) :
    forgetBackend (op.perform s.forgetBackend) = forgetBackend (op.perform s) := by
  cases op with
  | regRead agent addr width => exact forgetBackend_regRead s agent addr width
  | regWrite agent addr width value => exact forgetBackend_regWrite s addr width value
  | beginWrite agent addr width value => exact forgetBackend_beginWrite s agent addr width value
  | completes k => exact forgetBackend_completeOn s k
  | memRead agent addr => exact forgetBackend_hostRead s agent addr
  | memWrite agent addr value => exact forgetBackend_hostWrite s addr value
  | powerOnReset => rfl

theorem forgetBackend_step (s : State) : forgetBackend (step s.forgetBackend) = forgetBackend (step s) := by
  unfold step State.hostStep
  rw [State.forgetBackend_hostOps, State.forgetBackend_pc]
  cases s.hostOps[s.pc]? with
  | none =>
    rw [State.forgetBackend_pending]
    cases s.pending with
    | nil => rfl
    | cons f fs => exact forgetBackend_finish s f
  | some op =>
    dsimp only
    rw [State.awaited_forgetBackend]
    cases s.awaited op with
    | none => exact forgetBackend_perform op { s with pc := s.pc + 1 }
    | some f => exact forgetBackend_finish s f

/-- Settles O50: both steps end like the step of their common state without a backend. -/
theorem backendChoiceUnobservable : Obligations.BackendChoiceUnobservable := by
  intro s s' h
  rw [← forgetBackend_step s, ← forgetBackend_step s', h]

end Sys2Proof.Machine
end

section
/-! What a command can do, said once for all eleven: how it may leave its instance, and what else of the machine it may
touch. The frames of 10_state.md R33, R34, R40–R46 and the invariant of R48, R49 are read off from it. -/

namespace Sys2Proof

/-- The commands after which a context is a new one, or none: INIT, GEN_INIT and ZEROIZE (10_state.md R45, R46). -/
def Instr.Constructs (i : Instr) : Prop := (∃ r c, i = .init r c) ∨ (∃ r, i = .genInit r) ∨ i = .zeroize

/-- The commands that read or move the cursor of a context (42_cursor.md R203). -/
def Instr.UsesCursor (i : Instr) : Prop :=
  i = .apply ∨ i = .seek ∨ i = .tell ∨ i = .fill ∨ i = .setWpos ∨ i = .getWpos

end Sys2Proof

namespace Sys2Proof.Machine

/-! ### How a command may leave its instance -/

/-- `e.EndsAs i e'`: command i may leave instance e as e'. -/
inductive Engine.EndsAs (i : Instr) (e : Engine) : Engine → Prop where
  /-- only the outcome is reported -/
  | reported (code : ErrCode) (hc : code ≠ .busFault) : EndsAs i e { e with err := code }
  /-- the context is destroyed (42_cursor.md R192, R202; 44_generator.md R252) -/
  | cleared (code : ErrCode) (hc : code ≠ .busFault) (hi : i.Constructs) : EndsAs i e { e.zeroize with err := code }
  /-- BusFault of DERIVE or BLOCKS (60_exceptions.md R284 c) -/
  | busFault (x : Nat) : EndsAs i e { e with res0 := BitVec.ofNat 64 x, res1 := 0, err := .busFault }
  /-- BusFault of INIT or GEN_INIT (60_exceptions.md R284 a) -/
  | clearedBusFault (x : Nat) (hi : i.Constructs) :
    EndsAs i e { e.zeroize with res0 := BitVec.ofNat 64 x, res1 := 0, err := .busFault }
  /-- a new context (42_cursor.md R190, 44_generator.md R250) -/
  | constructed (kind : Kind) (rounds : Rounds) (cw64 : Bool) (key : Vector Byte 32) (nonce : Vector Byte 12) (c0 : Word)
    (hi : i.Constructs) (hc : c0.toNat ≤ maxCtr cw64) (hn : cw64 = true → ∀ j : Fin 12, 8 ≤ j.val → nonce[j] = 0) :
    EndsAs i e { e with ctx := Context.construct kind rounds cw64 key nonce c0, err := .ok }
  /-- TELL and GET_WPOS (42_cursor.md R200, 44_generator.md R257) -/
  | answered (v : Nat) (hi : i = .tell ∨ i = .getWpos) : EndsAs i e { e.setResult v with err := .ok }
  /-- SEEK and SET_WPOS (42_cursor.md R198, 44_generator.md R255) -/
  | moved (p : Nat) (hi : i.UsesCursor) (hr : e.ctx.cstate = .ready) (hp : p / 64 ≤ maxCtr e.ctx.cw64) :
    EndsAs i e { e with ctx := e.ctx.moveTo p, err := .ok }
  /-- APPLY or FILL past the end of the keystream (42_cursor.md R195) -/
  | exhausted (hi : i.UsesCursor) (hr : e.ctx.cstate = .ready) :
    EndsAs i e { e with ctx := { e.ctx with cstate := .fault }, err := .counterOverflow }
  /-- APPLY or FILL of at least one byte (42_cursor.md R194, 44_generator.md R253) -/
  | drawn (n : Nat) (hi : i.UsesCursor) (hr : e.ctx.cstate = .ready) (hn : n ≠ 0)
    (hp : e.ctx.position + n ≤ endPos e.ctx.cw64) :
    EndsAs i e { e with ctx := (Context.draw (fun c => block c.key c.nv c.ctr c.rnd) n e.ctx).2, err := .ok }
  /-- BusFault of APPLY or FILL (60_exceptions.md R284 b) -/
  | streamFault (x draw : Nat) (hi : i.UsesCursor) (hr : e.ctx.cstate = .ready) :
    EndsAs i e { e with
      ctx := e.ctx.unspecifiedCursor draw, res0 := BitVec.ofNat 64 x, res1 := 0, err := .busFault }

namespace Engine.EndsAs

variable {i : Instr} {e e' : Engine}

/-- No command writes an ARG register (10_state.md R33). -/
theorem args (h : e.EndsAs i e') : e'.args = e.args := by cases h <;> rfl

/-- RES is written by TELL, GET_WPOS and a BusFault only (10_state.md R34, 60_exceptions.md R283). -/
theorem results (h : e.EndsAs i e') (hb : e'.err ≠ .busFault) (ht : ¬((i = .tell ∨ i = .getWpos) ∧ e'.err = .ok)) :
    e'.res0 = e.res0 ∧ e'.res1 = e.res1 := by
  cases h with
  | busFault | clearedBusFault | streamFault => exact absurd rfl hb
  | answered v hi => exact absurd ⟨hi, rfl⟩ ht
  | _ => exact ⟨rfl, rfl⟩

/-- What makes a context the instance it is stays, unless the command constructs or destroys one (10_state.md R45, R46). -/
theorem sameInstance (h : e.EndsAs i e') (hi : ¬i.Constructs) :
    e'.ctx.key = e.ctx.key ∧ e'.ctx.nonce = e.ctx.nonce ∧ e'.ctx.kind = e.ctx.kind ∧ e'.ctx.cw64 = e.ctx.cw64 ∧
      e'.ctx.rnd = e.ctx.rnd := by
  cases h with
  | cleared _ _ hc => exact absurd hc hi
  | clearedBusFault _ hc => exact absurd hc hi
  | constructed _ _ _ _ _ _ hc => exact absurd hc hi
  | drawn n =>
    have hs := e.ctx.draw_same (fun c => block c.key c.nv c.ctr c.rnd) n
    exact ⟨hs.key, hs.nonce, hs.kind, hs.cw64, hs.rnd⟩
  | _ => exact ⟨rfl, rfl, rfl, rfl, rfl⟩

/-- The whole context stays where the command neither constructs or destroys one nor finds it READY to use its cursor. -/
theorem ctx (h : e.EndsAs i e') (hi : ¬i.Constructs) (hr : i.UsesCursor → e.ctx.cstate ≠ .ready) : e'.ctx = e.ctx := by
  cases h with
  | cleared _ _ hc => exact absurd hc hi
  | clearedBusFault _ hc => exact absurd hc hi
  | constructed _ _ _ _ _ _ hc => exact absurd hc hi
  | moved _ hu hready => exact absurd hready (hr hu)
  | exhausted hu hready => exact absurd hready (hr hu)
  | drawn _ hu hready => exact absurd hready (hr hu)
  | streamFault _ _ hu hready => exact absurd hready (hr hu)
  | _ => rfl

end Engine.EndsAs

/-! ### Context invariants -/

theorem Context.Inv.zero : Context.zero.Inv where
  uninit _ := rfl
  counter h := by cases h
  offset h := by cases h
  exhausted h := by cases h
  buffered h := by cases h
  coherent h := by cases h
  shortNonce h := by cases h

/-- A FAULT context's cursor may be anything (60_exceptions.md R284). -/
theorem Context.Inv.of_fault {c : Context} (hf : c.cstate = .fault)
    (hn : c.cw64 = true → ∀ j : Fin 12, 8 ≤ j.val → c.nonce[j] = 0) : c.Inv where
  uninit h := by rw [hf] at h; cases h
  counter h := by rw [hf] at h; cases h
  offset h := by rw [hf] at h; cases h
  exhausted h := by rw [hf] at h; cases h
  buffered h := by rw [hf] at h; cases h
  coherent h := by rw [hf] at h; cases h
  shortNonce := hn

/-- A READY context without a cached block: FRESH at an offset (10_state.md R41, R48). -/
theorem Context.Inv.of_fresh {c : Context} (hr : c.cstate = .ready) (hb : c.bufv = false) (hc : c.ctr.toNat ≤ maxCtr c.cw64)
    (ho : c.ofs.toNat < 64) (hn : c.cw64 = true → ∀ j : Fin 12, 8 ≤ j.val → c.nonce[j] = 0) : c.Inv where
  uninit h := by rw [hr] at h; cases h
  counter _ := hc
  offset _ := ho.le
  exhausted _ h := absurd h ho.ne
  buffered _ h := by rw [hb] at h; cases h
  coherent _ h := by rw [hb] at h; cases h
  shortNonce := hn

theorem Context.Inv.moveTo {c : Context} (h : c.Inv) (hr : c.cstate = .ready) {p : Nat} (hp : p / 64 ≤ maxCtr c.cw64) :
    (c.moveTo p).Inv := by
  have hlt := maxCtr_lt c.cw64
  refine Context.Inv.of_fresh hr rfl ?_ ?_ h.shortNonce
  · rw [Context.moveTo_ctr, Context.moveTo_cw64, BitVec.toNat_ofNat, Nat.mod_eq_of_lt (by omega)]
    exact hp
  · rw [Context.moveTo_ofs, BitVec.toNat_ofNat]
    omega

/-- Drawing keystream up to END keeps the invariant: the cursor stays in order, and OFS ≥ 1 after the last byte keeps the
counter at most MAXCTR (10_state.md R48, R49). -/
theorem Context.Inv.draw {c : Context} (h : c.Inv) (hr : c.cstate = .ready) {n : Nat} (hn : n ≠ 0)
    (hp : c.position + n ≤ endPos c.cw64) : (Context.draw (fun c => block c.key c.nv c.ctr c.rnd) n c).2.Inv := by
  obtain ⟨-, hpos, hok, hbufv⟩ := Context.draw_spec (h.cursorOk hr) n (le_trans hp (endPos_le _))
  have hs := c.draw_same (fun c => block c.key c.nv c.ctr c.rnd) n
  generalize (Context.draw (fun c => block c.key c.nv c.ctr c.rnd) n c).2 = d at *
  have hofs : 1 ≤ d.ofs.toNat := hok.buffered (hbufv (by omega))
  exact
    { uninit := fun hu => by rw [hs.cstate, hr] at hu; cases hu
      counter := fun _ => by
        rw [hs.cw64]
        simp only [Context.position, endPos] at hpos hp
        omega
      offset := fun _ => hok.offset
      exhausted := fun _ => hok.exhausted
      buffered := fun _ => hok.buffered
      coherent := fun _ => hok.coherent
      shortNonce := by rw [hs.cw64, hs.nonce]; exact h.shortNonce }

/-- However a command leaves its instance, the context meets the invariant. -/
theorem Engine.EndsAs.inv {i : Instr} {e e' : Engine} (h : e.EndsAs i e') (he : e.ctx.Inv) : e'.ctx.Inv := by
  cases h with
  | reported | busFault | answered => exact he
  | cleared | clearedBusFault => exact Context.Inv.zero
  | constructed kind rounds cw64 key nonce c0 _ hc hn =>
    exact Context.Inv.of_fresh rfl rfl hc (show (0 : BitVec 7).toNat < 64 by decide) hn
  | moved p _ hr hp => exact he.moveTo hr hp
  | exhausted => exact Context.Inv.of_fault rfl he.shortNonce
  | drawn n _ hr hn hp => exact he.draw hr hn hp
  | streamFault => exact Context.Inv.of_fault rfl he.shortNonce

/-! ### The nonce of a new context -/

/-- 8 bytes and four zeros, as NONCE (10_state.md R44). -/
theorem byteVector_zeros {bytes : List Byte} (h : bytes.length = 8) (j : Fin 12) (hj : 8 ≤ j.val) :
    (byteVector 12 (bytes ++ List.replicate 4 0))[j] = 0 := by
  rw [Fin.getElem_fin, byteVector_getElem, List.getD_eq_getElem?_getD, List.getElem?_append_right (by omega)]
  rw [List.getElem?_replicate_of_lt (by omega)]
  rfl

theorem NonceForm.bytes_of_cw64 {f : NonceForm} (h : f.cw64 = true) : f.bytes = 8 := by
  cases f with
  | short => rfl
  | standard | extended => cases h

/-- The context of INIT's end is a constructed one, with a short nonce in its form. -/
theorem NonceForm.cipherContext_endsAs {f : NonceForm} {i : Instr} (e : Engine) (r : Rounds) (key : List Byte) {nonce : List Byte}
    {c0 : Word} (hi : i.Constructs) (hc : c0.toNat ≤ maxCtr f.cw64) (hn : nonce.length = f.bytes) :
    e.EndsAs i { e with ctx := f.cipherContext r key nonce c0, err := .ok } := by
  cases f with
  | short => exact .constructed _ _ _ _ _ _ hi hc fun _ => byteVector_zeros hn
  | standard => exact .constructed _ _ _ _ _ _ hi hc fun h => by cases h
  | extended => exact .constructed _ _ _ _ _ _ hi hc fun h => by cases h

/-- The context of GEN_INIT's end is a constructed one, with a short stream id in its form. -/
theorem NonceForm.generatorContext_endsAs {f : NonceForm} {i : Instr} (e : Engine) (r : Rounds) (seed : List Byte) {sid : List Byte}
    (hi : i.Constructs) (hn : f.cw64 = true → sid.length = 8) :
    e.EndsAs i { e with ctx := f.generatorContext r seed sid, err := .ok } := by
  refine .constructed _ _ _ _ _ _ hi (Nat.zero_le _) fun h j hj => ?_
  rw [if_pos h]
  exact byteVector_zeros (hn h) j hj

/-! ### What else of the machine a command may touch -/

/-- `s.EndsAs i t`: command i of the active instance may take the machine from s to t. The instance ends as one may; the
selector may have resolved; host memory stays in its canonical form; values may have been drawn; nothing else changes. -/
def State.EndsAs (i : Instr) (s t : State) : Prop :=
  ∃ (e e' : Engine) (u : State) (m : Memory) (n : Nat), s.engine? = some e ∧ e.EndsAs i e' ∧ (u = s ∨ u = s.resolve) ∧
    (Memory.wf s.mem = true → Memory.wf m = true) ∧ t = State.putEngine { u with mem := m, freeCount := n } e'

/-- A command that touches its instance only. -/
theorem State.EndsAs.of_putEngine {i : Instr} {s : State} {e e' : Engine} (he : s.engine? = some e) (h : e.EndsAs i e') :
    s.EndsAs i (s.putEngine e') :=
  ⟨e, e', s, s.mem, s.freeCount, he, h, .inl rfl, id, rfl⟩

/-- A command that touches its instance, and resolves the selector. -/
theorem State.EndsAs.of_resolve_putEngine {i : Instr} {s : State} {e e' : Engine} (he : s.engine? = some e)
    (h : e.EndsAs i e') : s.EndsAs i (s.resolve.putEngine e') :=
  ⟨e, e', s.resolve, s.resolve.mem, s.resolve.freeCount, he, h, .inr rfl, by simp, rfl⟩

/-- An output that passes the range check ends within 2^64 (20_memory.md R76), unless it is empty. -/
theorem State.output_fits {s : State} {kinds : List AccessKind} {a n : Nat} {out : List Byte} (h0 : out ≠ [])
    (hc : s.checkRange kinds a n ≠ .wraps) (hl : out.length = n) : a + out.length ≤ 2 ^ 64 := by
  subst hl
  exact State.checkRange_fits hc fun h => h0 (List.length_eq_zero_iff.mp h)

/-- An output that passes the range check keeps memory's canonical form. -/
theorem Memory.wf_writeBytes_checked {s : State} {kinds : List AccessKind} {a n : Nat} {out : List Byte} {m : Memory}
    (hc : s.checkRange kinds a n ≠ .wraps) (hl : out.length = n) (h : Memory.wf m = true) :
    Memory.wf (Memory.writeBytes m a out) = true := by
  by_cases h0 : out = []
  · rw [h0]; exact h
  · exact Memory.wf_writeBytes _ _ _ (State.output_fits h0 hc hl) h

/-- So does a part of it. -/
theorem Memory.wf_writeSome_checked {s : State} {kinds : List AccessKind} {a n : Nat} {out : List Byte} {m : Memory}
    {landed : Nat → Bool} (hc : s.checkRange kinds a n ≠ .wraps) (hl : out.length = n) (h : Memory.wf m = true) :
    Memory.wf (Memory.writeSome landed m a out) = true := by
  by_cases h0 : out = []
  · rw [h0]; exact h
  · exact Memory.wf_writeSome _ _ _ _ (State.output_fits h0 hc hl) h

/-- The access phase of DERIVE and BLOCKS. -/
theorem State.writeOutput_endsAs {i : Instr} {s t : State} {e : Engine} {a n : Nat} {out : List Byte} (he : s.engine? = some e)
    (hl : out.length = n) (h : s.resolve.writeOutput e a n out = .next t) : s.EndsAs i t := by
  rcases State.writeOutput_next h with ⟨hc, rfl⟩ | ⟨-, rfl⟩ | ⟨x, hc, rfl⟩
  · refine ⟨e, _, s.resolve, _, s.resolve.freeCount, he, .reported .ok (by decide), .inr rfl, fun hm => ?_, rfl⟩
    exact Memory.wf_writeBytes_checked (by rw [hc]; decide) hl (by simpa using hm)
  · exact State.EndsAs.of_resolve_putEngine he (.busFault _)
  · refine ⟨e, _, s.resolve, _, _, he, .busFault x, .inr rfl, fun hm => ?_, rfl⟩
    exact Memory.wf_writeSome_checked (by rw [hc]; simp) hl (by simpa using hm)

/-- The access phase of APPLY and FILL. -/
theorem State.streamAccess_endsAs {i : Instr} {s t : State} {e : Engine} {x : Bool} {m : Memory} (he : s.engine? = some e)
    (hi : i.UsesCursor) (hr : e.ctx.cstate = .ready) (h0 : e.arg1 ≠ 0)
    (hp : e.ctx.position + e.arg1.toNat ≤ endPos e.ctx.cw64) (h : s.resolve.streamAccess e x m = .next t) :
    s.EndsAs i t := by
  rcases State.streamAccess_next h with ⟨hc, rfl⟩ | ⟨-, h⟩ | ⟨y, hc, h⟩
  · rw [State.generate_eq]
    have hn : e.arg1.toNat ≠ 0 := fun hz => h0 (BitVec.eq_of_toNat_eq hz)
    refine ⟨e, _, s.resolve, _, s.resolve.freeCount, he, .drawn _ hi hr hn hp, .inr rfl, fun hm => ?_, rfl⟩
    exact Memory.wf_writeBytes_checked (by rw [hc]; decide) (State.streamOutput_length ..) (by simpa using hm)
  · rw [State.streamFault_eq] at h
    cases h
    exact ⟨e, _, s.resolve, s.resolve.mem, _, he, .streamFault _ _ hi hr, .inr rfl, by simp, rfl⟩
  · rw [State.streamFault_eq] at h
    cases h
    refine ⟨e, _, s.resolve, _, _, he, .streamFault _ _ hi hr, .inr rfl, fun hm => ?_, rfl⟩
    exact Memory.wf_writeSome_checked (by rw [hc]; simp) (State.streamOutput_length ..) (by simpa using hm)

theorem Context.requireReady_ne_busFault {c : Context} {k : Kind} {code : ErrCode} (h : c.requireReady k = some code) :
    code ≠ .busFault := by
  unfold Context.requireReady at h
  split at h
  · cases h; decide
  · cases h; decide
  · split at h
    · cases h
    · cases h; decide

/-- APPLY and FILL. -/
theorem State.stream_endsAs {i : Instr} {s t : State} {k : Kind} {x : Bool} {m : Memory} (hi : i.UsesCursor)
    (h : s.stream k x m = .next t) : s.EndsAs i t := by
  obtain ⟨e, he, ⟨code, hc, rfl⟩ | ⟨hr, -, rfl⟩ | ⟨hr, hp, ⟨-, rfl⟩ | ⟨h0, h⟩⟩⟩ := State.stream_next h
  · exact .of_putEngine he (.reported code (Context.requireReady_ne_busFault hc))
  · exact .of_putEngine he (.exhausted hi (Context.requireReady_none.mp hr).1)
  · exact .of_putEngine he (.reported .ok (by decide))
  · exact State.streamAccess_endsAs he hi (Context.requireReady_none.mp hr).1 h0 hp h

/-- SEEK and SET_WPOS. -/
theorem State.seekTo_endsAs {i : Instr} {s t : State} {k : Kind} {f : Engine → Nat} (hi : i.UsesCursor)
    (h : s.seekTo k f = .next t) : s.EndsAs i t := by
  obtain ⟨e, he, ⟨code, hc, rfl⟩ | ⟨-, -, rfl⟩ | ⟨hr, hp, rfl⟩⟩ := State.seekTo_next h
  · exact .of_putEngine he (.reported code (Context.requireReady_ne_busFault hc))
  · exact .of_putEngine he (.reported .seekOutOfRange (by decide))
  · exact .of_putEngine he (.moved _ hi hr.1 hp)

/-- TELL and GET_WPOS. -/
theorem State.report_endsAs {i : Instr} {s t : State} {k : Kind} {f : Context → Nat} (hi : i = .tell ∨ i = .getWpos)
    (h : s.report k f = .next t) : s.EndsAs i t := by
  obtain ⟨e, he, ⟨code, hc, rfl⟩ | ⟨-, rfl⟩⟩ := State.report_next h
  · exact .of_putEngine he (.reported code (Context.requireReady_ne_busFault hc))
  · exact .of_putEngine he (.answered _ hi)

theorem State.runInit_endsAs {s t : State} {r : Rounds} {c : Bool} {v : Reads} (h : s.runInit r c v = .next t) :
    s.EndsAs (.init r c) t := by
  have hi : (Instr.init r c).Constructs := .inl ⟨r, c, rfl⟩
  obtain ⟨e, he, h⟩ := State.onEngine_next h
  rcases State.initCipher_next h with ⟨code, -, hc, rfl⟩ | ⟨x, rfl⟩ | ⟨form, -, hc, rfl⟩
  · exact .of_putEngine he (.cleared code hc hi)
  · exact .of_putEngine he (.clearedBusFault x hi)
  · have hend := form.cipherContext_endsAs e r (Memory.readBytes v.key e.arg0.toNat 32) hi hc
      (Memory.readBytes_length v.nonce e.arg2.toNat form.bytes)
    split
    · exact .of_resolve_putEngine he hend
    · exact .of_putEngine he hend

theorem State.runGenInit_endsAs {s t : State} {r : Rounds} {v : Reads} (h : s.runGenInit r v = .next t) :
    s.EndsAs (.genInit r) t := by
  have hi : (Instr.genInit r).Constructs := .inr (.inl ⟨r, rfl⟩)
  obtain ⟨e, he, h⟩ := State.onEngine_next h
  rcases State.initGenerator_next h with ⟨code, -, hc, rfl⟩ | ⟨x, rfl⟩ | ⟨form, sid, -, hs, rfl⟩
  · exact .of_putEngine he (.cleared code hc hi)
  · exact .of_putEngine he (.clearedBusFault x hi)
  · refine .of_putEngine he (form.generatorContext_endsAs e r _ hi fun hw => ?_)
    rcases hs with ⟨-, rfl⟩ | ⟨-, rfl⟩
    · rfl
    · rw [Memory.readBytes_length, NonceForm.bytes_of_cw64 hw]

theorem State.runDerive_endsAs {s t : State} {r : Rounds} {v : Reads} (h : s.runDerive r v = .next t) :
    s.EndsAs (.derive r) t := by
  obtain ⟨e, he, ⟨code, hc, rfl⟩ | ⟨x, rfl⟩ | ⟨out, hl, h⟩⟩ := State.runDerive_next h
  · exact .of_putEngine he (.reported code hc)
  · exact .of_putEngine he (.busFault x)
  · exact State.writeOutput_endsAs he hl h

theorem State.runBlocks_endsAs {s t : State} {r : Rounds} {v : Reads} (h : s.runBlocks r v = .next t) :
    s.EndsAs (.blocks r) t := by
  obtain ⟨e, he, ⟨code, hc, rfl⟩ | ⟨x, rfl⟩ | ⟨out, hl, h⟩⟩ := State.runBlocks_next h
  · exact .of_putEngine he (.reported code hc)
  · exact .of_putEngine he (.busFault x)
  · exact State.writeOutput_endsAs he hl h

theorem execZeroize_endsAs {s t : State} (h : execZeroize s = .next t) : s.EndsAs .zeroize t := by
  obtain ⟨e, he, h⟩ := State.onEngine_next h
  cases h
  exact .of_putEngine he (.cleared .ok (by decide) (.inr (.inr rfl)))

/-- Every command, with whatever reads, ends as one may. -/
theorem execSeeing_endsAs {i : Instr} {seen : Reads} {s t : State} (h : execSeeing i seen s = .next t) : s.EndsAs i t := by
  cases i with
  | init r c => exact State.runInit_endsAs h
  | apply => exact State.stream_endsAs (.inl rfl) h
  | seek => exact State.seekTo_endsAs (.inr (.inl rfl)) h
  | tell => exact State.report_endsAs (.inl rfl) h
  | zeroize => exact execZeroize_endsAs h
  | genInit r => exact State.runGenInit_endsAs h
  | fill => exact State.stream_endsAs (.inr (.inr (.inr (.inl rfl)))) h
  | setWpos => exact State.seekTo_endsAs (.inr (.inr (.inr (.inr (.inl rfl))))) h
  | getWpos => exact State.report_endsAs (k := .generator) (f := fun c => c.position / 4) (.inr rfl) h
  | derive r => exact State.runDerive_endsAs h
  | blocks r => exact State.runBlocks_endsAs h

theorem exec_endsAs {i : Instr} {s t : State} (h : exec i s = .next t) : s.EndsAs i t :=
  execSeeing_endsAs ((execSeeing_reads i s).trans h)

end Sys2Proof.Machine
end

section
/-! What no command changes (10_state.md R33, R34, R40–R46; 20_memory.md R84; 60_exceptions.md R290, R295), from
what a command can do (`State.EndsAs`). -/

namespace Sys2Proof.Machine

theorem State.resolve_eq (s : State) :
    s.resolve = { s with bselValid := s.resolve.bselValid, bsel := s.resolve.bsel } := by
  unfold State.resolve; split <;> rfl

/-- What a command may touch, field by field: its instance, host memory, the selector and the number of draws. -/
theorem State.EndsAs.fields {i : Instr} {s t : State} (h : s.EndsAs i t) :
    ∃ (e e' : Engine) (m : Memory) (valid : Bool) (sel : Option Backend) (n : Nat), s.engine? = some e ∧ e.EndsAs i e' ∧
      t = State.putEngine { s with mem := m, bselValid := valid, bsel := sel, freeCount := n } e' := by
  obtain ⟨e, e', u, m, n, he, hend, rfl | rfl, -, rfl⟩ := h
  · exact ⟨e, e', m, _, _, n, he, hend, rfl⟩
  · exact ⟨e, e', m, _, _, n, he, hend, by rw [s.resolve_eq]⟩

/-- The one instance that a command ends, as the state before and the state after name it. -/
theorem State.EndsAs.engines {i : Instr} {s t : State} {e e' : Engine} (h : s.EndsAs i t) (he : s.engine? = some e)
    (he' : t.engine? = some e') : e.EndsAs i e' := by
  obtain ⟨f, f', m, valid, sel, n, hf, hend, rfl⟩ := h.fields
  cases he.symm.trans hf
  cases he'.symm.trans (State.putEngine_engine? hf f')
  exact hend

/-- Settles O57: a command puts its instance back, and of the rest touches the selector, memory and the draws only. -/
theorem commandFrame : Obligations.CommandFrame := by
  intro s t i h
  obtain ⟨e, e', m, valid, sel, n, he, hend, rfl⟩ := (exec_endsAs h).fields
  have hargs := hend.args
  simp only [Engine.args, Vector.mk.injEq, Array.mk.injEq, List.cons.injEq, and_true] at hargs
  exact ⟨rfl, rfl, rfl, rfl, rfl, rfl, List.length_set, fun k hk => State.putEngine_other _ _ hk, e, e', he,
    State.putEngine_engine? he e', hargs⟩

/-- Settles O58: of the ways a command may leave its instance, three write RES. -/
theorem resultRegistersFrame : Obligations.ResultRegistersFrame := by
  intro s t e e' i he h he'
  exact ((exec_endsAs h).engines he he').results

/-- Settles O56: a FAULT context is not READY, and DERIVE and BLOCKS do not use the cursor. -/
theorem onlyConstructionChangesInstance : Obligations.OnlyConstructionChangesInstance := by
  intro s t e e' i he h he' hinit hgen hzero
  have hend := (exec_endsAs h).engines he he'
  have hi : ¬i.Constructs := by
    rintro (⟨r, c, hc⟩ | ⟨r, hc⟩ | hc)
    · exact hinit r c hc
    · exact hgen r hc
    · exact hzero hc
  obtain ⟨hkey, hnonce, hkind, hcw, hrnd⟩ := hend.sameInstance hi
  refine ⟨hkey, hnonce, hkind, hcw, hrnd, fun hf => ?_, fun hdb => ?_⟩
  · exact hend.ctx hi fun _ hr => by rw [hf] at hr; cases hr
  · refine hend.ctx hi fun hu => ?_
    rcases hdb with ⟨r, rfl⟩ | ⟨r, rfl⟩ <;> simp [Instr.UsesCursor] at hu

end Sys2Proof.Machine
end

section
/-! The host's side, from the rule of each operation: register accesses (10_state.md R31–R37), accesses of host memory
(R30, R55; 20_memory.md R85), and commands issued, begun and completed (R32; 20_memory.md R72, R86; 70_reset_and_hazards.md
R315). -/

namespace Sys2Proof.Machine

/-! ### Register windows -/

/-- Settles O7: the sum does not wrap, and its distance from ENGINE_BASE divides into instance and offset. -/
theorem windowAddressesResolve : Obligations.WindowAddressesResolve := by
  intro s k off hk hoff hfit
  have haddr : (s.params.engineBase + BitVec.ofNat 64 (k * 0x100 + off)).toNat =
      s.params.engineBase.toNat + (k * 0x100 + off) := by
    rw [BitVec.toNat_add, BitVec.toNat_ofNat]
    omega
  have hin : s.inWindow (s.params.engineBase + BitVec.ofNat 64 (k * 0x100 + off)).toNat = true := by
    rw [haddr, State.inWindow, Bool.and_eq_true, decide_eq_true_eq, decide_eq_true_eq]
    omega
  rw [State.windowOf, if_pos hin, haddr, Option.some.injEq, Prod.mk.injEq]
  omega

/-- One aligned 64-bit access reaches the register of its slot (10_state.md R31, R37). -/
theorem State.atRegister_aligned {s : State} {addr : Word} {k off : Nat} (hw : s.windowOf addr = some (k, off))
    (ho : off % 8 = 0) (body : Nat → Register → StepOutcome) :
    s.atRegister addr 64 body = body k (registerAt (off / 8)) := by
  simp [State.atRegister, hw, ho]

/-- Any other access to a window is refused (10_state.md R37). -/
theorem State.atRegister_odd {s : State} {addr : Word} {width k off : Nat} (hw : s.windowOf addr = some (k, off))
    (ho : width ≠ 64 ∨ off % 8 ≠ 0) (body : Nat → Register → StepOutcome) :
    s.atRegister addr width body = .refused .registerAccess := by
  simp only [State.atRegister, hw]
  exact if_neg (by omega)

/-- If a register access answers a next state, it is an aligned 64-bit access to a window, and its body answers that state. -/
theorem State.atRegister_next {s t : State} {addr : Word} {width : Nat} {body : Nat → Register → StepOutcome}
    (h : s.atRegister addr width body = .next t) :
    ∃ k off, s.windowOf addr = some (k, off) ∧ width = 64 ∧ off % 8 = 0 ∧ body k (registerAt (off / 8)) = .next t := by
  unfold State.atRegister at h
  split at h
  · cases h
  · next k off hw =>
    split at h
    · next ha => exact ⟨k, off, hw, ha.1, ha.2, h⟩
    · cases h

/-- The slot of CMD is the first of a window (10_state.md R31). -/
theorem registerAt_eq_cmd {slot : Nat} : registerAt slot = .cmd ↔ slot = 0 := by
  constructor
  · intro h
    unfold registerAt at h
    split at h
    case h_1 => rfl
    all_goals cases h
  · rintro rfl; rfl

/-- The slots without a register (10_state.md R36). -/
theorem registerAt_reserved {off : Nat} (h : off = 0x48 ∨ 0x60 ≤ off) : registerAt (off / 8) = .reserved := by
  have hslot : off / 8 = 9 ∨ 12 ≤ off / 8 := by omega
  unfold registerAt
  split
  case h_12 => rfl
  all_goals omega

/-- What each aligned offset of a window reads as (10_state.md R31–R36). -/
theorem Engine.readRegister_registerAt (e : Engine) {off : Nat} (ho : off % 8 = 0) :
    e.readRegister (registerAt (off / 8)) =
      if off = 0x08 then e.status
      else if off = 0x10 then e.arg0 else if off = 0x18 then e.arg1 else if off = 0x20 then e.arg2
      else if off = 0x28 then e.arg3 else if off = 0x30 then e.arg4 else if off = 0x38 then e.arg5
      else if off = 0x40 then e.arg6 else if off = 0x50 then e.res0 else if off = 0x58 then e.res1 else 0 := by
  by_cases hr : off = 0x48 ∨ 0x60 ≤ off
  · rw [registerAt_reserved hr]
    repeat rw [if_neg (by omega)]
    rfl
  · obtain ⟨slot, rfl⟩ : ∃ slot, off = 8 * slot := ⟨off / 8, by omega⟩
    have hlt : slot < 12 := by omega
    interval_cases slot <;> rfl

/-- A step that reads a register lets the agent observe it, and moves the host's index on. -/
theorem step_regRead {s : State} {agent k off : Nat} {addr : Word} {e : Engine} (hp : s.Performs (.regRead agent addr 64))
    (hw : s.windowOf addr = some (k, off)) (ho : off % 8 = 0) (he : s.engines[k]? = some e) :
    step s = .next { s with
      pc := s.pc + 1
      observed := s.observed ++ [.register agent addr (e.readRegister (registerAt (off / 8)))] } := by
  have hw' : State.windowOf { s with pc := s.pc + 1 } addr = some (k, off) := hw
  rw [step_performs hp]
  simp only [HostOp.perform, State.regRead, State.atRegister_aligned hw' ho, he]
  rfl

/-- A step that writes a register other than CMD, or begins to, writes that register of that instance, and moves the host's
index on. -/
theorem step_storeRegister {s : State} {agent k off : Nat} {addr v : Word}
    (hp : s.Performs (.regWrite agent addr 64 v) ∨ s.Performs (.beginWrite agent addr 64 v))
    (hw : s.windowOf addr = some (k, off)) (ho : off % 8 = 0) (h0 : off ≠ 0) :
    step s = .next { s with
      pc := s.pc + 1
      engines := s.engines.modify k fun e => e.writeRegister (registerAt (off / 8)) v } := by
  have hw' : State.windowOf { s with pc := s.pc + 1 } addr = some (k, off) := hw
  have hcmd : registerAt (off / 8) ≠ .cmd := fun h => by have := registerAt_eq_cmd.mp h; omega
  rcases hp with hp | hp
  · rw [step_performs hp]
    simp only [HostOp.perform, State.regWrite, State.atRegister_aligned hw' ho]
    rfl
  · rw [step_performs hp]
    simp only [HostOp.perform, State.beginWrite, State.atRegister_aligned hw' ho]
    rfl

/-- Settles O8: the slot of the offset is the register read. -/
theorem registerReads : Obligations.RegisterReads := by
  intro s agent k off addr e hp hw ho he
  rw [step_regRead hp hw ho he, e.readRegister_registerAt ho]

/-- Settles O9: a reserved slot reads 0, and a write to it or to a read-only register leaves the instance. -/
theorem ineffectiveAccesses : Obligations.IneffectiveAccesses := by
  intro s agent k off addr v hw ho hk
  refine ⟨fun hoff hp => ?_, fun hoff hp => ?_⟩
  · rw [step_regRead hp hw ho (List.getElem?_eq_getElem hk), registerAt_reserved (by omega)]
    rfl
  · have hsame : (fun e : Engine => e.writeRegister (registerAt (off / 8)) v) = id := by
      by_cases hr : off = 0x48 ∨ 0x60 ≤ off
      · rw [registerAt_reserved hr]; rfl
      · obtain rfl | rfl | rfl : off = 0x08 ∨ off = 0x50 ∨ off = 0x58 := by omega
        all_goals rfl
    rw [step_storeRegister hp hw ho (by omega), hsame, List.modify_id]

/-- Settles O10: the seven offsets are the seven ARG registers. -/
theorem argumentWritesStore : Obligations.ArgumentWritesStore := by
  intro s agent k off addr v e hp hw he hoff
  have hoff' : off = 0x10 ∨ off = 0x18 ∨ off = 0x20 ∨ off = 0x28 ∨ off = 0x30 ∨ off = 0x38 ∨ off = 0x40 := by
    simpa using hoff
  rw [step_storeRegister hp hw (by omega) (by omega), List.modify_eq_set_getElem?, he]
  obtain rfl | rfl | rfl | rfl | rfl | rfl | rfl := hoff'
  all_goals rfl

/-- Settles O11: each of the three register accesses goes through the same check. -/
theorem oddRegisterAccessesRefused : Obligations.OddRegisterAccessesRefused := by
  intro s agent width k off addr v hw ho hp
  have hw' : State.windowOf { s with pc := s.pc + 1 } addr = some (k, off) := hw
  rcases hp with hp | hp | hp
  all_goals
    rw [step_performs hp]
    simp only [HostOp.perform, State.regRead, State.regWrite, State.beginWrite, State.atRegister_odd hw' ho]

/-! ### Host memory -/

/-- What races with nothing has no byte raced for, and conversely (20_memory.md R85). -/
theorem State.racedBy_eq_nil {s : State} {mine : List AccessRange} : s.racedBy mine = [] ↔ s.Quiet mine := by
  refine ⟨fun h f hf kind x hx => ?_, State.Quiet.racedBy⟩
  obtain ⟨r, hr, -⟩ := (s.mem_racedBy mine kind x).mpr ⟨f, hf, hx⟩
  rw [h] at hr
  cases hr

/-- A byte of a window is not host memory (10_state.md R37). -/
theorem State.hostRead_window {s : State} {agent : Nat} {addr : Word} (h : s.inWindow addr.toNat = true) :
    s.hostRead agent addr = .refused .registerAccess := if_pos h

theorem State.hostWrite_window {s : State} {addr : Word} {v : Byte} (h : s.inWindow addr.toNat = true) :
    s.hostWrite addr v = .refused .registerAccess := if_pos h

/-- A write of a byte outside the windows is stored, and met by the commands in flight. -/
theorem State.hostWrite_memory {s : State} {addr : Word} {v : Byte} (h : s.inWindow addr.toNat = false) :
    s.hostWrite addr v = .next { s.meet [(.write, addr.toNat, 1)] with mem := Memory.write s.mem addr.toNat v } := by
  simp [State.hostWrite, h]

/-- A read of a byte outside the windows, where it races with nothing. -/
theorem State.hostRead_quiet {s : State} {agent : Nat} {addr : Word} (h : s.inWindow addr.toNat = false)
    (hq : s.Quiet [(.read, addr.toNat, 1)]) :
    s.hostRead agent addr = .next (s.observe (.byte agent addr (Memory.read s.mem addr.toNat))) := by
  simp [State.hostRead, h, hq.racedBy]

/-- A read of a byte outside the windows, where it races. -/
theorem State.hostRead_racing {s : State} {agent : Nat} {addr : Word} (h : s.inWindow addr.toNat = false)
    (hq : ¬s.Quiet [(.read, addr.toNat, 1)]) :
    s.hostRead agent addr =
      .next { (s.meet [(.read, addr.toNat, 1)]).observe (.byte agent addr (Config.racedRead s.freeCount)) with
        freeCount := s.freeCount + 1 } := by
  obtain ⟨r, rs, hr⟩ := List.exists_cons_of_ne_nil fun hnil => hq (State.racedBy_eq_nil.mp hnil)
  simp [State.hostRead, h, hr]

/-- Settles O13: a byte outside the windows is written, and the commands in flight meet the write. -/
theorem hostByteWrites : Obligations.HostByteWrites := by
  intro s agent addr v hp
  have hstep : step s = State.hostWrite { s with pc := s.pc + 1 } addr v := step_performs hp
  rw [hstep]
  refine ⟨fun hin => ?_, fun hin => State.hostWrite_window (s := { s with pc := s.pc + 1 }) hin⟩
  exact ⟨Memory.write s.mem addr.toNat v, s.pending.map (Flight.meet [(.write, addr.toNat, 1)]),
    State.hostWrite_memory (s := { s with pc := s.pc + 1 }) hin, Memory.read_write_same ..,
    fun x hx => Memory.read_write_other _ _ hx, metBy_meet .., fun hq => congrArg State.pending hq.meet⟩

/-- Settles O14: a byte outside the windows is read as it is where the read is quiet, and as a free value where it races. -/
theorem hostByteReads : Obligations.HostByteReads := by
  intro s agent addr hp
  have hstep : step s = State.hostRead { s with pc := s.pc + 1 } agent addr := step_performs hp
  rw [hstep]
  refine ⟨fun hin hq => State.hostRead_quiet (s := { s with pc := s.pc + 1 }) hin hq, fun hin hq => ?_,
    fun hin => State.hostRead_window (s := { s with pc := s.pc + 1 }) hin⟩
  exact ⟨_, _, _, State.hostRead_racing (s := { s with pc := s.pc + 1 }) hin hq, metBy_meet ..⟩

/-! ### Waiting -/

theorem State.commandTarget_eq_some {s : State} {addr : Word} {width k : Nat} :
    s.commandTarget addr width = some k ↔ width = 64 ∧ s.windowOf addr = some (k, 0) := by
  unfold State.commandTarget
  split
  · next hw => simp [hw]
  · next j off hw =>
    rw [hw]
    split
    · next h => simp [h]
    · next h =>
      simp only [reduceCtorEq, Option.some.injEq, Prod.mk.injEq, false_iff]
      exact fun hc => h ⟨hc.1, hc.2.2⟩

/-- The operations that write a command to instance k: 64-bit writes to its CMD register (10_state.md R32). -/
theorem HostOp.commandTo_eq_some {op : HostOp} {s : State} {k : Nat} : op.commandTo s = some k ↔
    ∃ agent addr w, (op = .regWrite agent addr 64 w ∨ op = .beginWrite agent addr 64 w) ∧ s.windowOf addr = some (k, 0) := by
  cases op with
  | regWrite agent addr width w =>
    rw [HostOp.commandTo, State.commandTarget_eq_some]
    constructor
    · rintro ⟨rfl, hw⟩
      exact ⟨agent, addr, w, .inl rfl, hw⟩
    · rintro ⟨agent', addr', w', h | h, hw⟩ <;> cases h
      exact ⟨rfl, hw⟩
  | beginWrite agent addr width w =>
    rw [HostOp.commandTo, State.commandTarget_eq_some]
    constructor
    · rintro ⟨rfl, hw⟩
      exact ⟨agent, addr, w, .inr rfl, hw⟩
    · rintro ⟨agent', addr', w', h | h, hw⟩ <;> cases h
      exact ⟨rfl, hw⟩
  | _ => simp [HostOp.commandTo]

/-- An operation that waits for nothing is of an agent, and writes a command to an instance, that have none in flight
(20_memory.md R72, R84). -/
theorem State.awaited_eq_none {s : State} {op : HostOp} :
    s.awaited op = none ↔ ∀ f ∈ s.pending, op.agent? ≠ some f.agent ∧ op.commandTo s ≠ some f.inst := by
  simp [State.awaited, HostOp.waitsFor, List.find?_eq_none]

/-! ### Commands issued, begun and completed -/

theorem State.issue_legal {s : State} {k : Nat} {w : Word} {i : Instr} (h : decode w = .ok i) :
    s.issue k w = State.runNow { s with active := k } i := by simp only [State.issue, h]

theorem State.begin_legal {s : State} {agent k : Nat} {w : Word} {i : Instr} (h : decode w = .ok i) :
    s.begin agent k w = State.beginFlight { s with active := k } agent i := by simp only [State.begin, h]

/-- A command in flight on an instance there is runs on its sampled registers, and then the host's come back. -/
theorem State.finish_some {s : State} {f : Flight} {e : Engine} (he : s.engines[f.inst]? = some e) :
    s.finish f = StepOutcome.andThen ((s.flightState f).runRacing f.instr f.raced) fun t =>
      .next { t with engines := t.engines.modify f.inst fun e' => e'.withArgs e.args } := by
  simp only [State.finish, he]

/-- Settles O5: a CMD write runs its command or puts it in flight, a completion runs it, and an operation waits for what is
its agent's or its instance's. -/
theorem stepRunsTheDecodedCommand : Obligations.StepRunsTheDecodedCommand := by
  refine ⟨fun s agent k w i e hdec _ he => ⟨fun hn => ?_, fun hn => ?_⟩, fun s f e pc hn he => ?_, fun s op => ?_⟩
  · have he' : (s.commandState k).engine? = some e := he
    have hstep : step s = (s.commandState k).runNow i := (step_command hn).trans (State.issue_legal hdec)
    rw [hstep]
    exact ⟨State.runNow_quiet he', State.onEngine_some he' _⟩
  · have he' : (s.commandState k).engine? = some e := he
    have hstep : step s = (s.commandState k).beginFlight agent i := (step_begins hn).trans (State.begin_legal hdec)
    rw [hstep]
    exact ⟨_, _, State.onEngine_some he' _, metBy_meet .., rfl, rfl, rfl, rfl, s.mem_racedBy _⟩
  · rw [step_completes hn]
    exact State.finish_some (s := { s with pc := pc }) he
  · rw [State.awaited_eq_none]
    refine forall₂_congr fun f _ => and_congr_right fun _ => ?_
    rw [Ne, HostOp.commandTo_eq_some]
    exact ⟨fun h agent addr w hop hw => h ⟨agent, addr, w, hop, hw⟩,
      fun h ⟨agent, addr, w, hop, hw⟩ => h agent addr w hop hw⟩

end Sys2Proof.Machine
end

section
/-! STATUS, field by field (10_state.md R38–R42), and the registers after power-on (R56). -/

namespace Sys2Proof.Machine

/-! ### The numbers in the fields -/

theorem CState.code_le (c : CState) : c.code ≤ 2 := by cases c <;> decide
theorem Kind.code_le (k : Kind) : k.code ≤ 1 := by cases k <;> decide
theorem roundsCode_le (r : Rounds) : roundsCode r ≤ 2 := by cases r <;> decide
theorem ErrCode.code_le (c : ErrCode) : c.code ≤ 9 := by cases c <;> decide

theorem Context.cursorCode_le (c : Context) : c.cursorCode ≤ 2 := by
  unfold Context.cursorCode
  split
  · exact le_rfl
  · split <;> decide

theorem Context.cursorCode_of_ne {c : Context} (h : c.ofs.toNat ≠ 64) : c.cursorCode = if c.bufv then 1 else 0 :=
  if_neg fun h64 => h (by rw [h64]; rfl)

theorem Context.cursorCode_of_eq {c : Context} (h : c.ofs.toNat = 64) : c.cursorCode = 2 :=
  if_pos (BitVec.eq_of_toNat_eq h)

theorem Context.statusBits_uninit {c : Context} (h : c.cstate = .uninit) : c.statusBits = 0 := by
  simp only [Context.statusBits, h]

theorem Context.statusBits_constructed {c : Context} (h : c.cstate ≠ .uninit) :
    c.statusBits =
      c.cstate.code + c.cursorCode * 2 ^ 2 + c.kind.code * 2 ^ 4 + c.cw64.toNat * 2 ^ 5 + roundsCode c.rnd * 2 ^ 6 := by
  unfold Context.statusBits
  split
  · next hu => exact absurd hu h
  · next hr => rw [hr]
  · next hf => rw [hf]

theorem Context.statusBits_lt (c : Context) : c.statusBits < 2 ^ 8 := by
  by_cases h : c.cstate = .uninit
  · rw [Context.statusBits_uninit h]; decide
  · rw [Context.statusBits_constructed h]
    have := c.cstate.code_le
    have := c.cursorCode_le
    have := c.kind.code_le
    have := c.cw64.toNat_le
    have := roundsCode_le c.rnd
    omega

/-! ### The fields -/

/-- A field of a 64-bit value that is given as a number. -/
theorem extractLsb'_ofNat {lo len : Nat} (n : Nat) (hfit : lo + len ≤ 64) :
    (BitVec.ofNat 64 n).extractLsb' lo len = BitVec.ofNat len (n / 2 ^ lo) := by
  apply BitVec.eq_of_getLsbD_eq
  intro i hi
  rw [BitVec.getLsbD_extractLsb', BitVec.getLsbD_ofNat, BitVec.getLsbD_ofNat, Nat.testBit_div_two_pow]
  simp only [hi, show lo + i < 64 by omega, decide_true, Bool.true_and, Nat.add_comm i lo]

/-- A field of STATUS holds the number that stands there. -/
theorem Engine.status_field {e : Engine} {lo len m : Nat} (hfit : lo + len ≤ 64)
    (h : (e.ctx.statusBits + e.err.code * 2 ^ 8) / 2 ^ lo % 2 ^ len = m % 2 ^ len) :
    e.status.extractLsb' lo len = BitVec.ofNat len m := by
  rw [Engine.status, extractLsb'_ofNat _ hfit]
  exact BitVec.eq_of_toNat_eq (by simpa only [BitVec.toNat_ofNat] using h)

/-- STATUS.CSTATE, which is 0 with all of bits 7:0 in an UNINIT context. -/
theorem Engine.status_cstate (e : Engine) : e.status.extractLsb' 0 2 = BitVec.ofNat 2 e.ctx.cstate.code := by
  refine Engine.status_field (by decide) ?_
  by_cases h : e.ctx.cstate = .uninit
  · rw [Context.statusBits_uninit h, h, show CState.uninit.code = 0 from rfl]
    omega
  · rw [Context.statusBits_constructed h]
    omega

/-- STATUS bits 7:2 of an UNINIT context. -/
theorem Engine.status_uninit {e : Engine} (h : e.ctx.cstate = .uninit) : e.status.extractLsb' 2 6 = 0#6 :=
  Engine.status_field (by decide) (by rw [Context.statusBits_uninit h]; omega)

/-- STATUS.ERR. -/
theorem Engine.status_err (e : Engine) : e.status.extractLsb' 8 4 = BitVec.ofNat 4 e.err.code :=
  Engine.status_field (by decide) (by have := e.ctx.statusBits_lt; omega)

/-- STATUS bits 63:12. -/
theorem Engine.status_high (e : Engine) : e.status.extractLsb' 12 52 = 0#52 :=
  Engine.status_field (by decide) (by have := e.ctx.statusBits_lt; have := e.err.code_le; omega)

/-- STATUS.CURSOR, KIND, CW64 and RND of a context that is not UNINIT. -/
theorem Engine.status_constructed {e : Engine} (h : e.ctx.cstate ≠ .uninit) :
    e.status.extractLsb' 2 2 = BitVec.ofNat 2 e.ctx.cursorCode ∧ e.status.extractLsb' 4 1 = BitVec.ofNat 1 e.ctx.kind.code ∧
      e.status.extractLsb' 5 1 = BitVec.ofNat 1 e.ctx.cw64.toNat ∧
      e.status.extractLsb' 6 2 = BitVec.ofNat 2 (roundsCode e.ctx.rnd) := by
  have hstate := e.ctx.cstate.code_le
  have hcursor := e.ctx.cursorCode_le
  have hkind := e.ctx.kind.code_le
  have hwidth := e.ctx.cw64.toNat_le
  have hrounds := roundsCode_le e.ctx.rnd
  refine ⟨Engine.status_field (by decide) ?_, Engine.status_field (by decide) ?_, Engine.status_field (by decide) ?_,
    Engine.status_field (by decide) ?_⟩
  all_goals
    rw [Context.statusBits_constructed h]
    omega

/-- Settles O17: the fields hold the codes, and the codes are the numbers of R38 and R280. -/
theorem statusFields : Obligations.StatusFields := by
  intro e
  refine ⟨?_, Engine.status_uninit, fun h => ?_, ?_, e.status_high⟩
  · rw [e.status_cstate]
    cases e.ctx.cstate <;> rfl
  · obtain ⟨hcursor, hkind, hwidth, hrounds⟩ := Engine.status_constructed h
    rw [hcursor, hkind, hwidth, hrounds]
    refine ⟨fun ⟨hb, ho⟩ => ?_, fun ⟨hb, _, ho⟩ => ?_, fun ⟨_, ho⟩ => ?_, ?_, ?_, ?_⟩
    · rw [Context.cursorCode_of_ne (by omega), hb]; rfl
    · rw [Context.cursorCode_of_ne (by omega), hb]; rfl
    · rw [Context.cursorCode_of_eq ho]
    · cases e.ctx.kind <;> rfl
    · cases e.ctx.cw64 <;> rfl
    · cases e.ctx.rnd <;> rfl
  · rw [e.status_err]
    cases e.err <;> rfl

/-! ### Power-on -/

/-- Every slot of a zero instance's window reads 0 (10_state.md R56). -/
theorem Engine.zero_readRegister (r : Register) : Engine.zero.readRegister r = 0 := by
  cases r with
  | arg i => fin_cases i <;> rfl
  | _ => rfl

/-- Settles O16: every instance after power-on is the zero instance. -/
theorem resetStateIsZero : Obligations.ResetStateIsZero := by
  refine ⟨fun p ninst => ⟨List.length_replicate, rfl, rfl, rfl, fun e he => ?_⟩, rfl⟩
  rw [List.eq_of_mem_replicate he]
  exact ⟨Engine.zero_readRegister .status, rfl, fun off => Engine.zero_readRegister _⟩

end Sys2Proof.Machine
end

section
/-! The invariant of the machine (10_state.md R48, R49, R53; 20_memory.md R72, R84), and that every step keeps it: each
operation of the host and each completion of a command in flight, from what a command can do (`State.EndsAs`). -/

namespace Sys2Proof.Machine

/-! ### Power-on -/

theorem State.Inv.powerOn (p : Params) (ninst : Nat) : (State.powerOn p ninst).Inv where
  contexts e he := by rw [List.eq_of_mem_replicate he]; exact Context.Inv.zero
  selector := rfl
  memory := rfl
  instances f hf := by cases hf
  single := .nil

/-- Settles O53: every instance's context is zero, and nothing is in flight. -/
theorem powerOnMeetsInvariant : Obligations.PowerOnMeetsInvariant :=
  ⟨State.Inv.powerOn, State.Inv.powerOn Params.default 1⟩

/-! ### What keeps the invariant -/

namespace State.Inv

variable {s : State}

/-- The host's index and observations, the active instance and the number of draws have no part in it. -/
theorem withHost (h : s.Inv) (pc active n : Nat) (obs : List Observation) :
    State.Inv { s with pc := pc, active := active, observed := obs, freeCount := n } :=
  ⟨h.contexts, h.selector, h.memory, h.instances, h.single⟩

theorem withMem (h : s.Inv) {m : Memory} (hm : Memory.wf m = true) (n : Nat) :
    State.Inv { s with mem := m, freeCount := n } :=
  ⟨h.contexts, h.selector, hm, h.instances, h.single⟩

theorem resolve (h : s.Inv) : s.resolve.Inv := by
  unfold State.resolve
  split
  · exact h
  · exact ⟨h.contexts, rfl, h.memory, h.instances, h.single⟩

theorem putEngine (h : s.Inv) {e : Engine} (he : e.ctx.Inv) : (s.putEngine e).Inv where
  contexts f hf := by
    rcases List.mem_or_eq_of_mem_set hf with hf | rfl
    · exact h.contexts f hf
    · exact he
  selector := h.selector
  memory := h.memory
  instances f hf := by simpa using h.instances f hf
  single := h.single

/-- A change of an instance that keeps its context. -/
theorem modify (h : s.Inv) (k : Nat) {g : Engine → Engine} (hg : ∀ e, (g e).ctx = e.ctx) :
    State.Inv { s with engines := s.engines.modify k g } where
  contexts f hf := by
    obtain ⟨j, hj⟩ := List.mem_iff_getElem?.mp hf
    rw [List.getElem?_modify] at hj
    obtain ⟨e, he, rfl⟩ := Option.map_eq_some_iff.mp hj
    have hctx := h.contexts e (List.mem_of_getElem? he)
    split
    · rw [hg]; exact hctx
    · exact hctx
  selector := h.selector
  memory := h.memory
  instances f hf := by simpa using h.instances f hf
  single := h.single

/-- The commands in flight meet accesses of others. -/
theorem meet (h : s.Inv) (theirs : List AccessRange) : (s.meet theirs).Inv where
  contexts := h.contexts
  selector := h.selector
  memory := h.memory
  instances f hf := by
    obtain ⟨g, hg, rfl⟩ := List.mem_map.mp hf
    exact h.instances g hg
  single := List.pairwise_map.mpr h.single

/-- Some commands are no longer in flight. -/
theorem filter (h : s.Inv) (p : Flight → Bool) : State.Inv { s with pending := s.pending.filter p } where
  contexts := h.contexts
  selector := h.selector
  memory := h.memory
  instances f hf := h.instances f (List.mem_of_mem_filter hf)
  single := h.single.filter p

/-- One more command is in flight, for an instance and an agent that had none. -/
theorem append (h : s.Inv) {f : Flight} (hi : f.inst < s.engines.length)
    (hf : ∀ g ∈ s.pending, g.inst ≠ f.inst ∧ g.agent ≠ f.agent) : State.Inv { s with pending := s.pending ++ [f] } where
  contexts := h.contexts
  selector := h.selector
  memory := h.memory
  instances g hg := by
    rcases List.mem_append.mp hg with hg | hg
    · exact h.instances g hg
    · rw [List.mem_singleton.mp hg]; exact hi
  single := List.pairwise_append.mpr ⟨h.single, List.pairwise_singleton .., fun g hg g' hg' => by
    rw [List.mem_singleton.mp hg']; exact hf g hg⟩

theorem endRace (h : s.Inv) (raced : List AccessRange) : (s.endRace raced).Inv :=
  h.withMem (Memory.wf_scramble _ _ _ h.memory) _

theorem flightState (h : s.Inv) (f : Flight) : (s.flightState f).Inv :=
  ((h.filter _).modify f.inst fun _ => Engine.withArgs_ctx ..).withHost _ _ _ _

theorem powerOnReset (h : s.Inv) : s.powerOnReset.Inv where
  contexts e he := by rw [List.eq_of_mem_replicate he]; exact Context.Inv.zero
  selector := rfl
  memory := Memory.wf_scramble _ _ _ h.memory
  instances f hf := by cases hf
  single := .nil

/-- The active instance meets the invariant of contexts. -/
theorem engine? (h : s.Inv) {e : Engine} (he : s.engine? = some e) : e.ctx.Inv := h.contexts e (List.mem_of_getElem? he)

/-- Whatever command the machine ends as one may from a good state, it is good. -/
theorem endsAs (h : s.Inv) {i : Instr} {t : State} (ht : s.EndsAs i t) : t.Inv := by
  obtain ⟨e, e', u, m, n, he, hend, hu, hm, rfl⟩ := ht
  have hu' : u.Inv := by
    rcases hu with rfl | rfl
    · exact h
    · exact h.resolve
  exact (hu'.withMem (hm h.memory) n).putEngine (hend.inv (h.engine? he))

/-! ### Commands, raced or not, begun or completed -/

theorem runRacing (h : s.Inv) {i : Instr} {raced : List AccessRange} {t : State} (ht : s.runRacing i raced = .next t) :
    t.Inv := by
  rcases State.runRacing_next ht with ⟨-, ht⟩ | ⟨u, hu, rfl⟩
  · exact h.endsAs (exec_endsAs ht)
  · exact ((h.withHost s.pc s.active (s.freeCount + 3) s.observed).endsAs (execSeeing_endsAs hu)).endRace raced

theorem runNow (h : s.Inv) {i : Instr} {t : State} (ht : s.runNow i = .next t) : t.Inv := by
  obtain ⟨e, -, ht⟩ := State.onEngine_next ht
  exact (h.meet _).runRacing ht

theorem raiseIllegal (h : s.Inv) {t : State} (ht : s.raiseIllegal = .next t) : t.Inv := by
  obtain ⟨e, he, ht⟩ := State.onEngine_next ht
  cases ht
  have hctx : e.ctx.Inv := h.engine? he
  exact h.putEngine hctx

theorem issue (h : s.Inv) {k : Nat} {w : Word} {t : State} (ht : s.issue k w = .next t) : t.Inv := by
  have hk : State.Inv { s with active := k } := h.withHost s.pc k s.freeCount s.observed
  unfold State.issue at ht
  split at ht
  · exact hk.raiseIllegal ht
  · exact hk.runNow ht

theorem beginFlight (h : s.Inv) {agent : Nat} {i : Instr} {t : State} (ht : s.beginFlight agent i = .next t)
    (hf : ∀ g ∈ s.pending, g.inst ≠ s.active ∧ g.agent ≠ agent) : t.Inv := by
  obtain ⟨e, he, ht⟩ := State.onEngine_next ht
  cases ht
  refine (h.meet (accessRanges i e)).append (List.getElem?_eq_some_iff.mp he).1 fun g hg => ?_
  obtain ⟨g', hg', rfl⟩ := List.mem_map.mp hg
  exact hf g' hg'

theorem begin (h : s.Inv) {agent k : Nat} {w : Word} {t : State} (ht : s.begin agent k w = .next t)
    (hf : ∀ g ∈ s.pending, g.inst ≠ k ∧ g.agent ≠ agent) : t.Inv := by
  have hk : State.Inv { s with active := k } := h.withHost s.pc k s.freeCount s.observed
  unfold State.begin at ht
  split at ht
  · exact hk.raiseIllegal ht
  · exact hk.beginFlight ht hf

theorem finish (h : s.Inv) {f : Flight} {t : State} (ht : s.finish f = .next t) : t.Inv := by
  unfold State.finish at ht
  split at ht
  · cases ht
  · next e _ =>
    obtain ⟨u, hu, ht⟩ := StepOutcome.andThen_eq_next ht
    cases ht
    exact ((h.flightState f).runRacing hu).modify f.inst fun _ => Engine.withArgs_ctx ..

/-! ### The host's operations -/

theorem storeRegister (h : s.Inv) {k : Nat} {r : Register} {v : Word} {t : State} (ht : s.storeRegister k r v = .next t) :
    t.Inv := by
  cases ht
  exact h.modify k fun e => e.writeRegister_ctx r v

theorem hostRead (h : s.Inv) {agent : Nat} {addr : Word} {t : State} (ht : s.hostRead agent addr = .next t) : t.Inv := by
  unfold State.hostRead at ht
  split at ht
  · cases ht
  · split at ht
    · cases ht
      exact h.withHost s.pc s.active s.freeCount _
    · cases ht
      exact (h.meet _).withHost s.pc s.active _ _

theorem hostWrite (h : s.Inv) {addr : Word} {v : Byte} {t : State} (ht : s.hostWrite addr v = .next t) : t.Inv := by
  unfold State.hostWrite at ht
  split at ht
  · cases ht
  · cases ht
    exact (h.meet _).withMem (Memory.wf_write _ _ _ addr.isLt h.memory) s.freeCount

theorem regRead (h : s.Inv) {agent width : Nat} {addr : Word} {t : State} (ht : s.regRead agent addr width = .next t) :
    t.Inv := by
  obtain ⟨k, off, -, -, -, ht⟩ := State.atRegister_next ht
  split at ht
  · cases ht
  · cases ht
    exact h.withHost s.pc s.active s.freeCount _

theorem regWrite (h : s.Inv) {width : Nat} {addr v : Word} {t : State} (ht : s.regWrite addr width v = .next t) : t.Inv := by
  obtain ⟨k, off, -, -, -, ht⟩ := State.atRegister_next ht
  split at ht
  · exact h.issue ht
  · exact h.storeRegister ht

/-- A command that begins is the only one of its instance and of its agent, since its write waited for nothing. -/
theorem beginWrite (h : s.Inv) {agent width : Nat} {addr v : Word} {t : State}
    (ha : s.awaited (.beginWrite agent addr width v) = none) (ht : s.beginWrite agent addr width v = .next t) : t.Inv := by
  obtain ⟨k, off, hw, rfl, ho, ht⟩ := State.atRegister_next ht
  split at ht
  · next hcmd =>
    refine h.begin ht fun g hg => ?_
    obtain ⟨hagent, hinst⟩ := State.awaited_eq_none.mp ha g hg
    have hoff : off = 0 := by have := registerAt_eq_cmd.mp hcmd; omega
    have htarget : HostOp.commandTo (.beginWrite agent addr 64 v) s = some k :=
      HostOp.commandTo_eq_some.mpr ⟨agent, addr, v, .inr rfl, by rw [hw, hoff]⟩
    exact ⟨fun hk => hinst (hk ▸ htarget), fun hk => hagent (congrArg some hk.symm)⟩
  · exact h.storeRegister ht

theorem completeOn (h : s.Inv) {k : Nat} {t : State} (ht : s.completeOn k = .next t) : t.Inv := by
  unfold State.completeOn at ht
  split at ht
  · cases ht; exact h
  · exact h.finish ht

/-- Every operation that waits for nothing keeps the invariant. -/
theorem perform (h : s.Inv) {op : HostOp} {t : State} (ha : s.awaited op = none) (ht : op.perform s = .next t) : t.Inv := by
  cases op with
  | regRead agent addr width => exact h.regRead ht
  | regWrite agent addr width v => exact h.regWrite ht
  | beginWrite agent addr width v => exact h.beginWrite ha ht
  | completes k => exact h.completeOn ht
  | memRead agent addr => exact h.hostRead ht
  | memWrite agent addr v => exact h.hostWrite ht
  | powerOnReset => cases ht; exact h.powerOnReset

end State.Inv

/-! ### Every step -/

/-- Settles O54: a step performs an operation that waits for nothing, or completes a command in flight, or does nothing. -/
theorem stepKeepsInvariant : Obligations.StepKeepsInvariant := by
  intro s t h ht
  unfold step State.hostStep at ht
  split at ht
  · split at ht
    · cases ht; exact h
    · exact h.finish ht
  · split at ht
    · next op _ ha => exact (h.withHost (s.pc + 1) s.active s.freeCount s.observed).perform ha ht
    · exact h.finish ht

end Sys2Proof.Machine
end

section
/-! The range check byte by byte (20_memory.md R76, R77, R81), and what it does to a command's accesses: a BusFault on an input
or an output (60_exceptions.md R283, R284), or the refusal of a range that covers a register window (R81). -/

namespace Sys2Proof.Machine

/-! ### The range check -/

theorem State.coversWindow_eq_false {s : State} {a n : Nat} :
    s.coversWindow a n = false ↔ ∀ x, InRange a n x → s.inWindow x = false := by
  rw [← Bool.not_eq_true, s.coversWindow_iff]
  simp only [not_exists, not_and, Bool.not_eq_true]

/-- A range wraps iff it ends past 2^64 (20_memory.md R76). -/
theorem State.checkRange_eq_wraps {s : State} {kinds : List AccessKind} {a n : Nat} :
    s.checkRange kinds a n = .wraps ↔ n ≠ 0 ∧ 2 ^ 64 < a + n := by
  unfold State.checkRange
  by_cases h0 : n = 0
  · simp [h0]
  by_cases hw : 2 ^ 64 < a + n
  · simp [h0, hw, -Nat.reducePow]
  cases s.coversWindow a n with
  | true => simp [h0, hw, -Nat.reducePow]
  | false => cases Params.firstDenied s.params kinds a n <;> simp [h0, hw, -Nat.reducePow]

/-- A range that does not wrap is the engine's own iff it holds a byte of a window (20_memory.md R81; log 7). -/
theorem State.checkRange_eq_ownWindow {s : State} {kinds : List AccessKind} {a n : Nat} :
    s.checkRange kinds a n = .ownWindow ↔ n ≠ 0 ∧ a + n ≤ 2 ^ 64 ∧ ∃ x, InRange a n x ∧ s.inWindow x = true := by
  rw [← s.coversWindow_iff]
  unfold State.checkRange
  by_cases h0 : n = 0
  · simp [h0]
  by_cases hw : 2 ^ 64 < a + n
  · simp [h0, hw, -Nat.reducePow]
  cases s.coversWindow a n with
  | true => simp [h0, hw, Nat.le_of_not_lt hw, -Nat.reducePow]
  | false => cases Params.firstDenied s.params kinds a n <;> simp [h0, hw, -Nat.reducePow]

/-- Any other range is denied at the first byte that `firstDenied` finds (20_memory.md R77). -/
theorem State.checkRange_eq_denied {s : State} {kinds : List AccessKind} {a n x : Nat} :
    s.checkRange kinds a n = .denied x ↔ n ≠ 0 ∧ a + n ≤ 2 ^ 64 ∧ (∀ y, InRange a n y → s.inWindow y = false) ∧
      Params.firstDenied s.params kinds a n = some x := by
  rw [← State.coversWindow_eq_false]
  unfold State.checkRange
  by_cases h0 : n = 0
  · simp [h0]
  by_cases hw : 2 ^ 64 < a + n
  · simp [h0, hw, -Nat.reducePow]
  cases s.coversWindow a n with
  | true => simp [h0, hw, -Nat.reducePow]
  | false => cases Params.firstDenied s.params kinds a n <;> simp [h0, hw, Nat.le_of_not_lt hw, -Nat.reducePow]

/-- Settles O35: the check's branches, with what `coversWindow` and `firstDenied` find. -/
theorem rangeChecksByByte : Obligations.RangeChecksByByte := by
  intro s kinds a n
  refine ⟨State.checkRange_eq_wraps, State.checkRange_eq_ownWindow, fun x => ?_, s.accessible_iff kinds a n⟩
  rw [State.checkRange_eq_denied, Params.firstDenied_some]

/-- An access that faults is to a range of at least one byte (20_memory.md R76). -/
theorem State.AccessFaults.ne_zero {s : State} {kinds : List AccessKind} {a n x : Nat} (h : s.AccessFaults kinds a n x) :
    n ≠ 0 := by
  rintro rfl
  rcases h with ⟨h, -⟩ | h <;> rw [State.checkRange_zero] at h <;> cases h

/-- A range that fits and holds a byte of a window is the engine's own. -/
theorem State.checkRange_of_window {s : State} {kinds : List AccessKind} {a n x : Nat} (hfit : a + n ≤ 2 ^ 64)
    (hx : InRange a n x) (hw : s.inWindow x = true) : s.checkRange kinds a n = .ownWindow := by
  refine State.checkRange_eq_ownWindow.mpr ⟨?_, hfit, x, hx, hw⟩
  have := hx.1
  have := hx.2
  omega

/-! ### The operands that INIT, GEN_INIT and BLOCKS let through -/

/-- The lengths and counters INIT accepts (42_cursor.md R190). -/
theorem NonceForm.ofInitLength_accepted {e : Engine} {c : Bool}
    (h : e.arg3 = 8 ∨ e.arg3 ∈ ([12, 24] : List Word) ∧ (if c then e.arg4.toNat else 0) < 2 ^ 32) :
    ∃ form, NonceForm.ofInitLength e.arg3 = some form ∧ (e.initialCounter c).toNat ≤ maxCtr form.cw64 := by
  have hc : (e.initialCounter c).toNat = if c then e.arg4.toNat else 0 := by cases c <;> rfl
  simp only [List.mem_cons, List.not_mem_nil, or_false] at h
  obtain h3 | ⟨h3 | h3, hlt⟩ := h
  · exact ⟨.short, by rw [h3]; rfl, Nat.le_sub_one_of_lt (e.initialCounter c).isLt⟩
  · exact ⟨.standard, by rw [h3]; rfl, by rw [hc]; exact Nat.le_sub_one_of_lt hlt⟩
  · exact ⟨.extended, by rw [h3]; rfl, by rw [hc]; exact Nat.le_sub_one_of_lt hlt⟩

/-- The stream-id lengths GEN_INIT accepts, and which of them give the 64-bit counter (44_generator.md R250). -/
theorem NonceForm.ofStreamLength_accepted {len : Word} (h : len ∈ ([0, 8, 12] : List Word)) :
    ∃ form, NonceForm.ofStreamLength len = some form ∧ (form.cw64 = true ↔ len ≠ 12) := by
  simp only [List.mem_cons, List.not_mem_nil, or_false] at h
  rcases h with rfl | rfl | rfl
  · exact ⟨.short, rfl, by decide⟩
  · exact ⟨.short, rfl, by decide⟩
  · exact ⟨.standard, rfl, by decide⟩

/-- The length GEN_INIT reads, where there is a stream id, is its length operand. -/
theorem NonceForm.bytes_ofStreamLength {len : Word} {form : NonceForm} (h : NonceForm.ofStreamLength len = some form)
    (h0 : len ≠ 0) : form.bytes = len.toNat := by
  rw [NonceForm.ofStreamLength, if_neg h0] at h
  exact NonceForm.bytes_ofBlockLength h

/-- The lengths and counters BLOCKS accepts (41_backends.md R170). -/
theorem NonceForm.ofBlockLength_accepted {e : Engine}
    (h : e.arg3 = 8 ∧ e.arg4.toNat + e.arg6.toNat ≤ 2 ^ 64 ∨
      e.arg3 = 12 ∧ e.arg4.toNat < 2 ^ 32 ∧ e.arg4.toNat + e.arg6.toNat ≤ 2 ^ 32) :
    ∃ form, NonceForm.ofBlockLength e.arg3 = some form ∧ e.arg4.toNat ≤ maxCtr form.cw64 ∧
      e.arg4.toNat + e.arg6.toNat ≤ maxCtr form.cw64 + 1 := by
  obtain ⟨h3, hn⟩ | ⟨h3, hc, hn⟩ := h
  · exact ⟨.short, by rw [h3]; rfl, Nat.le_sub_one_of_lt e.arg4.isLt, hn⟩
  · exact ⟨.standard, by rw [h3]; rfl, Nat.le_sub_one_of_lt hc, hn⟩

/-! ### An input that stops a command -/

/-- Reading the key, or after it the nonce of `len` bytes, ends the command with outcome `o`, whatever would come after. -/
def State.InputsStop (s : State) (e : Engine) (v : Reads) (len : Nat) (o : StepOutcome) : Prop :=
  (∀ body, s.readInput e v.key e.arg0.toNat 32 body = o) ∨
    s.Accessible [.read] e.arg0.toNat 32 ∧ ∀ body, s.readInput e v.nonce e.arg2.toNat len body = o

namespace State.InputsStop

variable {s : State} {e : Engine} {v : Reads} {o : StepOutcome}

/-- A BusFault on an input (20_memory.md R76, R77). -/
theorem of_faults {len x : Nat} (h : s.AccessFaults [.read] e.arg0.toNat 32 x ∨
      s.Accessible [.read] e.arg0.toNat 32 ∧ s.AccessFaults [.read] e.arg2.toNat len x) :
    s.InputsStop e v len (s.busFault e x) :=
  h.imp State.readInput_faults (And.imp_right State.readInput_faults)

/-- An input that covers a register window (20_memory.md R81). -/
theorem of_window {len x : Nat} (hw : s.inWindow x = true)
    (h : e.arg0.toNat + 32 ≤ 2 ^ 64 ∧ InRange e.arg0.toNat 32 x ∨
      s.Accessible [.read] e.arg0.toNat 32 ∧ e.arg2.toNat + len ≤ 2 ^ 64 ∧ InRange e.arg2.toNat len x) :
    s.InputsStop e v len (.refused .ownWindow) := by
  have hread : ∀ {a n : Nat}, a + n ≤ 2 ^ 64 → InRange a n x → ∀ (m : Memory) body,
      s.readInput e m a n body = .refused .ownWindow := fun hfit hx m body => by
    simp [State.readInput, State.checkRange_of_window hfit hx hw]
  exact h.imp (fun ⟨hfit, hx⟩ => hread hfit hx _) (And.imp_right fun ⟨hfit, hx⟩ => hread hfit hx _)

/-- A command that reads the key and then the nonce ends so. -/
theorem reads {len : Nat} (h : s.InputsStop e v len o) (body : List Byte → List Byte → StepOutcome) :
    (s.readInput e v.key e.arg0.toNat 32 fun key => s.readInput e v.nonce e.arg2.toNat len fun nonce => body key nonce) = o := by
  rcases h with h | ⟨hkey, h⟩
  · exact h _
  · rw [State.readInput_accessible hkey]; exact h _

theorem runInit {r : Rounds} {c : Bool} (he : s.engine? = some e) (h1 : e.arg1 = 32)
    (hops : e.arg3 = 8 ∨ e.arg3 ∈ ([12, 24] : List Word) ∧ (if c then e.arg4.toNat else 0) < 2 ^ 32)
    (h : s.InputsStop e.zeroize v e.arg3.toNat o) : s.runInit r c v = o := by
  obtain ⟨form, hf, hc⟩ := NonceForm.ofInitLength_accepted hops
  rw [State.runInit_reads he h1 hf hc, NonceForm.bytes_ofInitLength hf]
  exact h.reads _

theorem runGenInit {r : Rounds} (he : s.engine? = some e) (h1 : e.arg1 = 32) (h3 : e.arg3 ∈ ([0, 8, 12] : List Word))
    (h : s.InputsStop e.zeroize v e.arg3.toNat o) : s.runGenInit r v = o := by
  obtain ⟨form, hf, -⟩ := NonceForm.ofStreamLength_accepted h3
  rw [State.runGenInit_reads he h1 hf]
  by_cases h0 : e.arg3 = 0
  · simp only [if_pos h0]
    rcases h with h | ⟨hkey, h⟩
    · exact h _
    · -- an empty stream id is not read, so `o` is what comes after an admitted read of no byte
      have hnone : s.Accessible [.read] e.zeroize.arg2.toNat e.arg3.toNat := by rw [h0]; exact s.checkRange_zero ..
      exact (State.readInput_accessible hkey _).trans ((State.readInput_accessible hnone _).symm.trans (h fun _ => s.complete
        { e with ctx := form.generatorContext r (Memory.readBytes v.key e.arg0.toNat 32) (List.replicate 8 0) }))
  · simp only [if_neg h0, NonceForm.bytes_ofStreamLength hf h0]
    exact h.reads _

theorem runDerive {r : Rounds} (he : s.engine? = some e) (h1 : e.arg1 = 32) (h3 : e.arg3 = 24)
    (h : s.InputsStop e v e.arg3.toNat o) : s.runDerive r v = o := by
  rw [State.runDerive_reads he h1 h3]
  rw [h3] at h
  exact h.reads _

theorem runBlocks {r : Rounds} (he : s.engine? = some e) (h1 : e.arg1 = 32)
    (hops : e.arg3 = 8 ∧ e.arg4.toNat + e.arg6.toNat ≤ 2 ^ 64 ∨
      e.arg3 = 12 ∧ e.arg4.toNat < 2 ^ 32 ∧ e.arg4.toNat + e.arg6.toNat ≤ 2 ^ 32)
    (h : s.InputsStop e v e.arg3.toNat o) : s.runBlocks r v = o := by
  obtain ⟨form, hf, hc, hn⟩ := NonceForm.ofBlockLength_accepted hops
  rw [State.runBlocks_reads he h1 hf hc hn, NonceForm.bytes_ofBlockLength hf]
  exact h.reads _

end State.InputsStop

/-- Settles O36: each of the four commands ends at the input whose access fails. -/
theorem inputBusFaults : Obligations.InputBusFaults := by
  intro s e r c x he h1 hfault
  exact ⟨fun hops => State.InputsStop.runInit he h1 hops (.of_faults hfault),
    fun h3 => State.InputsStop.runGenInit he h1 h3 (.of_faults hfault),
    fun h3 => State.InputsStop.runDerive he h1 h3 (.of_faults hfault),
    fun hops => State.InputsStop.runBlocks he h1 hops (.of_faults hfault)⟩

end Sys2Proof.Machine
end

section
/-! A BusFault on the buffer of APPLY or FILL or on the output of DERIVE or BLOCKS, with the bytes that landed before it
(60_exceptions.md R284), and the refusal of a range that covers a register window (20_memory.md R81). -/

namespace Sys2Proof.Machine

/-! ### The bytes that landed -/

/-- No byte landed: a failed range check comes before any access (20_memory.md R76). -/
@[simp] theorem Memory.writeSome_none (bytes : List Byte) (m : Memory) (a : Nat) :
    Memory.writeSome (fun _ => false) m a bytes = m := by
  induction bytes generalizing m a with
  | nil => rfl
  | cons v vs ih => exact ih m (a + 1)

/-- Every byte landed. -/
theorem Memory.writeSome_all (bytes : List Byte) (m : Memory) (a : Nat) :
    Memory.writeSome (fun _ => true) m a bytes = Memory.writeBytes m a bytes := by
  induction bytes generalizing m a with
  | nil => rfl
  | cons v vs ih => exact ih _ (a + 1)

/-- After a partial write each byte holds its old value or the one a whole write leaves there. -/
theorem Memory.read_writeSome_or (landed : Nat → Bool) (bytes : List Byte) (m : Memory) (a x : Nat) :
    Memory.read (Memory.writeSome landed m a bytes) x = Memory.read m x ∨
      Memory.read (Memory.writeSome landed m a bytes) x = Memory.read (Memory.writeBytes m a bytes) x := by
  by_cases hx : a ≤ x ∧ x < a + bytes.length
  · obtain ⟨j, rfl⟩ : ∃ j, x = a + j := ⟨x - a, by omega⟩
    have hj : j < bytes.length := by omega
    rw [Memory.read_writeSome_inside _ _ _ _ hj, Memory.read_writeBytes_inside _ _ _ hj]
    cases landed (a + j)
    · exact .inl rfl
    · exact .inr rfl
  · exact .inl (Memory.read_writeSome_outside _ _ _ _ hx)

/-- A range that faults but ends within 2^64 is denied at a byte. -/
theorem State.AccessFaults.denied {s : State} {kinds : List AccessKind} {a n x : Nat} (h : s.AccessFaults kinds a n x)
    (hfit : a + n ≤ 2 ^ 64) : s.checkRange kinds a n = .denied x := by
  rcases h with ⟨h, -⟩ | h
  · exact absurd (State.checkRange_eq_wraps.mp h).2 (by omega)
  · exact h

/-- A faulting access phase of DERIVE or BLOCKS: some bytes of the output landed, none if the range check failed. -/
theorem State.writeOutput_faults {s : State} {e : Engine} {a n x : Nat} (h : s.AccessFaults [.write] a n x) :
    ∃ (landed : Nat → Bool) (draws : Nat), (2 ^ 64 < a + n → landed = fun _ => false) ∧ ∀ out, s.writeOutput e a n out =
      State.busFault { s with mem := Memory.writeSome landed s.mem a out, freeCount := draws } e x := by
  rcases h with ⟨h, rfl⟩ | h
  · exact ⟨fun _ => false, s.freeCount, fun _ => rfl, fun out => by simp [State.writeOutput, h]⟩
  · refine ⟨Config.byteLanded s.freeCount, s.freeCount + 1, fun hw => ?_,
      fun out => by simp [State.writeOutput, h, State.partlyWritten]⟩
    exact absurd (State.checkRange_eq_denied.mp h).2.1 (by omega)

/-- A faulting access phase of APPLY or FILL, likewise. -/
theorem State.streamAccess_faults {s : State} {e : Engine} {b : Bool} {x : Nat}
    (h : s.AccessFaults (streamKinds b) e.arg0.toNat e.arg1.toNat x) :
    ∃ (landed : Nat → Bool), (2 ^ 64 < e.arg0.toNat + e.arg1.toNat → landed = fun _ => false) ∧ ∀ seen, s.streamAccess e b seen =
      s.streamFault e x (Memory.writeSome landed s.mem e.arg0.toNat (s.streamOutput e b seen)) := by
  rcases h with ⟨h, rfl⟩ | h
  · exact ⟨fun _ => false, fun _ => rfl, fun seen => by simp [State.streamAccess, h]⟩
  · refine ⟨Config.byteLanded s.freeCount, fun hw => ?_,
      fun seen => by simp [State.streamAccess, h, State.partlyWritten]⟩
    exact absurd (State.checkRange_eq_denied.mp h).2.1 (by omega)

/-! ### The admission of a range -/

/-- The range check of a resolved selector's state. -/
theorem State.accessFaults_resolve {s : State} {kinds : List AccessKind} {a n x : Nat} :
    s.resolve.AccessFaults kinds a n x ↔ s.AccessFaults kinds a n x := by
  simp only [State.AccessFaults, State.checkRange_resolve]

/-- The machine on a host that denies no access. -/
def State.withoutDenials (s : State) : State := { s with params := { s.params with hostDenied := [] } }

/-- With nothing denied, a range is accessible if it fits and covers no window. -/
theorem State.accessible_withoutDenials {s : State} {kinds : List AccessKind} {a n : Nat} (hfit : a + n ≤ 2 ^ 64)
    (hw : ∀ x, InRange a n x → s.inWindow x = false) : s.withoutDenials.Accessible kinds a n :=
  (State.accessible_iff ..).mpr (.inr ⟨hfit, fun x hx => ⟨hw x hx, fun _ _ => rfl⟩⟩)

/-- What is accessible stays so when nothing is denied. -/
theorem State.Accessible.withoutDenials {s : State} {kinds : List AccessKind} {a n : Nat} (h : s.Accessible kinds a n) :
    s.withoutDenials.Accessible kinds a n := by
  rcases (s.accessible_iff kinds a n).mp h with rfl | ⟨hfit, hx⟩
  · exact State.checkRange_zero ..
  · exact State.accessible_withoutDenials hfit fun x hr => (hx x hr).1

/-! ### APPLY and FILL -/

/-- The two commands over a buffer, as the one operation they share: APPLY reads the buffer and FILL does not. -/
theorem exec_eq_stream {i : Instr} {k : Kind} {kinds : List AccessKind}
    (h : (i, k, kinds) ∈ ([(.apply, .cipher, [.read, .write]), (.fill, .generator, [.write])] :
      List (Instr × Kind × List AccessKind))) :
    kinds = streamKinds (decide (i = .apply)) ∧ ∀ s, exec i s = s.stream k (decide (i = .apply)) s.mem := by
  simp only [List.mem_cons, Prod.mk.injEq, List.not_mem_nil, or_false] at h
  obtain ⟨rfl, rfl, rfl⟩ | ⟨rfl, rfl, rfl⟩ := h
  · exact ⟨rfl, fun _ => rfl⟩
  · exact ⟨rfl, fun _ => rfl⟩

/-- APPLY and FILL of at least one byte come to their access phase. -/
theorem State.stream_access {s : State} {e : Engine} {k : Kind} {b : Bool} {m : Memory} (he : s.engine? = some e)
    (hr : e.ctx.Ready k) (hp : e.ctx.position + e.arg1.toNat ≤ endPos e.ctx.cw64) (h0 : e.arg1.toNat ≠ 0) :
    s.stream k b m = s.resolve.streamAccess e b m := by
  rw [State.stream_ready he hr hp, if_neg fun h => h0 (by rw [h]; rfl)]

/-- Settles O37: the buffer's access phase faults, with the bytes that landed written. -/
theorem streamBusFaults : Obligations.StreamBusFaults := by
  intro s e i k kinds x he hi hr hinv hp hf
  obtain ⟨rfl, hexec⟩ := exec_eq_stream hi
  obtain ⟨landed, hnone, hfault⟩ := State.streamAccess_faults (State.accessFaults_resolve.mpr hf)
  have hrun := (hexec s).trans ((State.stream_access he hr hp hf.ne_zero).trans (hfault s.mem))
  rw [State.streamFault_eq, State.resolve_mem] at hrun
  refine ⟨_, _, hrun, State.putEngine_engine? (e₀ := e) ((State.resolve_engine? s).trans he) _, rfl, rfl, rfl, rfl, rfl, rfl, rfl, rfl, rfl,
    fun y hy => ?_, fun j hj => ?_, fun hwrap => ?_⟩
  · exact Memory.read_writeSome_outside _ _ _ _ (by rwa [State.streamOutput_length])
  · have hlen : j < (s.resolve.streamOutput e (decide (i = .apply)) s.mem).length := by rwa [State.streamOutput_length]
    refine (Memory.read_writeSome_or ..).imp_right fun h => h.trans ?_
    rw [Memory.read_writeBytes_inside _ _ _ hlen, State.streamOutput_getElem hinv hr.1 hp]
    simp only [decide_eq_true_eq]
  · rw [State.putEngine_mem, hnone hwrap, Memory.writeSome_none]

/-! ### DERIVE and BLOCKS -/

/-- The 44 bytes DERIVE writes (43_subkey.md R233). -/
def deriveOutput (r : Rounds) (key nonce : List Byte) : List Byte := (subkey (byteVector 32 key) nonce r).toList ++ subnonce nonce

theorem deriveOutput_length (r : Rounds) (key : List Byte) {nonce : List Byte} (h : nonce.length = 24) : (deriveOutput r key nonce).length = 44 := by
  simp [deriveOutput, subnonce, h]

/-- DERIVE with accessible inputs comes to its output. -/
theorem State.runDerive_output {s : State} {e : Engine} {r : Rounds} {v : Reads} (he : s.engine? = some e) (h1 : e.arg1 = 32)
    (h3 : e.arg3 = 24) (hkey : s.Accessible [.read] e.arg0.toNat 32) (hnonce : s.Accessible [.read] e.arg2.toNat 24) :
    s.runDerive r v = s.resolve.writeOutput e e.arg5.toNat 44
      (deriveOutput r (Memory.readBytes v.key e.arg0.toNat 32) (Memory.readBytes v.nonce e.arg2.toNat 24)) := by
  rw [State.runDerive_reads he h1 h3, State.readInput_accessible hkey, State.readInput_accessible hnonce]
  rfl

/-- BLOCKS with accessible inputs comes to its output, if it has any. -/
theorem State.runBlocks_output {s : State} {e : Engine} {r : Rounds} {v : Reads} {form : NonceForm} (he : s.engine? = some e)
    (h1 : e.arg1 = 32) (hf : NonceForm.ofBlockLength e.arg3 = some form) (hc : e.arg4.toNat ≤ maxCtr form.cw64)
    (hn : e.arg4.toNat + e.arg6.toNat ≤ maxCtr form.cw64 + 1) (hkey : s.Accessible [.read] e.arg0.toNat 32)
    (hnonce : s.Accessible [.read] e.arg2.toNat e.arg3.toNat) :
    s.runBlocks r v = if e.arg6 = 0 then s.complete e else s.resolve.writeOutput e e.arg5.toNat (64 * e.arg6.toNat)
      (s.resolve.blocksOutput e r (Memory.readBytes v.key e.arg0.toNat 32)
        (form.blockNonce (Memory.readBytes v.nonce e.arg2.toNat e.arg3.toNat))) := by
  rw [State.runBlocks_reads he h1 hf hc hn, State.readInput_accessible hkey, NonceForm.bytes_ofBlockLength hf,
    State.readInput_accessible hnonce]

/-- DERIVE or BLOCKS with lengths and counters it accepts, writing n bytes at ARG5. -/
def Engine.WritesOutput (e : Engine) (i : Instr) (n : Nat) : Prop :=
  (∃ r, i = .derive r ∧ e.arg3 = 24 ∧ n = 44) ∨
  ∃ r, i = .blocks r ∧ n = 64 * e.arg6.toNat ∧
    (e.arg3 = 8 ∧ e.arg4.toNat + e.arg6.toNat ≤ 2 ^ 64 ∨
      e.arg3 = 12 ∧ e.arg4.toNat < 2 ^ 32 ∧ e.arg4.toNat + e.arg6.toNat ≤ 2 ^ 32)

/-- Such a command with accessible inputs comes to its output, whose bytes are the same in every state with this instance
and this host memory. -/
theorem exec_eq_writeOutput {e : Engine} {i : Instr} {n : Nat} (h : e.WritesOutput i n) (h1 : e.arg1 = 32) (hn : n ≠ 0)
    (mem : Memory) :
    ∃ out : List Byte, out.length = n ∧ ∀ s : State, s.engine? = some e → s.mem = mem →
      s.Accessible [.read] e.arg0.toNat 32 → s.Accessible [.read] e.arg2.toNat e.arg3.toNat →
      exec i s = s.resolve.writeOutput e e.arg5.toNat n out := by
  rcases h with ⟨r, rfl, h3, rfl⟩ | ⟨r, rfl, rfl, hops⟩
  · refine ⟨_, deriveOutput_length r (Memory.readBytes mem e.arg0.toNat 32) (Memory.readBytes_length mem e.arg2.toNat 24), ?_⟩
    rintro s he rfl hkey hnonce
    rw [h3] at hnonce
    exact State.runDerive_output he h1 h3 hkey hnonce
  · obtain ⟨form, hf, hc, hlast⟩ := NonceForm.ofBlockLength_accepted hops
    refine ⟨_, State.blocksOutput_length State.reset e r (Memory.readBytes mem e.arg0.toNat 32)
      (form.blockNonce (Memory.readBytes mem e.arg2.toNat e.arg3.toNat)), ?_⟩
    rintro s he rfl hkey hnonce
    have h6 : e.arg6 ≠ 0 := fun h => hn (by rw [h]; rfl)
    rw [State.blocksOutput_eq_of_anyBackend State.reset s.resolve]
    exact (State.runBlocks_output he h1 hf hc hlast hkey hnonce).trans (if_neg h6)

/-- Settles O38: the output's access phase faults, with the bytes that landed written; with nothing denied it writes all. -/
theorem outputBusFaults : Obligations.OutputBusFaults := by
  intro s e r i n x he h1 hops hkey hnonce hf
  have hn := hf.ne_zero
  have hi : e.WritesOutput i n := by
    rcases hops with ⟨hi, h3, hlen⟩ | ⟨hi, h3, hlast, hlen⟩ | ⟨hi, h3, hlast, hlen⟩
    · exact .inl ⟨r, hi, h3, hlen⟩
    · exact .inr ⟨r, hi, hlen, .inr ⟨h3, by omega, hlast⟩⟩
    · exact .inr ⟨r, hi, hlen, .inl ⟨h3, hlast⟩⟩
  obtain ⟨out, hlen, hexec⟩ := exec_eq_writeOutput hi h1 hn s.mem
  obtain ⟨landed, draws, hnone, hfault⟩ := State.writeOutput_faults (e := e) (State.accessFaults_resolve.mpr hf)
  have hrun := (hexec s he rfl hkey hnonce).trans (hfault out)
  rw [State.busFault_eq, State.resolve_mem] at hrun
  refine ⟨_, hrun, State.putEngine_engine? (e₀ := e) ((State.resolve_engine? s).trans he) _, fun y hy => ?_, fun hfit => ?_, fun hwrap => ?_⟩
  · exact Memory.read_writeSome_outside _ _ _ _ (by rwa [hlen])
  · have hclear := (State.checkRange_eq_denied.mp (hf.denied hfit)).2.2.1
    have hout : s.withoutDenials.resolve.Accessible [.write] e.arg5.toNat n := by
      rw [State.Accessible, State.checkRange_resolve]
      exact State.accessible_withoutDenials hfit hclear
    refine ⟨_, (hexec s.withoutDenials he rfl hkey.withoutDenials hnonce.withoutDenials).trans
      (State.writeOutput_accessible hout), fun y => ?_⟩
    rw [State.resolve_mem]
    exact Memory.read_writeSome_or landed out s.mem e.arg5.toNat y
  · rw [State.putEngine_mem, hnone hwrap, Memory.writeSome_none]

/-! ### A range that covers a register window -/

theorem State.streamAccess_window {s : State} {e : Engine} {b : Bool} {m : Memory} {x : Nat}
    (hfit : e.arg0.toNat + e.arg1.toNat ≤ 2 ^ 64) (hx : InRange e.arg0.toNat e.arg1.toNat x) (hw : s.inWindow x = true) :
    s.resolve.streamAccess e b m = .refused .ownWindow := by
  simp [State.streamAccess, State.checkRange_of_window hfit hx hw]

theorem State.writeOutput_window {s : State} {e : Engine} {a n x : Nat} {out : List Byte} (hfit : a + n ≤ 2 ^ 64)
    (hx : InRange a n x) (hw : s.inWindow x = true) : s.resolve.writeOutput e a n out = .refused .ownWindow := by
  simp [State.writeOutput, State.checkRange_of_window hfit hx hw]

/-- A range that holds a byte is not empty. -/
theorem InRange.ne_zero {a n x : Nat} (h : InRange a n x) : n ≠ 0 := by
  have := h.1
  have := h.2
  omega

/-- APPLY and FILL on a buffer that covers a window. -/
theorem State.stream_window {s : State} {e : Engine} {k : Kind} {b : Bool} {m : Memory} {x : Nat} (he : s.engine? = some e)
    (hw : s.inWindow x = true) (hr : e.ctx.Ready k) (hp : e.ctx.position + e.arg1.toNat ≤ endPos e.ctx.cw64)
    (hfit : e.arg0.toNat + e.arg1.toNat ≤ 2 ^ 64) (hx : InRange e.arg0.toNat e.arg1.toNat x) :
    s.stream k b m = .refused .ownWindow :=
  (State.stream_access he hr hp hx.ne_zero).trans (State.streamAccess_window hfit hx hw)

/-- DERIVE and BLOCKS on an output that covers a window. -/
theorem exec_output_window {s : State} {e : Engine} {i : Instr} {n x : Nat} (he : s.engine? = some e) (hw : s.inWindow x = true)
    (h1 : e.arg1 = 32) (hkey : s.Accessible [.read] e.arg0.toNat 32) (hnonce : s.Accessible [.read] e.arg2.toNat e.arg3.toNat)
    (hi : e.WritesOutput i n) (hfit : e.arg5.toNat + n ≤ 2 ^ 64) (hx : InRange e.arg5.toNat n x) :
    exec i s = .refused .ownWindow := by
  obtain ⟨out, -, hexec⟩ := exec_eq_writeOutput hi h1 hx.ne_zero s.mem
  exact (hexec s he rfl hkey hnonce).trans (State.writeOutput_window hfit hx hw)

/-- Settles O39: buffer, inputs and output, each where the command comes to it. -/
theorem ownWindowRefused : Obligations.OwnWindowRefused := by
  intro s e r c x he hw
  refine ⟨State.stream_window he hw, State.stream_window he hw, fun h1 hin => ?_, fun h1 hkey hnonce => ⟨?_, ?_⟩⟩
  · exact ⟨fun hops => State.InputsStop.runInit he h1 hops (.of_window hw hin),
      fun h3 => State.InputsStop.runGenInit he h1 h3 (.of_window hw hin),
      fun h3 => State.InputsStop.runDerive he h1 h3 (.of_window hw hin),
      fun hops => State.InputsStop.runBlocks he h1 hops (.of_window hw hin)⟩
  · exact fun h3 hfit hx => exec_output_window he hw h1 hkey hnonce (.inl ⟨r, rfl, h3, rfl⟩) hfit hx
  · exact fun hops hfit hx => exec_output_window he hw h1 hkey hnonce (.inr ⟨r, rfl, rfl, hops⟩) hfit hx

end Sys2Proof.Machine
end

section
/-! What a command leaves of host memory (20_memory.md R75), and that it answers a next state where no range of it covers a
register window (70_reset_and_hazards.md R321). Both are said of a command with any reads, raced or not. -/

namespace Sys2Proof.Machine

/-! ### Memory outside the output range -/

theorem State.writeOutput_frame {s t : State} {e : Engine} {a n x : Nat} {out : List Byte} (h : s.writeOutput e a n out = .next t)
    (hl : out.length = n) (hx : ¬InRange a n x) : Memory.read t.mem x = Memory.read s.mem x := by
  subst hl
  rcases State.writeOutput_next h with ⟨-, rfl⟩ | ⟨-, rfl⟩ | ⟨y, -, rfl⟩
  · exact Memory.read_writeBytes_outside _ _ _ hx
  · rfl
  · exact Memory.read_writeSome_outside _ _ _ _ hx

theorem State.streamAccess_frame {s t : State} {e : Engine} {b : Bool} {m : Memory} {x : Nat}
    (h : s.streamAccess e b m = .next t) (hx : ¬InRange e.arg0.toNat e.arg1.toNat x) :
    Memory.read t.mem x = Memory.read s.mem x := by
  rw [← s.streamOutput_length e b m] at hx
  rcases State.streamAccess_next h with ⟨-, rfl⟩ | ⟨-, h⟩ | ⟨y, -, h⟩
  · exact Memory.read_writeBytes_outside _ _ _ hx
  · cases h; rfl
  · cases h; exact Memory.read_writeSome_outside _ _ _ _ hx

/-- APPLY and FILL. -/
theorem State.stream_frame {s t : State} {e : Engine} {k : Kind} {b : Bool} {m : Memory} {x : Nat} (he : s.engine? = some e)
    (h : s.stream k b m = .next t) (hx : ¬InRange e.arg0.toNat e.arg1.toNat x) : Memory.read t.mem x = Memory.read s.mem x := by
  obtain ⟨e', he', ⟨-, -, rfl⟩ | ⟨-, -, rfl⟩ | ⟨-, -, ⟨-, rfl⟩ | ⟨-, h⟩⟩⟩ := State.stream_next h
  · rfl
  · rfl
  · rfl
  · cases he.symm.trans he'
    exact (State.streamAccess_frame h hx).trans (by rw [State.resolve_mem])

/-- SEEK and SET_WPOS. -/
theorem State.seekTo_mem {s t : State} {k : Kind} {f : Engine → Nat} (h : s.seekTo k f = .next t) : t.mem = s.mem := by
  obtain ⟨e, -, ⟨-, -, rfl⟩ | ⟨-, -, rfl⟩ | ⟨-, -, rfl⟩⟩ := State.seekTo_next h <;> rfl

/-- TELL and GET_WPOS. -/
theorem State.report_mem {s t : State} {k : Kind} {f : Context → Nat} (h : s.report k f = .next t) : t.mem = s.mem := by
  obtain ⟨e, -, ⟨-, -, rfl⟩ | ⟨-, rfl⟩⟩ := State.report_next h <;> rfl

theorem execZeroize_mem {s t : State} (h : execZeroize s = .next t) : t.mem = s.mem := by
  obtain ⟨e, -, h⟩ := State.onEngine_next h
  cases h
  rfl

theorem State.runInit_mem {s t : State} {r : Rounds} {c : Bool} {v : Reads} (h : s.runInit r c v = .next t) : t.mem = s.mem := by
  obtain ⟨e, -, h⟩ := State.onEngine_next h
  rcases State.initCipher_next h with ⟨-, -, -, rfl⟩ | ⟨-, rfl⟩ | ⟨form, -, -, rfl⟩
  · rfl
  · rfl
  · rw [State.putEngine_mem]; split
    · exact s.resolve_mem
    · rfl

theorem State.runGenInit_mem {s t : State} {r : Rounds} {v : Reads} (h : s.runGenInit r v = .next t) : t.mem = s.mem := by
  obtain ⟨e, -, h⟩ := State.onEngine_next h
  rcases State.initGenerator_next h with ⟨-, -, -, rfl⟩ | ⟨-, rfl⟩ | ⟨-, -, -, -, rfl⟩ <;> rfl

theorem State.runDerive_frame {s t : State} {e : Engine} {r : Rounds} {v : Reads} {x : Nat} (he : s.engine? = some e)
    (h : s.runDerive r v = .next t) (hx : ¬InRange e.arg5.toNat 44 x) : Memory.read t.mem x = Memory.read s.mem x := by
  obtain ⟨e', he', ⟨-, -, rfl⟩ | ⟨-, rfl⟩ | ⟨out, hl, h⟩⟩ := State.runDerive_next h
  · rfl
  · rfl
  · cases he.symm.trans he'
    exact (State.writeOutput_frame h hl hx).trans (by rw [State.resolve_mem])

theorem State.runBlocks_frame {s t : State} {e : Engine} {r : Rounds} {v : Reads} {x : Nat} (he : s.engine? = some e)
    (h : s.runBlocks r v = .next t) (hx : ¬InRange e.arg5.toNat (64 * e.arg6.toNat) x) :
    Memory.read t.mem x = Memory.read s.mem x := by
  obtain ⟨e', he', ⟨-, -, rfl⟩ | ⟨-, rfl⟩ | ⟨out, hl, h⟩⟩ := State.runBlocks_next h
  · rfl
  · rfl
  · cases he.symm.trans he'
    exact (State.writeOutput_frame h hl hx).trans (by rw [State.resolve_mem])

/-- A command with any reads leaves every byte outside the ranges it writes. -/
theorem execSeeing_frame {i : Instr} {seen : Reads} {s t : State} {e : Engine} {x : Nat} (he : s.engine? = some e)
    (h : execSeeing i seen s = .next t) (hx : ∀ a n, (.write, a, n) ∈ accessRanges i e → ¬InRange a n x) :
    Memory.read t.mem x = Memory.read s.mem x := by
  cases i with
  | init r c => rw [State.runInit_mem h]
  | apply => exact State.stream_frame he h (hx _ _ (by simp [accessRanges]))
  | seek => rw [State.seekTo_mem h]
  | tell => rw [State.report_mem (k := .cipher) (f := Context.position) h]
  | zeroize => rw [execZeroize_mem h]
  | genInit r => rw [State.runGenInit_mem h]
  | fill => exact State.stream_frame he h (hx _ _ (by simp [accessRanges]))
  | setWpos => rw [State.seekTo_mem h]
  | getWpos => rw [State.report_mem (k := .generator) (f := fun c => c.position / 4) h]
  | derive r => exact State.runDerive_frame he h (hx _ _ (by simp [accessRanges]))
  | blocks r => exact State.runBlocks_frame he h (hx _ _ (by simp [accessRanges]))

/-- Settles O59: the ranges of the statement are those each command writes. -/
theorem memoryFrame : Obligations.MemoryFrame := by
  intro s t e i x he h hstream hderive hblocks
  refine execSeeing_frame he ((execSeeing_reads i s).trans h) fun a n hmem => ?_
  cases i with
  | apply =>
    obtain ⟨rfl, rfl⟩ : a = e.arg0.toNat ∧ n = e.arg1.toNat := by simpa [accessRanges] using hmem
    exact hstream (.inl rfl)
  | fill =>
    obtain ⟨rfl, rfl⟩ : a = e.arg0.toNat ∧ n = e.arg1.toNat := by simpa [accessRanges] using hmem
    exact hstream (.inr rfl)
  | derive r =>
    obtain ⟨rfl, rfl⟩ : a = e.arg5.toNat ∧ n = 44 := by simpa [accessRanges] using hmem
    exact hderive r rfl
  | blocks r =>
    obtain ⟨rfl, rfl⟩ : a = e.arg5.toNat ∧ n = 64 * e.arg6.toNat := by simpa [accessRanges] using hmem
    exact hblocks r rfl
  | _ => simp [accessRanges] at hmem

/-! ### Ranges clear of the windows -/

/-- No byte of [a, a+n) is in a register window. -/
def State.Clear (s : State) (a n : Nat) : Prop := ∀ x, InRange a n x → s.inWindow x = false

/-- No access range of command i of instance e covers a register window. -/
def State.ClearFor (s : State) (i : Instr) (e : Engine) : Prop := ∀ kind a n, (kind, a, n) ∈ accessRanges i e → s.Clear a n

/-- An access to a range clear of the windows is performed, or ends in a BusFault. -/
theorem State.Clear.accessible_or_faults {s : State} {a n : Nat} (h : s.Clear a n) (kinds : List AccessKind) :
    s.Accessible kinds a n ∨ ∃ x, s.AccessFaults kinds a n x := by
  unfold State.Accessible State.AccessFaults
  cases hc : s.checkRange kinds a n with
  | admitted => exact .inl rfl
  | wraps => exact .inr ⟨a, .inl ⟨rfl, rfl⟩⟩
  | ownWindow =>
    obtain ⟨-, -, x, hx, hw⟩ := State.checkRange_eq_ownWindow.mp hc
    rw [h x hx] at hw
    cases hw
  | denied x => exact .inr ⟨x, .inr rfl⟩

theorem State.clear_resolve {s : State} {a n : Nat} : s.resolve.Clear a n ↔ s.Clear a n := by
  simp only [State.Clear, State.inWindow, State.resolve_params, State.resolve_engines]

/-! ### How a command's end depends on what it reads -/

/-- A state with another host memory. -/
def State.withMem (s : State) (m : Memory) : State := { s with mem := m }

/-- The command ends in one state, whatever it reads. -/
def EndsAlike (run : Reads → StepOutcome) : Prop := ∃ t, ∀ v, run v = .next t

/-- The command ends in one state but for memory, which is `m` with some of the bytes `out` written at a; which of them does
not depend on the reads, as the bytes do. -/
def EndsWriting (run : Reads → StepOutcome) (m : Memory) (a : Nat) (out : Reads → List Byte) : Prop :=
  ∃ (u : State) (landed : Nat → Bool), ∀ v, run v = .next (u.withMem (Memory.writeSome landed m a (out v)))

/-- A command that is rejected before it reads. -/
theorem EndsAlike.of_raise {run : Reads → StepOutcome} (s : State) (e : Engine) (code : ErrCode)
    (h : ∀ v, run v = s.raise e code) : EndsAlike run := ⟨_, h⟩

theorem EndsAlike.congr {run run' : Reads → StepOutcome} (h : EndsAlike run') (hrun : ∀ v, run v = run' v) : EndsAlike run :=
  h.imp fun _ ht v => (hrun v).trans (ht v)

theorem EndsWriting.congr {run run' : Reads → StepOutcome} {m : Memory} {a : Nat} {out : Reads → List Byte}
    (h : EndsWriting run' m a out) (hrun : ∀ v, run v = run' v) : EndsWriting run m a out := by
  obtain ⟨u, landed, h⟩ := h
  exact ⟨u, landed, fun v => (hrun v).trans (h v)⟩

/-- The access phase of DERIVE and BLOCKS on an output clear of the windows. -/
theorem State.writeOutput_endsWriting {s : State} {a n : Nat} (h : s.Clear a n) (e : Engine) (out : Reads → List Byte) :
    EndsWriting (fun v => s.resolve.writeOutput e a n (out v)) s.mem a out := by
  rcases (State.clear_resolve.mpr h).accessible_or_faults [.write] with hacc | ⟨x, hf⟩
  · refine ⟨s.resolve.putEngine { e with err := .ok }, fun _ => true,
      fun v => (State.writeOutput_accessible hacc).trans ?_⟩
    rw [State.resolve_mem, Memory.writeSome_all]
    rfl
  · obtain ⟨landed, draws, -, hfault⟩ := State.writeOutput_faults (e := e) hf
    refine ⟨State.putEngine { s.resolve with freeCount := draws }
      { e with res0 := BitVec.ofNat 64 x, res1 := 0, err := .busFault }, landed,
      fun v => (hfault (out v)).trans ?_⟩
    rw [State.busFault_eq, State.resolve_mem]
    rfl

/-- APPLY and FILL on an accessible buffer write their output, and the cursor moves on. -/
theorem State.streamAccess_accessible {s : State} {e : Engine} {b : Bool} {m : Memory}
    (h : s.Accessible (streamKinds b) e.arg0.toNat e.arg1.toNat) :
    s.streamAccess e b m = .next (State.putEngine { s with mem := Memory.writeBytes s.mem e.arg0.toNat (s.streamOutput e b m) }
      { e with ctx := (Context.draw s.generate e.arg1.toNat e.ctx).2, err := .ok }) := by
  simp only [State.Accessible] at h
  rw [State.streamAccess, h]
  rfl

/-- The access phase of APPLY and FILL on a buffer clear of the windows. -/
theorem State.streamAccess_endsWriting {s : State} {e : Engine} (h : s.Clear e.arg0.toNat e.arg1.toNat) (b : Bool) :
    EndsWriting (fun v => s.resolve.streamAccess e b v.buffer) s.mem e.arg0.toNat fun v => s.streamOutput e b v.buffer := by
  rcases (State.clear_resolve.mpr h).accessible_or_faults (streamKinds b) with hacc | ⟨x, hf⟩
  · refine ⟨s.resolve.putEngine { e with ctx := (Context.draw s.resolve.generate e.arg1.toNat e.ctx).2, err := .ok },
      fun _ => true, fun v => (State.streamAccess_accessible hacc).trans ?_⟩
    rw [State.resolve_mem, State.streamOutput_resolve, Memory.writeSome_all]
    rfl
  · obtain ⟨landed, -, hfault⟩ := State.streamAccess_faults hf
    refine ⟨State.putEngine { s.resolve with freeCount := s.resolve.freeCount + 1 }
      { e with ctx := e.ctx.unspecifiedCursor s.resolve.freeCount, res0 := BitVec.ofNat 64 x, res1 := 0, err := .busFault },
      landed, fun v => (hfault v.buffer).trans ?_⟩
    rw [State.streamFault_eq, State.resolve_mem, State.streamOutput_resolve]
    rfl

/-- Reading the key and then the nonce, from ranges clear of the windows: a BusFault whatever is read, or what follows. -/
theorem State.readInputs_clear {s : State} {e : Engine} {len : Nat} (hkey : s.Clear e.arg0.toNat 32)
    (hnonce : s.Clear e.arg2.toNat len) (body : List Byte → List Byte → StepOutcome) :
    EndsAlike (fun v => s.readInput e v.key e.arg0.toNat 32 fun key =>
      s.readInput e v.nonce e.arg2.toNat len fun nonce => body key nonce) ∨
    ∀ v : Reads, (s.readInput e v.key e.arg0.toNat 32 fun key =>
      s.readInput e v.nonce e.arg2.toNat len fun nonce => body key nonce) =
        body (Memory.readBytes v.key e.arg0.toNat 32) (Memory.readBytes v.nonce e.arg2.toNat len) := by
  rcases hkey.accessible_or_faults [.read] with hk | ⟨x, hf⟩
  · rcases hnonce.accessible_or_faults [.read] with hn | ⟨x, hf⟩
    · exact .inr fun v => by rw [State.readInput_accessible hk, State.readInput_accessible hn]
    · exact .inl ⟨_, fun v => (State.readInput_accessible hk _).trans (State.readInput_faults hf _)⟩
  · exact .inl ⟨_, fun v => State.readInput_faults hf _⟩

/-- APPLY and FILL. -/
theorem State.stream_ends {s : State} {e : Engine} (he : s.engine? = some e) (h : s.Clear e.arg0.toNat e.arg1.toNat)
    (k : Kind) (b : Bool) :
    EndsAlike (fun v => s.stream k b v.buffer) ∨
      EndsWriting (fun v => s.stream k b v.buffer) s.mem e.arg0.toNat fun v => s.streamOutput e b v.buffer := by
  simp only [State.stream, State.onEngine_some he]
  cases e.ctx.requireReady k with
  | some code => exact .inl ⟨_, fun _ => s.raise_eq e code⟩
  | none =>
    by_cases hp : endPos e.ctx.cw64 < e.ctx.position + e.arg1.toNat
    · simp only [if_pos hp]
      exact .inl ⟨_, fun _ => s.raise_eq _ _⟩
    by_cases h0 : e.arg1 = 0
    · simp only [if_neg hp, if_pos h0]
      exact .inl ⟨_, fun _ => s.complete_eq e⟩
    · simp only [if_neg hp, if_neg h0]
      exact .inr (State.streamAccess_endsWriting h b)

/-- INIT: it ends alike, or constructs a context from its inputs. -/
theorem State.runInit_ends {s : State} {e : Engine} {r : Rounds} {c : Bool} (he : s.engine? = some e)
    (h : s.ClearFor (.init r c) e) :
    EndsAlike (s.runInit r c) ∨ ∃ form, NonceForm.ofInitLength e.arg3 = some form ∧ ∀ v : Reads, s.runInit r c v =
      State.complete (if form = .extended then s.resolve else s) { e with
        ctx := form.cipherContext r (Memory.readBytes v.key e.arg0.toNat 32) (Memory.readBytes v.nonce e.arg2.toNat e.arg3.toNat)
          (e.initialCounter c) } := by
  have hkey : s.Clear e.arg0.toNat 32 := h .read _ _ (by simp [accessRanges])
  have hnonce : s.Clear e.arg2.toNat e.arg3.toNat := h .read _ _ (by simp [accessRanges])
  have hinit := fun v => State.onEngine_some he fun e => s.initCipher e.zeroize r c v
  by_cases h1 : e.arg1 = 32
  swap
  · exact .inl (.of_raise s e.zeroize .invalidKeyLength fun v => (hinit v).trans (if_pos h1))
  cases hf : NonceForm.ofInitLength e.arg3 with
  | none =>
    refine .inl (.of_raise s e.zeroize .invalidNonceLength fun v => (hinit v).trans ((if_neg (not_not.mpr h1)).trans ?_))
    rw [Engine.zeroize_arg3, hf]
  | some form =>
    by_cases hc : (e.initialCounter c).toNat ≤ maxCtr form.cw64
    swap
    · refine .inl (.of_raise s e.zeroize .seekOutOfRange fun v => (hinit v).trans ((if_neg (not_not.mpr h1)).trans ?_))
      rw [Engine.zeroize_arg3, hf]
      exact if_pos (Nat.lt_of_not_le hc)
    have hrun := fun v => State.runInit_reads (r := r) (v := v) he h1 hf hc
    rw [NonceForm.bytes_ofInitLength hf] at hrun
    rcases State.readInputs_clear (e := e.zeroize) hkey hnonce fun key nonce =>
      State.complete (if form = .extended then s.resolve else s)
        { e with ctx := form.cipherContext r key nonce (e.initialCounter c) } with halike | hbody
    · exact .inl (halike.congr hrun)
    · exact .inr ⟨form, rfl, fun v => (hrun v).trans (hbody v)⟩

/-- The stream id that GEN_INIT takes: 0^8 where it is absent (44_generator.md R250). -/
def Engine.streamId (e : Engine) (v : Reads) : List Byte :=
  if e.arg3 = 0 then List.replicate 8 0 else Memory.readBytes v.nonce e.arg2.toNat e.arg3.toNat

/-- GEN_INIT: it ends alike, or constructs a context from its inputs. -/
theorem State.runGenInit_ends {s : State} {e : Engine} {r : Rounds} (he : s.engine? = some e)
    (h : s.ClearFor (.genInit r) e) :
    EndsAlike (s.runGenInit r) ∨ ∃ form, NonceForm.ofStreamLength e.arg3 = some form ∧ ∀ v : Reads, s.runGenInit r v =
      s.complete { e with ctx := form.generatorContext r (Memory.readBytes v.key e.arg0.toNat 32) (e.streamId v) } := by
  have hkey : s.Clear e.arg0.toNat 32 := h .read _ _ (by simp [accessRanges])
  have hsid : s.Clear e.arg2.toNat e.arg3.toNat := h .read _ _ (by simp [accessRanges])
  have hinit := fun v => State.onEngine_some he fun e => s.initGenerator e.zeroize r v
  by_cases h1 : e.arg1 = 32
  swap
  · exact .inl (.of_raise s e.zeroize .invalidKeyLength fun v => (hinit v).trans (if_pos h1))
  cases hf : NonceForm.ofStreamLength e.arg3 with
  | none =>
    refine .inl (.of_raise s e.zeroize .invalidNonceLength fun v => (hinit v).trans ((if_neg (not_not.mpr h1)).trans ?_))
    rw [Engine.zeroize_arg3, hf]
  | some form =>
    have hrun := fun v => State.runGenInit_reads (r := r) (v := v) he h1 hf
    by_cases h0 : e.arg3 = 0
    · simp only [if_pos h0] at hrun
      rcases hkey.accessible_or_faults [.read] with hk | ⟨x, hx⟩
      · refine .inr ⟨form, rfl, fun v => (hrun v).trans ((State.readInput_accessible hk _).trans ?_)⟩
        rw [Engine.streamId, if_pos h0]
      · exact .inl ⟨_, fun v => (hrun v).trans (State.readInput_faults hx _)⟩
    · simp only [if_neg h0, NonceForm.bytes_ofStreamLength hf h0] at hrun
      rcases State.readInputs_clear (e := e.zeroize) hkey hsid fun seed sid =>
        s.complete { e with ctx := form.generatorContext r seed sid } with halike | hbody
      · exact .inl (halike.congr hrun)
      · refine .inr ⟨form, rfl, fun v => (hrun v).trans ((hbody v).trans ?_)⟩
        rw [Engine.streamId, if_neg h0]
        rfl

/-- DERIVE. -/
theorem State.runDerive_ends {s : State} {e : Engine} {r : Rounds} (he : s.engine? = some e)
    (h : s.ClearFor (.derive r) e) :
    EndsAlike (s.runDerive r) ∨ EndsWriting (s.runDerive r) s.mem e.arg5.toNat fun v =>
      deriveOutput r (Memory.readBytes v.key e.arg0.toNat 32) (Memory.readBytes v.nonce e.arg2.toNat 24) := by
  have hkey : s.Clear e.arg0.toNat 32 := h .read _ _ (by simp [accessRanges])
  have hnonce : s.Clear e.arg2.toNat 24 := h .read _ _ (by simp [accessRanges])
  have hout : s.Clear e.arg5.toNat 44 := h .write _ _ (by simp [accessRanges])
  by_cases h1 : e.arg1 = 32
  swap
  · exact .inl (.of_raise s e .invalidKeyLength fun v => (State.onEngine_some he _).trans (if_pos h1))
  by_cases h3 : e.arg3 = 24
  swap
  · exact .inl (.of_raise s e .invalidNonceLength fun v =>
      (State.onEngine_some he _).trans ((if_neg (not_not.mpr h1)).trans (if_pos h3)))
  have hrun := fun v => State.runDerive_reads (r := r) (v := v) he h1 h3
  rcases State.readInputs_clear (e := e) hkey hnonce fun key nonce =>
    s.resolve.writeOutput e e.arg5.toNat 44 (deriveOutput r key nonce) with halike | hbody
  · exact .inl (halike.congr hrun)
  · exact .inr ((State.writeOutput_endsWriting hout e _).congr fun v => (hrun v).trans (hbody v))

/-- BLOCKS. -/
theorem State.runBlocks_ends {s : State} {e : Engine} {r : Rounds} (he : s.engine? = some e)
    (h : s.ClearFor (.blocks r) e) :
    EndsAlike (s.runBlocks r) ∨ ∃ form : NonceForm, EndsWriting (s.runBlocks r) s.mem e.arg5.toNat fun v =>
      s.resolve.blocksOutput e r (Memory.readBytes v.key e.arg0.toNat 32)
        (form.blockNonce (Memory.readBytes v.nonce e.arg2.toNat e.arg3.toNat)) := by
  have hkey : s.Clear e.arg0.toNat 32 := h .read _ _ (by simp [accessRanges])
  have hnonce : s.Clear e.arg2.toNat e.arg3.toNat := h .read _ _ (by simp [accessRanges])
  have hout : s.Clear e.arg5.toNat (64 * e.arg6.toNat) := h .write _ _ (by simp [accessRanges])
  by_cases h1 : e.arg1 = 32
  swap
  · exact .inl (.of_raise s e .invalidKeyLength fun v => (State.onEngine_some he _).trans (if_pos h1))
  cases hf : NonceForm.ofBlockLength e.arg3 with
  | none =>
    refine .inl (.of_raise s e .invalidNonceLength fun v => (State.onEngine_some he _).trans ((if_neg (not_not.mpr h1)).trans ?_))
    rw [hf]
  | some form =>
    by_cases hc : e.arg4.toNat ≤ maxCtr form.cw64 ∧ e.arg4.toNat + e.arg6.toNat ≤ maxCtr form.cw64 + 1
    swap
    · refine .inl (.of_raise s e .counterOverflow fun v => (State.onEngine_some he _).trans ((if_neg (not_not.mpr h1)).trans ?_))
      rw [hf]
      dsimp only
      split
      · rfl
      · exact if_pos (by omega)
    have hrun := fun v => State.runBlocks_reads (r := r) (v := v) he h1 hf hc.1 hc.2
    rw [NonceForm.bytes_ofBlockLength hf] at hrun
    rcases State.readInputs_clear (e := e) hkey hnonce fun key nonce =>
      if e.arg6 = 0 then s.complete e
      else s.resolve.writeOutput e e.arg5.toNat (64 * e.arg6.toNat) (s.resolve.blocksOutput e r key (form.blockNonce nonce))
      with halike | hbody
    · exact .inl (halike.congr hrun)
    by_cases h0 : e.arg6 = 0
    · exact .inl ⟨_, fun v => (hrun v).trans ((hbody v).trans (if_pos h0))⟩
    · exact .inr ⟨form, (State.writeOutput_endsWriting hout e _).congr fun v => (hrun v).trans ((hbody v).trans (if_neg h0))⟩

/-! ### Completion -/

/-- SEEK and SET_WPOS. -/
theorem State.seekTo_completes {s : State} {e : Engine} (he : s.engine? = some e) (k : Kind) (f : Engine → Nat) :
    ∃ t, s.seekTo k f = .next t := by
  rw [State.seekTo, State.onEngine_some he]
  cases e.ctx.requireReady k with
  | some code => exact ⟨_, rfl⟩
  | none =>
    dsimp only
    split
    · exact ⟨_, rfl⟩
    · exact ⟨_, rfl⟩

/-- TELL and GET_WPOS. -/
theorem State.report_completes {s : State} {e : Engine} (he : s.engine? = some e) (k : Kind) (f : Context → Nat) :
    ∃ t, s.report k f = .next t := by
  rw [State.report, State.onEngine_some he]
  cases e.ctx.requireReady k with
  | some code => exact ⟨_, rfl⟩
  | none => exact ⟨_, rfl⟩

theorem EndsAlike.completes {run : Reads → StepOutcome} (h : EndsAlike run) (v : Reads) : ∃ t, run v = .next t :=
  h.imp fun _ ht => ht v

theorem EndsWriting.completes {run : Reads → StepOutcome} {m : Memory} {a : Nat} {out : Reads → List Byte}
    (h : EndsWriting run m a out) (v : Reads) : ∃ t, run v = .next t := by
  obtain ⟨u, landed, h⟩ := h
  exact ⟨_, h v⟩

/-- Every command, with any reads, answers a next state if none of its ranges covers a window. -/
theorem execSeeing_completes {i : Instr} {s : State} {e : Engine} (he : s.engine? = some e) (h : s.ClearFor i e) (v : Reads) :
    ∃ t, execSeeing i v s = .next t := by
  cases i with
  | init r c => exact (State.runInit_ends he h).elim (·.completes v) fun ⟨_, _, hrun⟩ => ⟨_, hrun v⟩
  | apply =>
    exact (State.stream_ends he (h .read _ _ (by simp [accessRanges])) .cipher true).elim (·.completes v) (·.completes v)
  | seek => exact State.seekTo_completes he _ _
  | tell => exact State.report_completes he .cipher Context.position
  | zeroize => exact ⟨_, State.onEngine_some he _⟩
  | genInit r => exact (State.runGenInit_ends he h).elim (·.completes v) fun ⟨_, _, hrun⟩ => ⟨_, hrun v⟩
  | fill =>
    exact (State.stream_ends he (h .write _ _ (by simp [accessRanges])) .generator false).elim (·.completes s.reads)
      (·.completes s.reads)
  | setWpos => exact State.seekTo_completes he _ _
  | getWpos => exact State.report_completes he .generator fun c => c.position / 4
  | derive r => exact (State.runDerive_ends he h).elim (·.completes v) (·.completes v)
  | blocks r => exact (State.runBlocks_ends he h).elim (·.completes v) fun ⟨_, hw⟩ => hw.completes v

/-- Settles O60: a command reads host memory as it is. -/
theorem commandsComplete : Obligations.CommandsComplete := by
  intro s e i he h
  rw [← execSeeing_reads]
  exact execSeeing_completes he (fun kind a n hmem x hx => h kind a n x hmem hx) s.reads

end Sys2Proof.Machine
end

section
/-! Commands with which others race (20_memory.md R85; log 10): a command runs with reads that agree with host memory at every
byte no one has written, and what depends on no other byte is as `exec` makes it. -/

namespace Sys2Proof.Machine

/-! ### A raced command's reads -/

/-- Reads that see host memory `m` at every byte no one has written. -/
structure Reads.AgreeWith (v : Reads) (m : Memory) (raced : List AccessRange) : Prop where
  key : ∀ x, Unwritten raced x → Memory.read v.key x = Memory.read m x
  nonce : ∀ x, Unwritten raced x → Memory.read v.nonce x = Memory.read m x
  buffer : ∀ x, Unwritten raced x → Memory.read v.buffer x = Memory.read m x

theorem State.reads_agreeWith (s : State) (raced : List AccessRange) : s.reads.AgreeWith s.mem raced :=
  ⟨fun _ _ => rfl, fun _ _ => rfl, fun _ _ => rfl⟩

theorem State.racedReads_agreeWith (s : State) (raced : List AccessRange) : (s.racedReads raced).AgreeWith s.mem raced :=
  ⟨fun _ h => (State.read_racedReads h).1, fun _ h => (State.read_racedReads h).2.1, fun _ h => (State.read_racedReads h).2.2⟩

/-- A command, raced or not, runs with such reads at some count of free values, and then keeps every byte no one raced for. -/
theorem State.runRacing_eq (s : State) (i : Instr) (raced : List AccessRange) :
    ∃ (v : Reads) (n : Nat), v.AgreeWith s.mem raced ∧ ∀ u, execSeeing i v { s with freeCount := n } = .next u →
      ∃ (m : Memory) (n' : Nat), (∀ x, Untouched raced x → Memory.read m x = Memory.read u.mem x) ∧
        s.runRacing i raced = .next { u with mem := m, freeCount := n' } := by
  cases raced with
  | nil =>
    exact ⟨s.reads, s.freeCount, s.reads_agreeWith [], fun u hu =>
      ⟨u.mem, u.freeCount, fun _ _ => rfl, (execSeeing_reads i s).symm.trans hu⟩⟩
  | cons r rs =>
    refine ⟨s.racedReads (r :: rs), s.freeCount + 3, s.racedReads_agreeWith _, fun u hu =>
      ⟨Memory.scramble u.freeCount (r :: rs) u.mem, u.freeCount + 1, fun x hx => Memory.read_scramble_other _ _ _ hx, ?_⟩⟩
    rw [State.runRacing, hu]
    rfl

theorem Memory.readBytes_congr {m m' : Memory} {a n : Nat} (h : ∀ x, InRange a n x → Memory.read m x = Memory.read m' x) :
    Memory.readBytes m a n = Memory.readBytes m' a n := by
  refine List.map_congr_left fun j hj => h _ ?_
  have := List.mem_range.mp hj
  exact ⟨by omega, by omega⟩

theorem Reads.AgreeWith.readKey {v : Reads} {m : Memory} {raced : List AccessRange} (h : v.AgreeWith m raced) {a n : Nat}
    (hu : UnwrittenIn raced a n) : Memory.readBytes v.key a n = Memory.readBytes m a n :=
  Memory.readBytes_congr fun x hx => h.key x (hu x hx)

theorem Reads.AgreeWith.readNonce {v : Reads} {m : Memory} {raced : List AccessRange} (h : v.AgreeWith m raced) {a n : Nat}
    (hu : UnwrittenIn raced a n) : Memory.readBytes v.nonce a n = Memory.readBytes m a n :=
  Memory.readBytes_congr fun x hx => h.nonce x (hu x hx)

/-- The nonce bytes that a subkey is derived from (43_subkey.md R230). -/
theorem Reads.AgreeWith.takeNonce {v : Reads} {m : Memory} {raced : List AccessRange} (h : v.AgreeWith m raced) {a : Nat}
    (hu : UnwrittenIn raced a 16) : (Memory.readBytes v.nonce a 24).take 16 = (Memory.readBytes m a 24).take 16 := by
  rw [Memory.readBytes_take _ _ _ _ (by decide), Memory.readBytes_take _ _ _ _ (by decide), h.readNonce hu]

/-- A byte for which no one raced has been written by no one. -/
theorem Untouched.unwritten {raced : List AccessRange} {x : Nat} (h : Untouched raced x) : Unwritten raced x :=
  fun r hr _ => h r hr

/-! ### DERIVE's output, byte by byte -/

/-- The subkey depends on the key and on the first 16 nonce bytes (43_subkey.md R230). -/
theorem subkey_congr {key : Vector Byte 32} {nonce nonce' : List Byte} (h : nonce.take 16 = nonce'.take 16) (r : Rounds) :
    subkey key nonce r = subkey key nonce' r := by
  rw [subkey, subkey, h]

/-- Byte j of the subnonce: four zeros, and then nonce bytes 16 to 23 (43_subkey.md R231). -/
theorem subnonce_getD (nonce : List Byte) {j : Nat} (hj : j < 12) :
    (subnonce nonce).getD j 0 = if j < 4 then 0 else nonce.getD (12 + j) 0 := by
  rw [subnonce, List.getD_eq_getElem?_getD]
  split
  · next h => rw [List.getElem?_append_left (by simpa using h), List.getElem?_replicate_of_lt h]; rfl
  · next h =>
    rw [List.getElem?_append_right (by simpa using Nat.le_of_not_lt h), List.length_replicate, List.getElem?_take_of_lt (by omega),
      List.getElem?_drop, List.getD_eq_getElem?_getD, show 16 + (j - 4) = 12 + j by omega]

/-- The subkey's bytes. -/
theorem deriveOutput_getD_subkey (r : Rounds) (key nonce : List Byte) {j : Nat} (hj : j < 32) :
    (deriveOutput r key nonce).getD j 0 = (subkey (byteVector 32 key) nonce r).toList.getD j 0 := by
  rw [deriveOutput, List.getD_append _ _ _ _ (by simpa using hj)]

/-- The subnonce's bytes. -/
theorem deriveOutput_getD_subnonce (r : Rounds) (key nonce : List Byte) {j : Nat} (h : 32 ≤ j) (hj : j < 44) :
    (deriveOutput r key nonce).getD j 0 = if j < 36 then 0 else nonce.getD (j - 20) 0 := by
  rw [deriveOutput, List.getD_append_right _ _ _ _ (by simpa using h), Vector.length_toList, subnonce_getD _ (by omega)]
  refine if_congr (by omega) rfl ?_
  rw [show 12 + (j - 32) = j - 20 by omega]

theorem Memory.readBytes_getD (m : Memory) (a n j : Nat) :
    (Memory.readBytes m a n).getD j 0 = if j < n then Memory.read m (a + j) else 0 := by
  rw [List.getD_eq_getElem?_getD]
  split
  · next h => rw [List.getElem?_eq_getElem (by simpa using h), Memory.readBytes_getElem]; rfl
  · next h => rw [List.getElem?_eq_none (by simpa using Nat.le_of_not_lt h)]; rfl

/-! ### Two outputs at one place -/

/-- Where two outputs of one length have the same byte, so has memory after the same part of each has landed. -/
theorem Memory.read_writeSome_congr (landed : Nat → Bool) (m : Memory) (a : Nat) {out out' : List Byte} {x : Nat}
    (hl : out.length = out'.length) (h : ∀ j, j < out.length → x = a + j → out.getD j 0 = out'.getD j 0) :
    Memory.read (Memory.writeSome landed m a out) x = Memory.read (Memory.writeSome landed m a out') x := by
  by_cases hx : a ≤ x ∧ x < a + out.length
  · obtain ⟨j, rfl⟩ : ∃ j, x = a + j := ⟨x - a, by omega⟩
    have hj : j < out.length := by omega
    have hbyte := h j hj rfl
    rw [List.getD_eq_getElem _ _ hj, List.getD_eq_getElem _ _ (hl ▸ hj)] at hbyte
    rw [Memory.read_writeSome_inside _ _ _ _ hj, Memory.read_writeSome_inside _ _ _ _ (hl ▸ hj), hbyte]
  · rw [Memory.read_writeSome_outside _ _ _ _ hx, Memory.read_writeSome_outside _ _ _ _ (hl ▸ hx)]

/-- Two runs of a command whose reads only reach its output differ in memory only, and there only where the outputs do. -/
theorem EndsWriting.two_runs {run : Reads → StepOutcome} {m : Memory} {a : Nat} {out : Reads → List Byte}
    (h : EndsWriting run m a out) {v w : Reads} {t u : State} (ht : run v = .next t) (hu : run w = .next u)
    (hl : (out v).length = (out w).length) :
    ∃ m', t = u.withMem m' ∧ ∀ x, (∀ j, j < (out v).length → x = a + j → (out v).getD j 0 = (out w).getD j 0) →
      Memory.read m' x = Memory.read u.mem x := by
  obtain ⟨u₀, landed, h⟩ := h
  cases (h v).symm.trans ht
  cases (h w).symm.trans hu
  exact ⟨_, rfl, fun x hx => Memory.read_writeSome_congr landed m a hl hx⟩

theorem EndsAlike.two_runs {run : Reads → StepOutcome} (h : EndsAlike run) {v w : Reads} {t u : State}
    (ht : run v = .next t) (hu : run w = .next u) : t = u := by
  obtain ⟨u₀, h⟩ := h
  cases (h v).symm.trans ht
  cases (h w).symm.trans hu
  rfl

/-- INIT resolves the selector for a 24-byte nonce only; the instance is the same. -/
theorem State.engine?_ite_resolve {s : State} {e : Engine} (he : s.engine? = some e) (p : Prop) [Decidable p] :
    State.engine? (if p then s.resolve else s) = some e := by
  split
  · exact (State.resolve_engine? s).trans he
  · exact he

/-! ### What a race leaves as `exec` makes it -/

/-- No one has written an input byte on which byte x of the output of DERIVE or BLOCKS depends. -/
def InputsUnwritten (raced : List AccessRange) (i : Instr) (e : Engine) (x : Nat) : Prop :=
  (∀ r, i = .derive r →
    (InRange e.arg5.toNat 32 x → UnwrittenIn raced e.arg0.toNat 32 ∧ UnwrittenIn raced e.arg2.toNat 16) ∧
    ∀ j, j < 8 → x = e.arg5.toNat + 36 + j → Unwritten raced (e.arg2.toNat + 16 + j)) ∧
  ∀ r, i = .blocks r → InRange e.arg5.toNat (64 * e.arg6.toNat) x →
    UnwrittenIn raced e.arg0.toNat 32 ∧ UnwrittenIn raced e.arg2.toNat e.arg3.toNat

/-- No one has written an input byte of the command. -/
def AllUnwritten (raced : List AccessRange) (i : Instr) (e : Engine) : Prop :=
  ∀ a n, (.read, a, n) ∈ accessRanges i e → UnwrittenIn raced a n

/-- With no input byte written, each output byte's inputs are unwritten. -/
theorem AllUnwritten.inputs {raced : List AccessRange} {i : Instr} {e : Engine} (h : AllUnwritten raced i e) (x : Nat) :
    InputsUnwritten raced i e x := by
  refine ⟨?_, ?_⟩
  · rintro r rfl
    have hkey : UnwrittenIn raced e.arg0.toNat 32 := h _ _ (by simp [accessRanges])
    have hnonce : UnwrittenIn raced e.arg2.toNat 24 := h _ _ (by simp [accessRanges])
    exact ⟨fun _ => ⟨hkey, fun y hy => hnonce y ⟨hy.1, by have := hy.2; omega⟩⟩,
      fun j hj _ => hnonce _ ⟨by omega, by omega⟩⟩
  · rintro r rfl -
    exact ⟨h _ _ (by simp [accessRanges]), h _ _ (by simp [accessRanges])⟩

/-- Command i of instance e, run with others' races, leaves machine t and instance e'; `exec` leaves u and f. What depends on no
written input byte is the same. -/
structure RacedLike (raced : List AccessRange) (i : Instr) (e : Engine) (t u : State) (e' f : Engine) : Prop where
  bselValid : t.bselValid = u.bselValid
  bsel : t.bsel = u.bsel
  /-- but for the key and nonce of a new context -/
  engine : e' = { f with ctx := { f.ctx with key := e'.ctx.key, nonce := e'.ctx.nonce } }
  unconstructed : (∀ r c, i ≠ .init r c) ∧ (∀ r, i ≠ .genInit r) ∨ f.err ≠ .ok → e' = f
  derivedKey : e.arg3 = 24 → UnwrittenIn raced e.arg0.toNat 32 → UnwrittenIn raced e.arg2.toNat 16 → e'.ctx.key = f.ctx.key
  memory : ∀ x, Untouched raced x → InputsUnwritten raced i e x → Memory.read t.mem x = Memory.read u.mem x
  unwritten : AllUnwritten raced i e → t.engines = u.engines

/-- Two ends that differ in memory only. -/
theorem RacedLike.of_withMem {raced : List AccessRange} {i : Instr} {e f : Engine} {u : State} {m : Memory}
    (hm : ∀ x, Untouched raced x → InputsUnwritten raced i e x → Memory.read m x = Memory.read u.mem x) :
    RacedLike raced i e (u.withMem m) u f f :=
  ⟨rfl, rfl, rfl, fun _ => rfl, fun _ _ _ => rfl, hm, fun _ => rfl⟩

theorem RacedLike.refl {raced : List AccessRange} {i : Instr} {e f : Engine} (u : State) : RacedLike raced i e u u f f :=
  RacedLike.of_withMem (u := u) (m := u.mem) fun _ _ _ => rfl

end Sys2Proof.Machine
end

section
/-! Each command with which others race, compared with `exec` of the same state (20_memory.md R85). -/

namespace Sys2Proof.Machine

/-! ### The contexts that INIT and GEN_INIT construct -/

/-- What is filled with zeros need not be written out. -/
theorem byteVector_append_zeros (n k : Nat) (bytes : List Byte) :
    byteVector n (bytes ++ List.replicate k 0) = byteVector n bytes := by
  ext1 j hj
  rw [byteVector_getElem, byteVector_getElem]
  by_cases h : j < bytes.length
  · rw [List.getD_append _ _ _ _ h]
  · rw [List.getD_append_right _ _ _ _ (Nat.le_of_not_lt h), List.getD_eq_default _ _ (Nat.le_of_not_lt h)]
    exact List.getElem?_getD_replicate_default_eq ..

/-- INIT's context for a nonce of each form, as key and nonce: the short nonce's zeros are filled in (10_state.md R44). -/
theorem NonceForm.cipherContext_eq (f : NonceForm) (r : Rounds) (key nonce : List Byte) (c0 : Word) :
    f.cipherContext r key nonce c0 = Context.construct .cipher r f.cw64
      (if f = .extended then subkey (byteVector 32 key) nonce r else byteVector 32 key)
      (byteVector 12 (if f = .extended then subnonce nonce else nonce)) c0 := by
  cases f with
  | short => exact congrArg (Context.construct .cipher r true (byteVector 32 key) · c0) (byteVector_append_zeros 12 4 nonce)
  | standard => rfl
  | extended => rfl

/-- GEN_INIT's context, likewise. -/
theorem NonceForm.generatorContext_eq (f : NonceForm) (r : Rounds) (seed sid : List Byte) :
    f.generatorContext r seed sid = Context.construct .generator r f.cw64 (byteVector 32 seed) (byteVector 12 sid) 0 := by
  rw [NonceForm.generatorContext]
  split
  · rw [byteVector_append_zeros]
  · rfl

/-- An absent stream id is one of no bytes, filled with zeros (44_generator.md R251). -/
theorem Engine.byteVector_streamId (e : Engine) (v : Reads) :
    byteVector 12 (e.streamId v) = byteVector 12 (Memory.readBytes v.nonce e.arg2.toNat e.arg3.toNat) := by
  rw [Engine.streamId]
  split
  · next h => rw [h]; exact byteVector_append_zeros 12 8 []
  · rfl

/-- Two new contexts that differ in key and nonce only. -/
theorem RacedLike.of_constructed {raced : List AccessRange} {i : Instr} {e : Engine} {u : State} {k : Kind} {r : Rounds}
    {w : Bool} {key key' : Vector Byte 32} {nonce nonce' : Vector Byte 12} {c0 : Word}
    (hi : (∃ r c, i = .init r c) ∨ ∃ r, i = .genInit r)
    (hkey : e.arg3 = 24 → UnwrittenIn raced e.arg0.toNat 32 → UnwrittenIn raced e.arg2.toNat 16 → key = key')
    (hall : AllUnwritten raced i e → key = key' ∧ nonce = nonce') :
    RacedLike raced i e (u.putEngine { e with ctx := Context.construct k r w key nonce c0, err := .ok })
      (u.putEngine { e with ctx := Context.construct k r w key' nonce' c0, err := .ok })
      { e with ctx := Context.construct k r w key nonce c0, err := .ok }
      { e with ctx := Context.construct k r w key' nonce' c0, err := .ok } where
  bselValid := rfl
  bsel := rfl
  engine := rfl
  unconstructed h := by
    rcases h with ⟨hinit, hgen⟩ | h
    · rcases hi with ⟨r, c, rfl⟩ | ⟨r, rfl⟩
      · exact absurd rfl (hinit r c)
      · exact absurd rfl (hgen r)
    · exact absurd rfl h
  derivedKey := hkey
  memory _ _ _ := rfl
  unwritten h := by
    obtain ⟨rfl, rfl⟩ := hall h
    rfl

/-- Byte j of what APPLY or FILL writes depends on no other byte of the buffer. -/
theorem State.streamOutput_getD_congr {s : State} {e : Engine} {b : Bool} {m m' : Memory} {j : Nat}
    (h : Memory.read m (e.arg0.toNat + j) = Memory.read m' (e.arg0.toNat + j)) :
    (s.streamOutput e b m).getD j 0 = (s.streamOutput e b m').getD j 0 := by
  cases b with
  | false => rfl
  | true =>
    have hread : (Memory.readBytes m e.arg0.toNat e.arg1.toNat)[j]? = (Memory.readBytes m' e.arg0.toNat e.arg1.toNat)[j]? := by
      by_cases hj : j < e.arg1.toNat <;> simp [Memory.readBytes, hj, h]
    simp only [State.streamOutput, if_true, List.getD_eq_getElem?_getD, List.getElem?_zipWith, hread]

/-! ### Each command, raced -/

section
variable {raced : List AccessRange} {s t u : State} {e e' f : Engine} {v : Reads} (he : s.engine? = some e)
  (hv : v.AgreeWith s.mem raced) (he' : t.engine? = some e') (hf : u.engine? = some f)
include he hv he' hf

omit he hv in
/-- A command that ends alike whatever it reads. -/
theorem RacedLike.of_alike {i : Instr} {run : Reads → StepOutcome} (h : EndsAlike run) (ht : run v = .next t)
    (hu : run s.reads = .next u) : RacedLike raced i e t u e' f := by
  obtain rfl := h.two_runs ht hu
  cases he'.symm.trans hf
  exact .refl _

theorem State.runInit_racedLike {r : Rounds} {c : Bool} (h : s.ClearFor (.init r c) e) (ht : s.runInit r c v = .next t)
    (hu : s.runInit r c s.reads = .next u) : RacedLike raced (.init r c) e t u e' f := by
  rcases State.runInit_ends he h with halike | ⟨form, hform, hrun⟩
  · exact .of_alike he' hf halike ht hu
  · have hS := State.engine?_ite_resolve he (form = .extended)
    simp only [NonceForm.cipherContext_eq, State.complete_eq] at hrun
    cases (hrun v).symm.trans ht
    cases (hrun s.reads).symm.trans hu
    cases he'.symm.trans (State.putEngine_engine? hS _)
    cases hf.symm.trans (State.putEngine_engine? hS _)
    refine .of_constructed (.inl ⟨r, c, rfl⟩) (fun h3 hk hn => ?_) fun hall => ?_
    · rw [hv.readKey hk, h3]
      exact ite_congr rfl (fun _ => subkey_congr (hv.takeNonce hn) r) fun _ => rfl
    · rw [hv.readKey (hall _ _ (by simp [accessRanges])), hv.readNonce (hall _ _ (by simp [accessRanges]))]
      exact ⟨rfl, rfl⟩

theorem State.runGenInit_racedLike {r : Rounds} (h : s.ClearFor (.genInit r) e) (ht : s.runGenInit r v = .next t)
    (hu : s.runGenInit r s.reads = .next u) : RacedLike raced (.genInit r) e t u e' f := by
  rcases State.runGenInit_ends he h with halike | ⟨form, hform, hrun⟩
  · exact .of_alike he' hf halike ht hu
  · simp only [NonceForm.generatorContext_eq, Engine.byteVector_streamId, State.complete_eq] at hrun
    cases (hrun v).symm.trans ht
    cases (hrun s.reads).symm.trans hu
    cases he'.symm.trans (State.putEngine_engine? he _)
    cases hf.symm.trans (State.putEngine_engine? he _)
    refine .of_constructed (.inr ⟨r, rfl⟩) (fun _ hk _ => ?_) fun hall => ?_
    · rw [hv.readKey hk]; rfl
    · rw [hv.readKey (hall _ _ (by simp [accessRanges])), hv.readNonce (hall _ _ (by simp [accessRanges]))]
      exact ⟨rfl, rfl⟩

omit he hv in
/-- A command whose reads only reach its output, if the output bytes that no written input byte reaches are the same. -/
theorem RacedLike.of_ends {i : Instr} {run : Reads → StepOutcome} {a : Nat} {out : Reads → List Byte}
    (h : EndsAlike run ∨ EndsWriting run s.mem a out) (ht : run v = .next t) (hu : run s.reads = .next u)
    (hl : (out v).length = (out s.reads).length)
    (hout : ∀ j, j < (out v).length → Untouched raced (a + j) → InputsUnwritten raced i e (a + j) →
      (out v).getD j 0 = (out s.reads).getD j 0) : RacedLike raced i e t u e' f := by
  rcases h with halike | hwrite
  · exact .of_alike he' hf halike ht hu
  · obtain ⟨m, rfl, hm⟩ := hwrite.two_runs ht hu hl
    cases he'.symm.trans hf
    refine .of_withMem fun x hx hin => hm x fun j hj hxj => ?_
    subst hxj
    exact hout j hj hx hin

theorem State.runApply_racedLike (h : s.ClearFor .apply e) (ht : s.runApply v = .next t) (hu : s.runApply s.reads = .next u) :
    RacedLike raced .apply e t u e' f := by
  have hends := State.stream_ends he (h .read _ _ (by simp [accessRanges])) .cipher true
  refine .of_ends he' hf hends ht hu (by simp only [State.streamOutput_length]) fun j _ hx _ => ?_
  exact State.streamOutput_getD_congr (hv.buffer _ hx.unwritten)

theorem State.runDerive_racedLike {r : Rounds} (h : s.ClearFor (.derive r) e) (ht : s.runDerive r v = .next t)
    (hu : s.runDerive r s.reads = .next u) : RacedLike raced (.derive r) e t u e' f := by
  have hlen := fun m : Memory => Memory.readBytes_length m e.arg2.toNat 24
  refine .of_ends he' hf (State.runDerive_ends he h) ht hu (by simp only [deriveOutput_length _ _ (hlen _)]) fun j hj _ hin => ?_
  rw [deriveOutput_length _ _ (hlen _)] at hj
  obtain ⟨hsub, hsuffix⟩ := hin.1 r rfl
  by_cases h32 : j < 32
  · obtain ⟨hkey, hnonce⟩ := hsub ⟨by omega, by omega⟩
    rw [deriveOutput_getD_subkey _ _ _ h32, deriveOutput_getD_subkey _ _ _ h32, hv.readKey hkey, subkey_congr (hv.takeNonce hnonce)]
    rfl
  · rw [deriveOutput_getD_subnonce _ _ _ (by omega) hj, deriveOutput_getD_subnonce _ _ _ (by omega) hj]
    split
    · rfl
    · rw [Memory.readBytes_getD, Memory.readBytes_getD, if_pos (by omega), if_pos (by omega)]
      have hu := hsuffix (j - 36) (by omega) (by omega)
      rw [show e.arg2.toNat + (j - 20) = e.arg2.toNat + 16 + (j - 36) by omega]
      exact hv.nonce _ hu

theorem State.runBlocks_racedLike {r : Rounds} (h : s.ClearFor (.blocks r) e) (ht : s.runBlocks r v = .next t)
    (hu : s.runBlocks r s.reads = .next u) : RacedLike raced (.blocks r) e t u e' f := by
  rcases State.runBlocks_ends he h with halike | ⟨form, hwrite⟩
  · exact .of_alike he' hf halike ht hu
  · refine .of_ends he' hf (.inr hwrite) ht hu (by simp only [State.blocksOutput_length]) fun j hj _ hin => ?_
    rw [State.blocksOutput_length] at hj
    obtain ⟨hkey, hnonce⟩ := hin.2 r rfl ⟨by omega, by omega⟩
    rw [hv.readKey hkey, hv.readNonce hnonce]
    rfl

/-- Every command, with reads that agree with host memory at every byte no one has written. -/
theorem execSeeing_racedLike {i : Instr} (h : s.ClearFor i e) (ht : execSeeing i v s = .next t) (hu : exec i s = .next u) :
    RacedLike raced i e t u e' f := by
  have hsame : execSeeing i v s = exec i s → RacedLike raced i e t u e' f := fun hrun => by
    cases (hrun.symm.trans ht).symm.trans hu
    cases he'.symm.trans hf
    exact .refl _
  cases i with
  | init r c => exact State.runInit_racedLike he hv he' hf h ht hu
  | apply => exact State.runApply_racedLike he hv he' hf h ht hu
  | genInit r => exact State.runGenInit_racedLike he hv he' hf h ht hu
  | derive r => exact State.runDerive_racedLike he hv he' hf h ht hu
  | blocks r => exact State.runBlocks_racedLike he hv he' hf h ht hu
  | seek | tell | zeroize | fill | setWpos | getWpos => exact hsame rfl

end
end Sys2Proof.Machine
end

section
/-! What a raced command leaves, by value, where it may run (42_cursor.md R190, R194; 44_generator.md R250, R253; 43_subkey.md R233;
41_backends.md R170), and with it the whole rule of 20_memory.md R85. -/

namespace Sys2Proof.Machine

/-! ### The values -/

theorem Memory.read_writeBytes_getD (m : Memory) (a : Nat) {bytes : List Byte} {j : Nat} (hj : j < bytes.length) :
    Memory.read (Memory.writeBytes m a bytes) (a + j) = bytes.getD j 0 := by
  rw [Memory.read_writeBytes_inside _ _ _ hj, List.getD_eq_getElem _ _ hj]

theorem State.putEngine_withMem_engine? {s : State} {e₀ : Engine} (h : s.engine? = some e₀) (m : Memory) (e : Engine) :
    (State.putEngine { s with mem := m } e).engine? = some e :=
  State.putEngine_engine? (s := { s with mem := m }) h e

theorem NonceForm.ofInitLength_eq {len : Word} {form : NonceForm} (h : NonceForm.ofInitLength len = some form) :
    len = BitVec.ofNat 64 form.bytes := by
  rw [NonceForm.bytes_ofInitLength h, BitVec.ofNat_toNat, BitVec.setWidth_eq]

theorem NonceForm.ofInitLength_extended {len : Word} {form : NonceForm} (h : NonceForm.ofInitLength len = some form) :
    form = .extended ↔ len = 24 := by
  rw [NonceForm.ofInitLength_eq h]
  cases form <;> decide

theorem NonceForm.ofInitLength_cw64 {len : Word} {form : NonceForm} (h : NonceForm.ofInitLength len = some form) :
    form.cw64 = true ↔ len = 8 := by
  rw [NonceForm.ofInitLength_eq h]
  cases form <;> decide

/-- Byte j of a key or nonce that was read, filled with zeros. -/
theorem byteVector_readBytes (k : Nat) (m : Memory) (a n : Nat) (j : Fin k) :
    (byteVector k (Memory.readBytes m a n))[j] = if j.val < n then Memory.read m (a + j.val) else 0 := by
  rw [Fin.getElem_fin, byteVector_getElem, Memory.readBytes_getD]

section
variable {raced : List AccessRange} {s t : State} {e e' : Engine} {v : Reads} (he : s.engine? = some e)
  (he' : t.engine? = some e')
include he he'

/-- APPLY and FILL that may run: the position moves on, and each byte is the keystream's, XORed into the old one for APPLY. -/
theorem State.stream_byValue {k : Kind} {b : Bool} {m : Memory} (ht : s.stream k b m = .next t) (hr : e.ctx.Ready k)
    (hinv : e.ctx.Inv) (hp : e.ctx.position + e.arg1.toNat ≤ endPos e.ctx.cw64)
    (hacc : s.Accessible (streamKinds b) e.arg0.toNat e.arg1.toNat) :
    e'.err = .ok ∧ e'.ctx.position = e.ctx.position + e.arg1.toNat ∧ ∀ j, j < e.arg1.toNat →
      Memory.read t.mem (e.arg0.toNat + j) =
        (if b then Memory.read m (e.arg0.toNat + j) else 0) ^^^ e.ctx.keystream (e.ctx.position + j) := by
  rw [State.stream_ready he hr hp] at ht
  split at ht
  · next h0 =>
    cases ht
    cases he'.symm.trans (State.putEngine_engine? he _)
    rw [h0]
    exact ⟨rfl, rfl, fun j hj => absurd hj (Nat.not_lt_zero j)⟩
  · have hacc' : s.resolve.Accessible (streamKinds b) e.arg0.toNat e.arg1.toNat := (State.checkRange_resolve ..).trans hacc
    rw [State.streamAccess_accessible hacc', State.generate_eq] at ht
    cases ht
    cases he'.symm.trans (State.putEngine_withMem_engine? ((State.resolve_engine? s).trans he) _ _)
    refine ⟨rfl, (Context.draw_spec (hinv.cursorOk hr.1) _ (le_trans hp (endPos_le _))).2.1, fun j hj => ?_⟩
    have hlen : j < (s.resolve.streamOutput e b m).length := by rwa [State.streamOutput_length]
    exact (Memory.read_writeBytes_inside _ _ _ hlen).trans (State.streamOutput_getElem hinv hr.1 hp b hlen)

/-- INIT that may run. -/
theorem State.runInit_byValue {r : Rounds} {c : Bool} (hv : v.AgreeWith s.mem raced) (ht : s.runInit r c v = .next t)
    (h1 : e.arg1 = 32) (hops : e.arg3 = 8 ∨ e.arg3 ∈ ([12, 24] : List Word) ∧ (if c then e.arg4.toNat else 0) < 2 ^ 32)
    (hkey : s.Accessible [.read] e.arg0.toNat 32) (hnonce : s.Accessible [.read] e.arg2.toNat e.arg3.toNat) :
    e'.err = .ok ∧ e'.ctx.cstate = .ready ∧ e'.ctx.kind = .cipher ∧ e'.ctx.rnd = r ∧
      (e'.ctx.cw64 = true ↔ e.arg3 = 8) ∧ e'.ctx.ctr = (if c then e.arg4 else 0) ∧ e'.ctx.ofs = 0 ∧ e'.ctx.bufv = false ∧
      (e.arg3 ≠ 24 → ∀ j : Fin 32, Unwritten raced (e.arg0.toNat + j.val) →
        e'.ctx.key[j] = Memory.read s.mem (e.arg0.toNat + j.val)) ∧
      (∀ j : Fin 12, e.arg3 ≠ 24 → j.val < e.arg3.toNat → Unwritten raced (e.arg2.toNat + j.val) →
        e'.ctx.nonce[j] = Memory.read s.mem (e.arg2.toNat + j.val)) ∧
      (∀ j : Fin 12, e.arg3 ≠ 24 → e.arg3.toNat ≤ j.val → e'.ctx.nonce[j] = 0) ∧
      (∀ j : Fin 12, e.arg3 = 24 → (j.val < 4 → e'.ctx.nonce[j] = 0) ∧
        (4 ≤ j.val → Unwritten raced (e.arg2.toNat + 12 + j.val) →
          e'.ctx.nonce[j] = Memory.read s.mem (e.arg2.toNat + 12 + j.val))) := by
  obtain ⟨form, hform, hc⟩ := NonceForm.ofInitLength_accepted hops
  have hext := NonceForm.ofInitLength_extended hform
  rw [State.runInit_reads he h1 hform hc, State.readInput_accessible hkey, NonceForm.bytes_ofInitLength hform,
    State.readInput_accessible hnonce, NonceForm.cipherContext_eq] at ht
  cases ht
  have hS := State.engine?_ite_resolve he (form = .extended)
  cases he'.symm.trans (State.putEngine_engine? hS _)
  dsimp only [Context.construct_key, Context.construct_nonce]
  refine ⟨rfl, rfl, rfl, rfl, NonceForm.ofInitLength_cw64 hform, rfl, rfl, rfl, fun h3 j hj => ?_, fun j h3 hlt hj => ?_,
    fun j h3 hge => ?_, fun j h3 => ⟨fun hlt => ?_, fun hge hj => ?_⟩⟩
  · rw [if_neg fun h => h3 (hext.mp h), byteVector_readBytes, if_pos j.isLt]
    exact hv.key _ hj
  · rw [if_neg fun h => h3 (hext.mp h), byteVector_readBytes, if_pos hlt]
    exact hv.nonce _ hj
  · rw [if_neg fun h => h3 (hext.mp h), byteVector_readBytes, if_neg (Nat.not_lt.mpr hge)]
  · rw [if_pos (hext.mpr h3), Fin.getElem_fin, byteVector_getElem, subnonce_getD _ j.isLt, if_pos hlt]
  · have hlt : 12 + j.val < e.arg3.toNat := by rw [h3]; exact Nat.add_lt_add_left j.isLt 12
    rw [if_pos (hext.mpr h3), Fin.getElem_fin, byteVector_getElem, subnonce_getD _ j.isLt, if_neg (Nat.not_lt.mpr hge),
      Memory.readBytes_getD, if_pos hlt, ← Nat.add_assoc]
    exact hv.nonce _ hj

/-- GEN_INIT that may run. -/
theorem State.runGenInit_byValue {r : Rounds} (hv : v.AgreeWith s.mem raced) (ht : s.runGenInit r v = .next t)
    (h1 : e.arg1 = 32) (h3 : e.arg3 ∈ ([0, 8, 12] : List Word))
    (hkey : s.Accessible [.read] e.arg0.toNat 32) (hsid : s.Accessible [.read] e.arg2.toNat e.arg3.toNat) :
    e'.err = .ok ∧ e'.ctx.cstate = .ready ∧ e'.ctx.kind = .generator ∧ e'.ctx.rnd = r ∧
      (e'.ctx.cw64 = true ↔ e.arg3 ≠ 12) ∧ e'.ctx.ctr = 0 ∧ e'.ctx.ofs = 0 ∧ e'.ctx.bufv = false ∧
      (∀ j : Fin 32, Unwritten raced (e.arg0.toNat + j.val) →
        e'.ctx.key[j] = Memory.read s.mem (e.arg0.toNat + j.val)) ∧
      (∀ j : Fin 12, j.val < e.arg3.toNat → Unwritten raced (e.arg2.toNat + j.val) →
        e'.ctx.nonce[j] = Memory.read s.mem (e.arg2.toNat + j.val)) ∧
      (∀ j : Fin 12, e.arg3.toNat ≤ j.val → e'.ctx.nonce[j] = 0) := by
  obtain ⟨form, hform, hcw⟩ := NonceForm.ofStreamLength_accepted h3
  have hrun : s.runGenInit r v = s.complete { e with
      ctx := form.generatorContext r (Memory.readBytes v.key e.arg0.toNat 32) (e.streamId v) } := by
    rw [State.runGenInit_reads he h1 hform, State.readInput_accessible hkey, Engine.streamId]
    split
    · rfl
    · next h0 => rw [NonceForm.bytes_ofStreamLength hform h0, State.readInput_accessible hsid]
  rw [NonceForm.generatorContext_eq, Engine.byteVector_streamId] at hrun
  cases hrun.symm.trans ht
  cases he'.symm.trans (State.putEngine_engine? he _)
  dsimp only [Context.construct_key, Context.construct_nonce]
  refine ⟨rfl, rfl, rfl, rfl, hcw, rfl, rfl, rfl, fun j hj => ?_, fun j hlt hj => ?_, fun j hge => ?_⟩
  · rw [byteVector_readBytes, if_pos j.isLt]
    exact hv.key _ hj
  · rw [byteVector_readBytes, if_pos hlt]
    exact hv.nonce _ hj
  · rw [byteVector_readBytes, if_neg (Nat.not_lt.mpr hge)]

/-- DERIVE that may run. -/
theorem State.runDerive_byValue {r : Rounds} (hv : v.AgreeWith s.mem raced) (ht : s.runDerive r v = .next t)
    (h1 : e.arg1 = 32) (h3 : e.arg3 = 24) (hkey : s.Accessible [.read] e.arg0.toNat 32)
    (hnonce : s.Accessible [.read] e.arg2.toNat 24) (hout : s.Accessible [.write] e.arg5.toNat 44) :
    e'.err = .ok ∧ e'.ctx = e.ctx ∧ (∀ j, 32 ≤ j → j < 36 → Memory.read t.mem (e.arg5.toNat + j) = 0) ∧
      ∀ j, 36 ≤ j → j < 44 → Unwritten raced (e.arg2.toNat + 16 + (j - 36)) →
        Memory.read t.mem (e.arg5.toNat + j) = Memory.read s.mem (e.arg2.toNat + 16 + (j - 36)) := by
  have hout' : s.resolve.Accessible [.write] e.arg5.toNat 44 := (State.checkRange_resolve ..).trans hout
  have hlen := deriveOutput_length r (Memory.readBytes v.key e.arg0.toNat 32) (Memory.readBytes_length v.nonce e.arg2.toNat 24)
  have hbyte := fun j => deriveOutput_getD_subnonce (j := j) r (Memory.readBytes v.key e.arg0.toNat 32)
    (Memory.readBytes v.nonce e.arg2.toNat 24)
  rw [State.runDerive_output he h1 h3 hkey hnonce] at ht
  -- the output is named, so that no step computes the subkey in it
  generalize deriveOutput r (Memory.readBytes v.key e.arg0.toNat 32) (Memory.readBytes v.nonce e.arg2.toNat 24) = out at *
  rw [State.writeOutput_accessible hout'] at ht
  cases ht
  cases he'.symm.trans (State.putEngine_withMem_engine? ((State.resolve_engine? s).trans he) _ _)
  refine ⟨rfl, rfl, fun j h hj => ?_, fun j h hj hu => ?_⟩
  · rw [State.putEngine_mem, Memory.read_writeBytes_getD _ _ (by omega), hbyte j h (by omega), if_pos hj]
  · rw [State.putEngine_mem, Memory.read_writeBytes_getD _ _ (by omega), hbyte j (by omega) hj, if_neg (by omega),
      Memory.readBytes_getD, if_pos (by omega), show e.arg2.toNat + (j - 20) = e.arg2.toNat + 16 + (j - 36) by omega]
    exact hv.nonce _ hu

/-- BLOCKS that may run. -/
theorem State.runBlocks_byValue {r : Rounds} (ht : s.runBlocks r v = .next t) (h1 : e.arg1 = 32)
    (hops : e.arg3 = 8 ∧ e.arg4.toNat + e.arg6.toNat ≤ 2 ^ 64 ∨
      e.arg3 = 12 ∧ e.arg4.toNat < 2 ^ 32 ∧ e.arg4.toNat + e.arg6.toNat ≤ 2 ^ 32)
    (hkey : s.Accessible [.read] e.arg0.toNat 32) (hnonce : s.Accessible [.read] e.arg2.toNat e.arg3.toNat)
    (hout : s.Accessible [.write] e.arg5.toNat (64 * e.arg6.toNat)) : e'.err = .ok ∧ e'.ctx = e.ctx := by
  obtain ⟨form, hform, hc, hn⟩ := NonceForm.ofBlockLength_accepted hops
  have hout' : s.resolve.Accessible [.write] e.arg5.toNat (64 * e.arg6.toNat) := (State.checkRange_resolve ..).trans hout
  rw [State.runBlocks_output he h1 hform hc hn hkey hnonce, State.writeOutput_accessible hout'] at ht
  split at ht
  · cases ht
    cases he'.symm.trans (State.putEngine_engine? he _)
    exact ⟨rfl, rfl⟩
  · cases ht
    cases he'.symm.trans (State.putEngine_withMem_engine? ((State.resolve_engine? s).trans he) _ _)
    exact ⟨rfl, rfl⟩

end

/-- What no command changes but on its own instance, whatever it reads (10_state.md R33; 20_memory.md R84; 60_exceptions.md
R295). -/
theorem State.EndsAs.frame {i : Instr} {s t : State} {e : Engine} (h : s.EndsAs i t) (he : s.engine? = some e) :
    ∃ e', t.engine? = some e' ∧ e'.args = e.args ∧ t.params = s.params ∧ t.hostOps = s.hostOps ∧ t.pc = s.pc ∧
      t.observed = s.observed ∧ t.active = s.active ∧ t.pending = s.pending ∧
      ∀ j, j ≠ s.active → t.engines[j]? = s.engines[j]? := by
  obtain ⟨e₀, e', m, valid, sel, n, he₀, hend, rfl⟩ := h.fields
  cases he.symm.trans he₀
  exact ⟨e', State.putEngine_engine? he e', hend.args, rfl, rfl, rfl, rfl, rfl, rfl, fun j hj => State.putEngine_other s e' hj⟩

/-! ### The rule -/

/-- Settles O12: the command runs with reads that agree with host memory off the bytes written, and the race then leaves every
byte no one raced for. -/
theorem racedCommandsGoOn : Obligations.RacedCommandsGoOn := by
  intro s i raced e he hwin
  obtain ⟨v, n, hv, hrace⟩ := s.runRacing_eq i raced
  have hs : State.engine? { s with freeCount := n } = some e := he
  have hclear : State.ClearFor { s with freeCount := n } i e := fun kind a k hmem x hx => hwin kind a k x hmem hx
  obtain ⟨t, ht⟩ := execSeeing_completes hs hclear v
  obtain ⟨u, hu⟩ := execSeeing_completes hs hclear (State.reads { s with freeCount := n })
  rw [execSeeing_reads] at hu
  obtain ⟨m, n', hm, hrun⟩ := hrace t ht
  obtain ⟨e', he', hargs, hparams, hlist, hpc, hobs, hact, hpend, hother⟩ := (execSeeing_endsAs ht).frame hs
  obtain ⟨f, hf, -⟩ := (exec_endsAs hu).frame hs
  have hlike := execSeeing_racedLike hs hv he' hf hclear ht hu
  refine ⟨{ t with mem := m, freeCount := n' }, e', hrun, he', hparams, hlist, hpc, hobs, hact, hpend, hother, hargs,
    fun x hx hout => (hm x hx).trans (execSeeing_frame (s := { s with freeCount := n }) hs ht hout),
    ⟨n, u, f, hu, hf, hlike.bselValid, hlike.bsel, hlike.engine, hlike.unconstructed, hlike.derivedKey,
      fun x hx hderive hblocks => (hm x hx).trans (hlike.memory x hx ⟨hderive, hblocks⟩),
      fun hall => ⟨hlike.unwritten hall, fun x hx => (hm x hx).trans (hlike.memory x hx (AllUnwritten.inputs hall x))⟩⟩,
    ?_, ?_, ?_, ?_, ?_, ?_⟩
  · rintro rfl hr hinv hp hacc
    obtain ⟨herr, hpos, hbytes⟩ := State.stream_byValue (b := true) hs he' ht hr hinv hp hacc
    refine ⟨herr, hpos, fun j hj hx => (hm _ hx).trans ((hbytes j hj).trans ?_)⟩
    rw [if_pos rfl, hv.buffer _ hx.unwritten]
  · rintro rfl hr hinv hp hacc
    obtain ⟨herr, hpos, hbytes⟩ := State.stream_byValue (b := false) hs he' ht hr hinv hp hacc
    refine ⟨herr, hpos, fun j hj hx => (hm _ hx).trans ((hbytes j hj).trans ?_)⟩
    rw [if_neg Bool.false_ne_true]
    exact BitVec.zero_xor
  · rintro r c rfl h1 hops hkey hnonce
    exact State.runInit_byValue hs he' hv ht h1 hops hkey hnonce
  · rintro r rfl h1 h3 hkey hsid
    exact State.runGenInit_byValue hs he' hv ht h1 h3 hkey hsid
  · rintro r rfl h1 h3 hkey hnonce hout
    obtain ⟨herr, hctx, hzero, hsuffix⟩ := State.runDerive_byValue hs he' hv ht h1 h3 hkey hnonce hout
    exact ⟨herr, hctx, fun j h hj hx => (hm _ hx).trans (hzero j h hj),
      fun j h hj hx hw => (hm _ hx).trans (hsuffix j h hj hw)⟩
  · rintro r rfl h1 hops hkey hnonce hout
    exact State.runBlocks_byValue hs he' ht h1 hops hkey hnonce hout

end Sys2Proof.Machine
end

section
/-! Encodings (30_encoding.md R100–R106, R114, R115): the word of a command field by field, and that the decoder inverts the
encoder in both directions. -/

namespace Sys2Proof

/-! ### The fields of a word -/

/-- A word is reserved bits, C, RND and OP, in that order from bit 63 down (30_encoding.md R100). -/
theorem Word.eq_append_fields (w : Word) :
    w = w.extractLsb' 11 53 ++ w.extractLsb' 10 1 ++ w.extractLsb' 8 2 ++ w.extractLsb' 0 8 := by
  rw [BitVec.extractLsb'_append_extractLsb'_eq_extractLsb' (start₁ := 10) (len₁ := 1) rfl,
    BitVec.extractLsb'_append_extractLsb'_eq_extractLsb' (start₁ := 8) (len₁ := 2) rfl,
    BitVec.extractLsb'_append_extractLsb'_eq_extractLsb' (start₁ := 0) (len₁ := 8) rfl, BitVec.extractLsb'_eq_self]

theorem eq_encode_of_fields {w : Word} {i : Instr} (hreserved : w.extractLsb' 11 53 = 0#53)
    (hcounter : w.extractLsb' 10 1 = counterField i) (hrounds : w.extractLsb' 8 2 = roundsField i)
    (hopcode : w.extractLsb' 0 8 = opcodeOf i) : w = encode i := by
  rw [w.eq_append_fields, hreserved, hcounter, hrounds, hopcode, encode]

/-! ### What each table of the decoder answers -/

theorem decodeRounds_eq_some {code : BitVec 2} {r : Rounds} (h : decodeRounds code = some r) : code = encodeRounds r := by
  unfold decodeRounds at h
  split_ifs at h with hcode hcode hcode <;> cases h <;> exact hcode

/-- A command that takes a round count carries the one given, and the C bit as it is where C is legal. -/
theorem constructorOf_eq_some {op : BitVec 8} {r : Rounds} {c : BitVec 1} {i : Instr}
    (h : constructorOf op r (c == 1#1) = some i) (hc : ¬(op ≠ 0x01#8 ∧ c = 1#1)) :
    op = opcodeOf i ∧ encodeRounds r = roundsField i ∧ c = counterField i := by
  rcases BitVec.eq_zero_or_eq_one c with rfl | rfl
  · -- C = 0, as every command may have it
    unfold constructorOf at h
    split_ifs at h with hop hop hop hop <;> cases h <;> exact ⟨hop, rfl, rfl⟩
  · -- C = 1, which leaves INIT
    have hop : op = 0x01#8 := not_not.mp fun hne => hc ⟨hne, rfl⟩
    subst hop
    cases h
    exact ⟨rfl, rfl, rfl⟩

/-- A command that takes no round count has RND = 0 and C = 0. -/
theorem plainCommand_eq_some {op : BitVec 8} {i : Instr} (h : plainCommand op = some i) :
    op = opcodeOf i ∧ roundsField i = 0#2 ∧ counterField i = 0#1 := by
  unfold plainCommand at h
  split_ifs at h with hop hop hop hop hop hop hop <;> cases h <;> exact ⟨hop, rfl, rfl⟩

/-! ### The decoder inverts the encoder -/

theorem decode_encode (i : Instr) : decode (encode i) = .ok i := by
  cases i with
  | init r c => cases r <;> cases c <;> rfl
  | genInit r | derive r | blocks r => cases r <;> rfl
  | apply | seek | tell | zeroize | fill | setWpos | getWpos => rfl

/-- A word that decodes is its command's encoding: each check of 30_encoding.md R105 fixes one field. -/
theorem eq_encode_of_decode {w : Word} {i : Instr} (h : decode w = .ok i) : w = encode i := by
  dsimp only [decode] at h
  split at h
  · cases h
  next hreserved =>
  have hreserved := not_not.mp hreserved
  split at h
  · -- the opcode takes a round count
    split at h
    · cases h
    next r hr =>
    split at h
    · cases h
    next hc =>
    split at h
    · next hi =>
      cases h
      obtain ⟨hop, hrounds, hcounter⟩ := constructorOf_eq_some hi hc
      exact eq_encode_of_fields hreserved hcounter ((decodeRounds_eq_some hr).trans hrounds) hop
    · cases h
  · -- the opcode takes none
    split at h
    · cases h
    next hi =>
    obtain ⟨hop, hrounds, hcounter⟩ := plainCommand_eq_some hi
    split at h
    · cases h
    next hzero =>
    cases h
    obtain ⟨hrnd, hc⟩ := not_or.mp hzero
    exact eq_encode_of_fields hreserved ((not_not.mp hc).trans hcounter.symm) ((not_not.mp hrnd).trans hrounds.symm) hop

theorem decode_eq_ok_iff {w : Word} {i : Instr} : decode w = .ok i ↔ w = encode i :=
  ⟨eq_encode_of_decode, fun h => h ▸ decode_encode i⟩

/-- Settles O2: the decoder inverts the encoder, and accepts no word but a command's encoding. -/
theorem decodeAndEncodeAgree : Obligations.DecodeAndEncodeAgree := fun _ _ _ => decode_eq_ok_iff

/-! ### The legal words -/

/-- The 22 commands, in the order of 30_encoding.md R114. -/
def Instr.all : List Instr :=
  [.init .r8 false, .init .r12 false, .init .r20 false, .init .r8 true, .init .r12 true, .init .r20 true,
    .apply, .seek, .tell, .zeroize, .genInit .r8, .genInit .r12, .genInit .r20, .fill, .setWpos, .getWpos,
    .derive .r8, .derive .r12, .derive .r20, .blocks .r8, .blocks .r12, .blocks .r20]

theorem Instr.mem_all (i : Instr) : i ∈ Instr.all := by
  cases i with
  | init r c => cases r <;> cases c <;> decide
  | genInit r | derive r | blocks r => cases r <;> decide
  | apply | seek | tell | zeroize | fill | setWpos | getWpos => decide

theorem mem_map_encode_iff {w : Word} {i : Instr} :
    (w, i) ∈ Instr.all.map (fun j => (encode j, j)) ↔ w = encode i := by
  simp only [List.mem_map, Prod.mk.injEq]
  exact ⟨fun ⟨_, _, hw, hi⟩ => hi ▸ hw.symm, fun h => ⟨i, i.mem_all, h.symm, rfl⟩⟩

/-- Settles O1: the table of R114 lists each command with its encoding. -/
theorem legalWordsAreTheTwentyTwo : Obligations.LegalWordsAreTheTwentyTwo := fun _ _ =>
  decode_eq_ok_iff.trans mem_map_encode_iff.symm

/-! ### The reserved encodings -/

theorem encode_commandWord (i : Instr) : WellFormed.commandWord (encode i) = true := by
  cases i with
  | init r c => exact (Laws.CommandWord.init r c).1
  | apply => exact Laws.CommandWord.apply.1
  | seek => exact Laws.CommandWord.seek.1
  | tell => exact Laws.CommandWord.tell.1
  | zeroize => exact Laws.CommandWord.zeroize.1
  | genInit r => exact (Laws.CommandWord.genInit r).1
  | fill => exact Laws.CommandWord.fill.1
  | setWpos => exact Laws.CommandWord.setWpos.1
  | getWpos => exact Laws.CommandWord.getWpos.1
  | derive r => exact (Laws.CommandWord.derive r).1
  | blocks r => exact (Laws.CommandWord.blocks r).1

theorem commandWord_of_decode {w : Word} {i : Instr} (h : decode w = .ok i) : WellFormed.commandWord w = true :=
  eq_encode_of_decode h ▸ encode_commandWord i

/-- What fails a check of 30_encoding.md R105 is IllegalCommand. -/
theorem decode_error_of_not_commandWord {w : Word} (h : ¬ WellFormed.commandWord w = true) : ∃ why, decode w = .error why := by
  cases hd : decode w with
  | error why => exact ⟨why, rfl⟩
  | ok i => exact absurd (commandWord_of_decode hd) h

/-- Settles O3: each reserved encoding fails one of the checks of R105. -/
theorem reservedEncodingsAreIllegal : Obligations.ReservedEncodingsAreIllegal := by
  intro w hreserved
  refine decode_error_of_not_commandWord fun hword => ?_
  simp only [WellFormed.commandWord, Bool.and_eq_true] at hword
  obtain ⟨⟨⟨hclear, hlisted⟩, hrounds⟩, hcounter⟩ := hword
  rcases hreserved with hop | hrnd | ⟨hop, hrnd⟩ | ⟨hop, hc⟩ | hbits
  · exact hop (List.contains_iff_mem.mp hlisted)
  · simp [WellFormed.roundsLegal, hrnd] at hrounds
  · have htakes : WellFormed.takesRounds w = false := by
      rw [WellFormed.takesRounds, ← Bool.not_eq_true, List.contains_iff_mem]
      exact hop
    simp [WellFormed.roundsLegal, htakes, hrnd] at hrounds
  · simp [WellFormed.counterFlagLegal, hop, hc] at hcounter
  · exact hbits (beq_iff_eq.mp hclear)

/-- Settles O4: three encodings are reserved by RND or by bits 63:11, and the decoder inverts the encoder on the others. -/
theorem workedEncodings : Obligations.WorkedEncodings := by
  refine ⟨rfl, decode_encode (.init .r20 true), rfl, decode_encode (.derive .r20), ?_, ?_, ?_⟩
  · exact reservedEncodingsAreIllegal 0x301 (.inr (.inl (by decide)))
  · exact reservedEncodingsAreIllegal 0x102 (.inr (.inr (.inl (by decide))))
  · exact reservedEncodingsAreIllegal 0x100000002 (.inr (.inr (.inr (.inr (by decide)))))

end Sys2Proof
end

section
/-! The block core's matrix (40_block_core.md R132–R135, R143): quarter-rounds on disjoint words commute, and where the two counter
forms put the counter. -/

namespace Sys2Proof.Machine

/-! ### The quarter-round, word by word -/

/-- One assignment of a quarter-round (40_block_core.md R134): word x from words x and y. -/
def mixWord (f : Word32 → Word32 → Word32) (x y : Fin 16) (s : Matrix) : Matrix := s.set x (f s[x] s[y])

/-- `s[x] += s[y]` (40_block_core.md R134). -/
def addWord (x y : Fin 16) : Matrix → Matrix := mixWord (· + ·) x y

/-- `s[x] = rotl32(s[x] ^ s[y], n)` (40_block_core.md R134). -/
def xorRotateWord (n : Nat) (x y : Fin 16) : Matrix → Matrix := mixWord (fun v w => rotl32 (v ^^^ w) n) x y

/-- One half of a quarter-round, with its two rotations (40_block_core.md R134). -/
def halfQuarterRound (a b c d : Fin 16) (m n : Nat) : Matrix → Matrix :=
  xorRotateWord n b c ∘ addWord c d ∘ xorRotateWord m d a ∘ addWord a b

theorem quarterRound_eq_comp (a b c d : Fin 16) :
    quarterRound a b c d = halfQuarterRound a b c d 8 7 ∘ halfQuarterRound a b c d 16 12 := rfl

theorem mixWord_getElem_of_ne (f : Word32 → Word32 → Word32) {x z : Fin 16} (y : Fin 16) (s : Matrix) (h : x ≠ z) :
    (mixWord f x y s)[z] = s[z] :=
  Vector.getElem_set_ne x.isLt z.isLt (Fin.val_ne_of_ne h)

/-- Two assignments commute where neither writes a word that the other reads or writes. -/
theorem mixWord_commute (f g : Word32 → Word32 → Word32) {x y x' y' : Fin 16} (hxx : x ≠ x') (hxy : x ≠ y') (hyx : y ≠ x') :
    Function.Commute (mixWord f x y) (mixWord g x' y') := by
  intro s
  calc mixWord f x y (mixWord g x' y' s)
      = (s.set x' (g s[x'] s[y'])).set x (f s[x] s[y]) := by
        rw [mixWord, mixWord_getElem_of_ne g y' s hxx.symm, mixWord_getElem_of_ne g y' s hyx.symm, mixWord]
    _ = (s.set x (f s[x] s[y])).set x' (g s[x'] s[y']) := Vector.set_comm _ _ (Fin.val_ne_of_ne hxx.symm)
    _ = mixWord g x' y' (mixWord f x y s) := by
        rw [mixWord, mixWord_getElem_of_ne f y s hxx, mixWord_getElem_of_ne f y s hxy, mixWord]

/-- A quarter-round commutes with whatever commutes with every assignment among its words. -/
theorem quarterRound_commute {a b c d : Fin 16} {g : Matrix → Matrix}
    (h : ∀ f, ∀ x ∈ [a, b, c, d], ∀ y ∈ [a, b, c, d], Function.Commute (mixWord f x y) g) :
    Function.Commute (quarterRound a b c d) g := by
  have ha : a ∈ [a, b, c, d] := by simp
  have hb : b ∈ [a, b, c, d] := by simp
  have hc : c ∈ [a, b, c, d] := by simp
  have hd : d ∈ [a, b, c, d] := by simp
  have hhalf (m n : Nat) : Function.Commute (halfQuarterRound a b c d m n) g :=
    (h _ b hb c hc).comp_left <| (h _ c hc d hd).comp_left <| (h _ d hd a ha).comp_left (h _ a ha b hb)
  rw [quarterRound_eq_comp]
  exact (hhalf 8 7).comp_left (hhalf 16 12)

/-- Settles O51: the assignments of two quarter-rounds on disjoint words commute one by one. -/
theorem disjointQuarterRoundsCommute : Obligations.DisjointQuarterRoundsCommute := by
  intro a b c d a' b' c' d' m hdisjoint
  have hne {x x'} (hx : x ∈ [a, b, c, d]) (hx' : x' ∈ [a', b', c', d']) : x ≠ x' :=
    fun h => hdisjoint x hx (h ▸ hx')
  have hcommute : Function.Commute (quarterRound a b c d) (quarterRound a' b' c' d') :=
    quarterRound_commute fun f x hx y hy => .symm <|
      quarterRound_commute fun g x' hx' y' hy' => .symm <|
        mixWord_commute f g (hne hx hx') (hne hx hy') (hne hy hx')
  exact hcommute m

/-! ### The counter's words -/

theorem inputMatrix_short_low (key : Vector Byte 32) (n : Vector Byte 8) (c : Word) :
    (inputMatrix key (.short n) c)[12] = c.extractLsb' 0 32 := rfl

theorem inputMatrix_short_high (key : Vector Byte 32) (n : Vector Byte 8) (c : Word) :
    (inputMatrix key (.short n) c)[13] = c.extractLsb' 32 32 := rfl

theorem inputMatrix_standard_low (key : Vector Byte 32) (n : Vector Byte 12) (c : Word) :
    (inputMatrix key (.standard n) c)[12] = c.extractLsb' 0 32 := rfl

/-- Word 13 is the nonce's first word where the counter has 32 bits (40_block_core.md R132). -/
theorem inputMatrix_standard_nonce (key : Vector Byte 32) (n : Vector Byte 12) (c : Word) :
    (inputMatrix key (.standard n) c)[13] = le32At n 0 (by decide) := rfl

theorem counter_low_toNat (c : Word) : (c.extractLsb' 0 32).toNat = c.toNat % 2 ^ 32 := by
  simp

theorem counter_high_toNat (c : Word) : (c.extractLsb' 32 32).toNat = c.toNat / 2 ^ 32 := by
  have := c.isLt
  rw [BitVec.extractLsb'_toNat, Nat.shiftRight_eq_div_pow]
  omega

theorem counter_high_low (c : Word) : (c.extractLsb' 32 32).toNat * 2 ^ 32 + (c.extractLsb' 0 32).toNat = c.toNat := by
  rw [counter_low_toNat, counter_high_toNat]
  exact Nat.div_add_mod' ..

/-- The carry out of the low word goes into the high word (40_block_core.md R143). -/
theorem counter_carry {c : Word} (hlow : c.toNat % 2 ^ 32 = 2 ^ 32 - 1) (hmax : c.toNat + 1 < 2 ^ 64) :
    (c + 1).extractLsb' 0 32 = 0 ∧ (c + 1).extractLsb' 32 32 = c.extractLsb' 32 32 + 1 := by
  have hsucc : (c + 1).toNat = c.toNat + 1 := BitVec.toNat_add_of_lt hmax
  constructor <;> apply BitVec.eq_of_toNat_eq
  · rw [counter_low_toNat, hsucc]
    simp only [BitVec.ofNat_eq_ofNat, BitVec.toNat_ofNat]
    omega
  · rw [BitVec.toNat_add, counter_high_toNat, counter_high_toNat, hsucc]
    simp only [BitVec.ofNat_eq_ofNat, BitVec.toNat_ofNat]
    omega

/-- Settles O52: the two words are the counter's halves, or its low half and a word of the nonce. -/
theorem counterWords : Obligations.CounterWords := by
  refine ⟨fun key n c => ⟨?_, fun hlow hmax => ?_⟩, fun key n c c' => ⟨?_, ?_⟩⟩
  · rw [inputMatrix_short_high, inputMatrix_short_low, counter_high_low]
  · rw [inputMatrix_short_low, inputMatrix_short_high, inputMatrix_short_high]
    exact counter_carry hlow hmax
  · exact inputMatrix_standard_low ..
  · rw [inputMatrix_standard_nonce, inputMatrix_standard_nonce]

end Sys2Proof.Machine
end

section
/-! The operand checks of INIT, GEN_INIT, DERIVE and BLOCKS in their order (60_exceptions.md R286), and what BLOCKS writes
(41_backends.md R160, R163, R170). -/

namespace Sys2Proof.Machine

/-! ### Nonce and stream-id lengths that a command does not take -/

theorem NonceForm.ofInitLength_eq_none {len : Word} (h : len ∉ ([8, 12, 24] : List Word)) :
    NonceForm.ofInitLength len = none := by
  simp only [List.mem_cons, List.not_mem_nil, or_false, not_or] at h
  obtain ⟨h8, h12, h24⟩ := h
  rw [NonceForm.ofInitLength, if_neg h8, if_neg h12, if_neg h24]

theorem NonceForm.ofBlockLength_eq_none {len : Word} (h : len ∉ ([8, 12] : List Word)) :
    NonceForm.ofBlockLength len = none := by
  simp only [List.mem_cons, List.not_mem_nil, or_false, not_or] at h
  obtain ⟨h8, h12⟩ := h
  rw [NonceForm.ofBlockLength, if_neg h8, if_neg h12]

theorem NonceForm.ofStreamLength_eq_none {len : Word} (h : len ∉ ([0, 8, 12] : List Word)) :
    NonceForm.ofStreamLength len = none := by
  obtain ⟨h0, hlen⟩ := not_or.mp (mt List.mem_cons.mpr h)
  rw [NonceForm.ofStreamLength, if_neg h0, NonceForm.ofBlockLength_eq_none hlen]

/-- INIT's nonce lengths with the 32-bit counter (42_cursor.md R191). -/
theorem NonceForm.ofInitLength_narrow {len : Word} (h : len ∈ ([12, 24] : List Word)) :
    ∃ form, NonceForm.ofInitLength len = some form ∧ form.cw64 = false := by
  simp only [List.mem_cons, List.not_mem_nil, or_false] at h
  rcases h with rfl | rfl
  · exact ⟨.standard, rfl, rfl⟩
  · exact ⟨.extended, rfl, rfl⟩

/-- BLOCKS' nonce lengths, with the counter width of each (41_backends.md R170). -/
theorem NonceForm.ofBlockLength_wide {len : Word} {wide : Bool} (h : len = 8 ∧ wide = true ∨ len = 12 ∧ wide = false) :
    ∃ form, NonceForm.ofBlockLength len = some form ∧ form.cw64 = wide := by
  obtain ⟨rfl, rfl⟩ | ⟨rfl, rfl⟩ := h
  · exact ⟨.short, rfl, rfl⟩
  · exact ⟨.standard, rfl, rfl⟩

/-! ### Operands that a command refuses -/

section
variable {s : State} {e : Engine} {r : Rounds} {c : Bool} {v : Reads} (he : s.engine? = some e)
include he

theorem State.runInit_keyLength (h1 : e.arg1 ≠ 32) :
    s.runInit r c v = .next (s.putEngine { e with ctx := Context.zero, err := .invalidKeyLength }) :=
  (State.onEngine_some he _).trans (if_pos h1)

theorem State.runGenInit_keyLength (h1 : e.arg1 ≠ 32) :
    s.runGenInit r v = .next (s.putEngine { e with ctx := Context.zero, err := .invalidKeyLength }) :=
  (State.onEngine_some he _).trans (if_pos h1)

theorem State.runDerive_keyLength (h1 : e.arg1 ≠ 32) :
    s.runDerive r v = .next (s.putEngine { e with err := .invalidKeyLength }) :=
  (State.onEngine_some he _).trans (if_pos h1)

theorem State.runBlocks_keyLength (h1 : e.arg1 ≠ 32) :
    s.runBlocks r v = .next (s.putEngine { e with err := .invalidKeyLength }) :=
  (State.onEngine_some he _).trans (if_pos h1)

variable (h1 : e.arg1 = 32)
include h1

theorem State.runInit_nonceLength (hf : NonceForm.ofInitLength e.arg3 = none) :
    s.runInit r c v = .next (s.putEngine { e with ctx := Context.zero, err := .invalidNonceLength }) := by
  rw [State.runInit, State.onEngine_some he, State.initCipher, Engine.zeroize_arg1, if_neg (not_not.mpr h1),
    Engine.zeroize_arg3, hf]
  rfl

theorem State.runGenInit_streamIdLength (hf : NonceForm.ofStreamLength e.arg3 = none) :
    s.runGenInit r v = .next (s.putEngine { e with ctx := Context.zero, err := .invalidNonceLength }) := by
  rw [State.runGenInit, State.onEngine_some he, State.initGenerator, Engine.zeroize_arg1, if_neg (not_not.mpr h1),
    Engine.zeroize_arg3, hf]
  rfl

theorem State.runDerive_nonceLength (h3 : e.arg3 ≠ 24) :
    s.runDerive r v = .next (s.putEngine { e with err := .invalidNonceLength }) :=
  (State.onEngine_some he _).trans ((if_neg (not_not.mpr h1)).trans (if_pos h3))

theorem State.runBlocks_nonceLength (hf : NonceForm.ofBlockLength e.arg3 = none) :
    s.runBlocks r v = .next (s.putEngine { e with err := .invalidNonceLength }) := by
  rw [State.runBlocks, State.onEngine_some he, if_neg (not_not.mpr h1), hf]
  rfl

variable {form : NonceForm}

theorem State.runInit_counter (hf : NonceForm.ofInitLength e.arg3 = some form)
    (hc : maxCtr form.cw64 < (e.initialCounter c).toNat) :
    s.runInit r c v = .next (s.putEngine { e with ctx := Context.zero, err := .seekOutOfRange }) := by
  rw [State.runInit, State.onEngine_some he, State.initCipher, Engine.zeroize_arg1, if_neg (not_not.mpr h1),
    Engine.zeroize_arg3, hf]
  exact if_pos hc

/-- The first counter, or the last one taken without wrapping, is beyond the counter's range (41_backends.md R170). -/
theorem State.runBlocks_counter (hf : NonceForm.ofBlockLength e.arg3 = some form)
    (hc : maxCtr form.cw64 < e.arg4.toNat ∨ 0 < e.arg6.toNat ∧ maxCtr form.cw64 < e.arg4.toNat + e.arg6.toNat - 1) :
    s.runBlocks r v = .next (s.putEngine { e with err := .counterOverflow }) := by
  rw [State.runBlocks, State.onEngine_some he, if_neg (not_not.mpr h1), hf]
  dsimp only
  split
  · rfl
  · next hfirst => exact if_pos (hc.resolve_left hfirst)

end

/-- Settles O33: each command stops at its first check that fails, before it reads an input. -/
theorem operandChecksInOrder : Obligations.OperandChecksInOrder := by
  intro s e r c he
  refine ⟨fun h1 => ⟨State.runInit_keyLength he h1, State.runGenInit_keyLength he h1, State.runDerive_keyLength he h1,
    State.runBlocks_keyLength he h1⟩, fun h1 => ⟨fun h3 => ?_, fun h3 => ?_, fun h3 => ?_, fun h3 => ?_, fun h3 hc => ?_⟩⟩
  · exact State.runInit_nonceLength he h1 (NonceForm.ofInitLength_eq_none h3)
  · exact State.runGenInit_streamIdLength he h1 (NonceForm.ofStreamLength_eq_none h3)
  · exact State.runDerive_nonceLength he h1 h3
  · exact State.runBlocks_nonceLength he h1 (NonceForm.ofBlockLength_eq_none h3)
  · obtain ⟨form, hf, hw⟩ := NonceForm.ofInitLength_narrow h3
    exact State.runInit_counter (c := true) he h1 hf (by rw [hw]; exact Nat.lt_of_lt_of_le (by decide) hc)

/-- Settles O34: the counter checks come before the inputs. -/
theorem blocksCounterOverflow : Obligations.BlocksCounterOverflow := by
  intro s e r wide he h1 hlen hc
  obtain ⟨form, hf, rfl⟩ := NonceForm.ofBlockLength_wide hlen
  exact State.runBlocks_counter he h1 hf hc

/-! ### The blocks -/

/-- Settles O49: a vector backend's batches are `Block` of each lane, the last batch too. -/
theorem backendsAgree : Obligations.BackendsAgree := by
  intro p b key nonce c r n
  rw [Params.produceBlocks_eq]
  exact ⟨by simp, fun j hj => by simp [hj]⟩

/-- Byte i of what BLOCKS writes is byte i mod 64 of block i div 64, whatever the backend (10_state.md R50). -/
theorem State.blocksOutput_getElem (s : State) (e : Engine) (r : Rounds) (key : List Byte) (nonce : Nonce) {i : Nat}
    (hi : i < (s.blocksOutput e r key nonce).length) :
    (s.blocksOutput e r key nonce)[i] =
      (block (byteVector 32 key) nonce (e.arg4 + BitVec.ofNat 64 (i / 64)) r)[i % 64]'(Nat.mod_lt _ (by decide)) := by
  simp only [State.blocksOutput, flatMap_toList_getElem, Params.produceBlocks_eq, List.getElem_map, List.getElem_range]

/-- The nonce that BLOCKS reads (41_backends.md R170). -/
theorem NonceForm.blockNonce_readBytes {f : NonceForm} {len : Word} {nonce : Nonce} {m : Memory} {a : Nat}
    (h : len = 8 ∧ f.cw64 = true ∧ nonce = .short (byteVector 8 (Memory.readBytes m a 8)) ∨
      len = 12 ∧ f.cw64 = false ∧ nonce = .standard (byteVector 12 (Memory.readBytes m a 12))) :
    f.blockNonce (Memory.readBytes m a len.toNat) = nonce := by
  obtain ⟨rfl, hw, rfl⟩ | ⟨rfl, hw, rfl⟩ := h
  · exact if_pos hw
  · exact if_neg (by rw [hw]; decide)

/-- BLOCKS on accessible ranges writes its blocks, which are none for n = 0, and may resolve the selector. -/
theorem State.runBlocks_accessible {s : State} {e : Engine} {r : Rounds} {v : Reads} {form : NonceForm}
    (he : s.engine? = some e) (h1 : e.arg1 = 32) (hf : NonceForm.ofBlockLength e.arg3 = some form)
    (hc : e.arg4.toNat ≤ maxCtr form.cw64) (hn : e.arg4.toNat + e.arg6.toNat ≤ maxCtr form.cw64 + 1)
    (hkey : s.Accessible [.read] e.arg0.toNat 32) (hnonce : s.Accessible [.read] e.arg2.toNat e.arg3.toNat)
    (hout : s.Accessible [.write] e.arg5.toNat (64 * e.arg6.toNat)) :
    ∃ (valid : Bool) (sel : Option Backend), s.runBlocks r v = .next (State.putEngine { s with
      mem := Memory.writeBytes s.mem e.arg5.toNat (s.blocksOutput e r (Memory.readBytes v.key e.arg0.toNat 32)
        (form.blockNonce (Memory.readBytes v.nonce e.arg2.toNat e.arg3.toNat)))
      bselValid := valid
      bsel := sel } { e with err := .ok }) := by
  rw [State.runBlocks_output he h1 hf hc hn hkey hnonce, State.blocksOutput_eq_of_anyBackend s.resolve s]
  have hlength := s.blocksOutput_length e r (Memory.readBytes v.key e.arg0.toNat 32)
    (form.blockNonce (Memory.readBytes v.nonce e.arg2.toNat e.arg3.toNat))
  generalize s.blocksOutput e r (Memory.readBytes v.key e.arg0.toNat 32)
    (form.blockNonce (Memory.readBytes v.nonce e.arg2.toNat e.arg3.toNat)) = out at *
  by_cases h6 : e.arg6 = 0
  · obtain rfl : out = [] := List.length_eq_zero_iff.mp (by rw [hlength, h6]; rfl)
    exact ⟨s.bselValid, s.bsel, if_pos h6⟩
  · have hout' : s.resolve.Accessible [.write] e.arg5.toNat (64 * e.arg6.toNat) := (State.checkRange_resolve ..).trans hout
    refine ⟨s.resolve.bselValid, s.resolve.bsel, (if_neg h6).trans ((State.writeOutput_accessible hout').trans ?_)⟩
    rw [State.resolve_mem]
    exact congrArg (fun u : State => Host.Outcome.next
      (State.putEngine { u with mem := Memory.writeBytes s.mem e.arg5.toNat out } { e with err := .ok })) s.resolve_eq

/-- Settles O32: the bytes of the output are the blocks', and those outside it stay. -/
theorem blocksCompletes : Obligations.BlocksCompletes := by
  intro s e r nonce wide he h1 hform hc hn hkey hnonce hout
  obtain ⟨form, hf, rfl⟩ := NonceForm.ofBlockLength_wide (wide := wide)
    (hform.imp (And.imp_right And.left) (And.imp_right And.left))
  obtain ⟨valid, sel, hrun⟩ := State.runBlocks_accessible (r := r) (v := s.reads) he h1 hf hc hn hkey hnonce hout
  rw [State.reads, NonceForm.blockNonce_readBytes hform] at hrun
  have hlength := s.blocksOutput_length e r (Memory.readBytes s.mem e.arg0.toNat 32) nonce
  refine ⟨_, valid, sel, hrun, fun i hi => ?_, fun x hx => ?_⟩
  · rw [← hlength] at hi
    exact (Memory.read_writeBytes_inside _ _ _ hi).trans (State.blocksOutput_getElem ..)
  · exact Memory.read_writeBytes_outside _ _ _ (by rwa [hlength])

end Sys2Proof.Machine
end

section
/-! The selector resolves at most once per power-on (41_backends.md R165, 70_reset_and_hazards.md R313). -/

namespace Sys2Proof.Machine

/-- The selector has resolved to BSEL `b` (10_state.md R53). -/
def State.Selected (b : Option Backend) (s : State) : Prop := s.bselValid = true ∧ s.bsel = b

namespace State.Selected

variable {b : Option Backend} {s t : State} (h : s.Selected b)
include h

/-! ### Commands, raced or not, begun or completed -/

/-- A command resolves the selector at most, which does nothing to one that has resolved. -/
theorem endsAs {i : Instr} (ht : s.EndsAs i t) : t.Selected b := by
  obtain ⟨e, e', u, m, n, -, -, hu, -, rfl⟩ := ht
  obtain rfl : u = s := hu.elim id fun hr => hr.trans (State.resolve_of_valid h.1)
  exact h

theorem runRacing {i : Instr} {raced : List AccessRange} (ht : s.runRacing i raced = .next t) : t.Selected b := by
  rcases State.runRacing_next ht with ⟨-, ht⟩ | ⟨u, hu, rfl⟩
  · exact h.endsAs (exec_endsAs ht)
  · have hs : State.Selected b { s with freeCount := s.freeCount + 3 } := h
    have hu : u.Selected b := hs.endsAs (execSeeing_endsAs hu)
    exact hu

theorem issue {k : Nat} {w : Word} (ht : s.issue k w = .next t) : t.Selected b := by
  unfold State.issue at ht
  split at ht
  · obtain ⟨e, -, ht⟩ := State.onEngine_next ht
    cases ht
    exact h
  · next i _ =>
    obtain ⟨e, -, ht⟩ := State.onEngine_next ht
    have hs : State.Selected b (State.meet { s with active := k } (accessRanges i e)) := h
    exact hs.runRacing ht

/-- A command that only begins does not come to its first block. -/
theorem begin {agent k : Nat} {w : Word} (ht : s.begin agent k w = .next t) : t.Selected b := by
  unfold State.begin at ht
  split at ht
  all_goals
    obtain ⟨e, -, ht⟩ := State.onEngine_next ht
    cases ht
    exact h

theorem finish {f : Flight} (ht : s.finish f = .next t) : t.Selected b := by
  unfold State.finish at ht
  split at ht
  · cases ht
  · obtain ⟨u, hu, ht⟩ := StepOutcome.andThen_eq_next ht
    cases ht
    have hs : (s.flightState f).Selected b := h
    have hu : u.Selected b := hs.runRacing hu
    exact hu

/-! ### The host's operations -/

theorem storeRegister {k : Nat} {r : Register} {v : Word} (ht : s.storeRegister k r v = .next t) : t.Selected b := by
  cases ht
  exact h

theorem regRead {agent width : Nat} {addr : Word} (ht : s.regRead agent addr width = .next t) : t.Selected b := by
  obtain ⟨k, off, -, -, -, ht⟩ := State.atRegister_next ht
  split at ht
  · cases ht
  · cases ht
    exact h

theorem regWrite {width : Nat} {addr v : Word} (ht : s.regWrite addr width v = .next t) : t.Selected b := by
  obtain ⟨k, off, -, -, -, ht⟩ := State.atRegister_next ht
  split at ht
  · exact h.issue ht
  · exact h.storeRegister ht

theorem beginWrite {agent width : Nat} {addr v : Word} (ht : s.beginWrite agent addr width v = .next t) : t.Selected b := by
  obtain ⟨k, off, -, -, -, ht⟩ := State.atRegister_next ht
  split at ht
  · exact h.begin ht
  · exact h.storeRegister ht

theorem completeOn {k : Nat} (ht : s.completeOn k = .next t) : t.Selected b := by
  unfold State.completeOn at ht
  split at ht
  · cases ht
    exact h
  · exact h.finish ht

theorem hostRead {agent : Nat} {addr : Word} (ht : s.hostRead agent addr = .next t) : t.Selected b := by
  unfold State.hostRead at ht
  split at ht
  · cases ht
  · split at ht
    all_goals
      cases ht
      exact h

theorem hostWrite {addr : Word} {v : Byte} (ht : s.hostWrite addr v = .next t) : t.Selected b := by
  unfold State.hostWrite at ht
  split at ht
  · cases ht
  · cases ht
    exact h

/-- Every operation but a power-on reset keeps a resolved selector. -/
theorem perform {op : HostOp} (hop : op ≠ .powerOnReset) (ht : op.perform s = .next t) : t.Selected b := by
  cases op with
  | regRead agent addr width => exact h.regRead ht
  | regWrite agent addr width v => exact h.regWrite ht
  | beginWrite agent addr width v => exact h.beginWrite ht
  | completes k => exact h.completeOn ht
  | memRead agent addr => exact h.hostRead ht
  | memWrite agent addr v => exact h.hostWrite ht
  | powerOnReset => exact absurd rfl hop

end State.Selected

/-- Settles O55: a step performs an operation, completes a command in flight, or does nothing. -/
theorem selectorResolvesOnce : Obligations.SelectorResolvesOnce := by
  intro s t hvalid hop ht
  have h : s.Selected s.bsel := ⟨hvalid, rfl⟩
  unfold step State.hostStep at ht
  split at ht
  · split at ht
    · cases ht
      exact h
    · exact h.finish ht
  · next op hnext =>
    split at ht
    · have hs : State.Selected s.bsel { s with pc := s.pc + 1 } := h
      exact hs.perform (fun hreset => hop (hnext.trans (congrArg some hreset))) ht
    · exact h.finish ht

end Sys2Proof.Machine
end

section
/-! The cursor commands on the contexts they take and on those they do not (42_cursor.md R198, R200–R204): SEEK, TELL and
ZEROIZE, and the error that each command reports which needs a READY context of its kind. -/

namespace Sys2Proof.Machine

section
variable {s : State} {e : Engine} {k : Kind} (he : s.engine? = some e)
include he

/-! ### Contexts that are not READY, or of the other kind -/

/-- A context that `RequireReady` rejects stops APPLY and FILL with its error. -/
theorem State.stream_rejected {code : ErrCode} {b : Bool} {m : Memory} (hc : e.ctx.requireReady k = some code) :
    s.stream k b m = .next (s.putEngine { e with err := code }) := by
  rw [State.stream, State.onEngine_some he, hc]
  rfl

/-- It stops SEEK and SET_WPOS. -/
theorem State.seekTo_rejected {code : ErrCode} {f : Engine → Nat} (hc : e.ctx.requireReady k = some code) :
    s.seekTo k f = .next (s.putEngine { e with err := code }) := by
  rw [State.seekTo, State.onEngine_some he, hc]
  rfl

/-- It stops TELL and GET_WPOS. -/
theorem State.report_rejected {code : ErrCode} {f : Context → Nat} (hc : e.ctx.requireReady k = some code) :
    s.report k f = .next (s.putEngine { e with err := code }) := by
  rw [State.report, State.onEngine_some he, hc]
  rfl

/-- The six commands that need a READY context, each with the kind it needs (42_cursor.md R203). -/
theorem exec_rejected {i : Instr} {code : ErrCode}
    (hi : (i, k) ∈ ([(.apply, .cipher), (.seek, .cipher), (.tell, .cipher), (.fill, .generator), (.setWpos, .generator),
      (.getWpos, .generator)] : List (Instr × Kind)))
    (hc : e.ctx.requireReady k = some code) : exec i s = .next (s.putEngine { e with err := code }) := by
  simp only [List.mem_cons, Prod.mk.injEq, List.not_mem_nil, or_false] at hi
  obtain ⟨rfl, rfl⟩ | ⟨rfl, rfl⟩ | ⟨rfl, rfl⟩ | ⟨rfl, rfl⟩ | ⟨rfl, rfl⟩ | ⟨rfl, rfl⟩ := hi
  · exact State.stream_rejected he hc
  · exact State.seekTo_rejected he hc
  · exact State.report_rejected (f := Context.position) he hc
  · exact State.stream_rejected he hc
  · exact State.seekTo_rejected he hc
  · exact State.report_rejected (f := fun c => c.position / 4) he hc

/-! ### Contexts that are READY -/

/-- SEEK and SET_WPOS to a position in range. -/
theorem State.seekTo_inRange {f : Engine → Nat} {p : Nat} (hr : e.ctx.Ready k) (hf : f e = p)
    (hp : p / 64 ≤ maxCtr e.ctx.cw64) :
    s.seekTo k f = .next (s.putEngine { e with ctx := e.ctx.moveTo p, err := .ok }) := by
  subst hf
  exact (State.seekTo_ready he hr).trans (if_neg (Nat.not_lt.mpr hp))

/-- SEEK and SET_WPOS to a position out of range. -/
theorem State.seekTo_outOfRange {f : Engine → Nat} (hr : e.ctx.Ready k) (hp : maxCtr e.ctx.cw64 < f e / 64) :
    s.seekTo k f = .next (s.putEngine { e with err := .seekOutOfRange }) :=
  (State.seekTo_ready he hr).trans (if_pos hp)

end

/-- The 128-bit operand fits in 128 bits (30_encoding.md R109). -/
theorem Engine.operand128_lt (e : Engine) : e.operand128 < 2 ^ 128 := by
  have := e.arg0.isLt
  have := e.arg1.isLt
  simp only [Engine.operand128]
  omega

/-! ### The commands -/

/-- Settles O18: the three errors of `RequireReady`, which all six commands come to first. -/
theorem requireReadyErrors : Obligations.RequireReadyErrors := by
  intro s e i k he hi
  exact ⟨fun hu => exec_rejected he hi (Context.requireReady_uninit k hu),
    fun hf => exec_rejected he hi (Context.requireReady_fault k hf),
    fun hr hk => exec_rejected he hi (Context.requireReady_kind hr hk)⟩

/-- Settles O19: ZEROIZE puts the reset context, and with ERR = OK its STATUS is that of an instance after power-on. -/
theorem zeroizeErases : Obligations.ZeroizeErases := fun _ _ he =>
  ⟨State.onEngine_some he _, Engine.zero_readRegister .status⟩

/-- Settles O20: TELL reports the position as the 128-bit result. -/
theorem tellReportsPosition : Obligations.TellReportsPosition := fun _ _ he hr => State.report_ready he hr

/-- Settles O22: the operand's block number is compared with MAXCTR. -/
theorem seekMovesCursor : Obligations.SeekMovesCursor := fun _ _ he hr =>
  ⟨State.seekTo_inRange (f := Engine.operand128) he hr rfl, State.seekTo_outOfRange (f := Engine.operand128) he hr⟩

/-- Settles O41: the moved cursor stands at p, and p below 2^128 is put together again from its halves. -/
theorem tellAfterSeek : Obligations.TellAfterSeek := by
  intro s e he hr hp
  have hmoved := State.putEngine_engine? he { e with ctx := e.ctx.moveTo e.operand128, err := .ok }
  refine ⟨_, _, _, State.seekTo_inRange (f := Engine.operand128) he hr rfl hp,
    State.report_ready (f := Context.position) hmoved ((Context.moveTo_ready ..).mpr hr),
    State.putEngine_engine? hmoved _, rfl, ?_⟩
  have hpos : (e.ctx.moveTo e.operand128).position = e.operand128 := Context.moveTo_position _ hp
  rw [hpos]
  exact ofNat_halves _ e.operand128_lt

end Sys2Proof.Machine
end

section
/-! The keystream cursor as a function of the context: the bytes it draws and where it then stands, whatever the backend
(42_cursor.md R194, R206; 41_backends.md R163); and the bytes APPLY and FILL write, in one piece or two. -/

namespace Sys2Proof.Machine

/-! ### Drawn bytes and the cursor after them -/

/-- The next n keystream bytes of a context (42_cursor.md R194). -/
def Context.drawn (n : Nat) (c : Context) : List Byte := (Context.draw (fun c => block c.key c.nv c.ctr c.rnd) n c).1

/-- The context after n keystream bytes (42_cursor.md R194). -/
def Context.advance (n : Nat) (c : Context) : Context := (Context.draw (fun c => block c.key c.nv c.ctr c.rnd) n c).2

@[simp] theorem Context.drawn_length (n : Nat) (c : Context) : (c.drawn n).length = n := Context.draw_length ..

@[simp] theorem Context.advance_zero (c : Context) : c.advance 0 = c := rfl

theorem Context.drawn_add (n m : Nat) (c : Context) : c.drawn (n + m) = c.drawn n ++ (c.advance n).drawn m := by
  rw [Context.drawn, Context.draw_add]
  rfl

theorem Context.advance_add (n m : Nat) (c : Context) : c.advance (n + m) = (c.advance n).advance m := by
  rw [Context.advance, Context.draw_add]
  rfl

theorem Context.advance_same (n : Nat) (c : Context) : c.SameInstance (c.advance n) := Context.draw_same _ n c

theorem Context.advance_ready {c : Context} {k : Kind} (n : Nat) (h : c.Ready k) : (c.advance n).Ready k :=
  ⟨(c.advance_same n).cstate.trans h.1, (c.advance_same n).kind.trans h.2⟩

/-- Two contexts of one instance differ in the cursor fields only. -/
theorem Context.SameInstance.eq_withCursor {c d : Context} (h : c.SameInstance d) :
    d = { c with ctr := d.ctr, ofs := d.ofs, bufv := d.bufv, buf := d.buf } := by
  obtain ⟨hstate, hkind, hrnd, hcw, hkey, hnonce⟩ := h
  cases c
  cases d
  simp only at hstate hkind hrnd hcw hkey hnonce
  subst hstate hkind hrnd hcw hkey hnonce
  rfl

section
variable {c : Context} {n : Nat} (h : c.Inv) (hr : c.cstate = .ready) (hp : c.position + n ≤ endPos c.cw64)
include h hr hp

theorem Context.advance_position : (c.advance n).position = c.position + n :=
  (Context.draw_spec (h.cursorOk hr) n (le_trans hp (endPos_le _))).2.1

theorem Context.Inv.advance : (c.advance n).Inv := by
  by_cases hn : n = 0
  · rw [hn]; exact h
  · exact h.draw hr hn hp

/-- After at least one byte the cursor holds the block of the last one (10_state.md R48, R49). -/
theorem Context.advance_cached (hn : n ≠ 0) :
    (c.advance n).bufv = true ∧ 1 ≤ (c.advance n).ofs.toNat ∧ (c.advance n).ofs.toNat ≤ 64 ∧
      (c.advance n).buf = block c.key c.nv (c.advance n).ctr c.rnd := by
  have hbufv : (c.advance n).bufv = true :=
    (Context.draw_spec (h.cursorOk hr) n (le_trans hp (endPos_le _))).2.2.2 (Nat.one_le_iff_ne_zero.mpr hn)
  have hinv : (c.advance n).Inv := h.advance hr hp
  have hsame := c.advance_same n
  have hready := hsame.cstate.trans hr
  refine ⟨hbufv, hinv.buffered hready hbufv, hinv.offset hready, ?_⟩
  rw [hinv.coherent hready hbufv, hsame.key, hsame.nv, hsame.rnd]

end

/-- The kind of a context plays no part in its keystream (44_generator.md R254). -/
theorem Context.refill_kind (k : Kind) (c : Context) :
    Context.refill (fun c => block c.key c.nv c.ctr c.rnd) { c with kind := k } =
      { Context.refill (fun c => block c.key c.nv c.ctr c.rnd) c with kind := k } := by
  unfold Context.refill Context.fillBuffer Context.nextBlock
  split <;> split <;> rfl

theorem Context.draw_kind (k : Kind) (n : Nat) (c : Context) :
    Context.draw (fun c => block c.key c.nv c.ctr c.rnd) n { c with kind := k } =
      (c.drawn n, { c.advance n with kind := k }) := by
  induction n generalizing c with
  | zero => rfl
  | succ n ih =>
    rw [Context.draw, Context.refill_kind]
    have hnext := ih { c.refill (fun c => block c.key c.nv c.ctr c.rnd) with
      ofs := (c.refill fun c => block c.key c.nv c.ctr c.rnd).ofs + 1 }
    rw [hnext]
    rfl

theorem Context.drawn_kind (k : Kind) (n : Nat) (c : Context) : Context.drawn n { c with kind := k } = c.drawn n := by
  rw [Context.drawn, Context.draw_kind]

theorem Context.advance_kind (k : Kind) (n : Nat) (c : Context) :
    Context.advance n { c with kind := k } = { c.advance n with kind := k } := by
  rw [Context.advance, Context.draw_kind]

/-! ### The bytes APPLY and FILL write -/

/-- The n bytes that APPLY (`xorInput`) or FILL writes at a, from context c. -/
def streamBytes (xorInput : Bool) (m : Memory) (a n : Nat) (c : Context) : List Byte :=
  if xorInput then List.zipWith (· ^^^ ·) (Memory.readBytes m a n) (c.drawn n) else c.drawn n

/-- They are what the model's APPLY and FILL write, whatever the backend. -/
theorem State.streamOutput_eq (s : State) (e : Engine) (b : Bool) (m : Memory) :
    s.streamOutput e b m = streamBytes b m e.arg0.toNat e.arg1.toNat e.ctx := by
  rw [State.streamOutput, State.generate_eq]
  rfl

@[simp] theorem streamBytes_length (b : Bool) (m : Memory) (a n : Nat) (c : Context) : (streamBytes b m a n c).length = n := by
  unfold streamBytes
  split <;> simp

/-- n + k bytes are n bytes and then k, from the cursor that the first n leave (42_cursor.md R196 b). -/
theorem streamBytes_add (b : Bool) (m : Memory) (a n k : Nat) (c : Context) :
    streamBytes b m a (n + k) c = streamBytes b m a n c ++ streamBytes b m (a + n) k (c.advance n) := by
  cases b with
  | false => exact c.drawn_add n k
  | true =>
    simp only [streamBytes, if_true, Memory.readBytes_append, Context.drawn_add]
    exact List.zipWith_append (by simp)

/-- They depend on memory in the buffer only. -/
theorem streamBytes_congr {b : Bool} {m m' : Memory} {a n : Nat} (c : Context)
    (h : ∀ x, InRange a n x → Memory.read m x = Memory.read m' x) : streamBytes b m a n c = streamBytes b m' a n c := by
  rw [streamBytes, streamBytes, Memory.readBytes_congr h]

/-- On a buffer of zeros APPLY writes what FILL writes (44_generator.md R254). -/
theorem streamBytes_zeros {m : Memory} {a n : Nat} (c : Context) (h : ∀ x, InRange a n x → Memory.read m x = 0) :
    streamBytes true m a n c = c.drawn n := by
  refine List.ext_getElem (by simp) fun i hi _ => ?_
  have hi : i < n := by simpa using hi
  simp [streamBytes, Memory.readBytes_getElem, h (a + i) ⟨by omega, by omega⟩]

/-- Two outputs written one behind the other, the second from memory as the first left it, are the whole output: the first does
not reach the second's input (42_cursor.md R196 b). -/
theorem Memory.writeBytes_streamBytes_add (b : Bool) (m : Memory) (a n k : Nat) (c : Context) :
    Memory.writeBytes m a (streamBytes b m a (n + k) c) =
      Memory.writeBytes (Memory.writeBytes m a (streamBytes b m a n c)) (a + n)
        (streamBytes b (Memory.writeBytes m a (streamBytes b m a n c)) (a + n) k (c.advance n)) := by
  rw [streamBytes_add, Memory.writeBytes_append, streamBytes_length]
  refine congrArg _ (streamBytes_congr _ fun x hx => (Memory.read_writeBytes_outside _ _ _ ?_).symm)
  have := hx.1
  rw [streamBytes_length]
  omega

end Sys2Proof.Machine
end

section
/-! APPLY and FILL within the keystream on an accessible buffer (42_cursor.md R194; 44_generator.md R253), and the laws between
APPLY, SEEK and FILL (42_cursor.md R196, R199; 44_generator.md R254). -/

namespace Sys2Proof.Machine

/-! ### What one request does -/

theorem Context.drawn_getElem {c : Context} {n i : Nat} (h : c.Inv) (hr : c.cstate = .ready)
    (hp : c.position + n ≤ endPos c.cw64) (hi : i < (c.drawn n).length) : (c.drawn n)[i] = c.keystream (c.position + i) :=
  (Context.draw_spec (h.cursorOk hr) n (le_trans hp (endPos_le _))).1 i hi

/-- Byte i of the buffer afterwards (42_cursor.md R194, 44_generator.md R253). -/
theorem Memory.read_streamBytes {c : Context} {n i : Nat} (h : c.Inv) (hr : c.cstate = .ready)
    (hp : c.position + n ≤ endPos c.cw64) (hi : i < n) (b : Bool) (m m' : Memory) (a : Nat) :
    Memory.read (Memory.writeBytes m' a (streamBytes b m a n c)) (a + i) =
      (if b then Memory.read m (a + i) else 0) ^^^ c.keystream (c.position + i) := by
  rw [Memory.read_writeBytes_inside _ _ _ (by rwa [streamBytes_length]),
    ← Context.drawn_getElem h hr hp (by rwa [Context.drawn_length])]
  cases b with
  | false => exact BitVec.zero_xor.symm
  | true => simp [streamBytes, Memory.readBytes_getElem]

/-- Bytes outside the buffer stay. -/
theorem Memory.read_streamBytes_outside {a n x : Nat} (hx : ¬InRange a n x) (b : Bool) (m m' : Memory) (c : Context) :
    Memory.read (Memory.writeBytes m' a (streamBytes b m a n c)) x = Memory.read m' x :=
  Memory.read_writeBytes_outside _ _ _ (by rwa [streamBytes_length])

/-- A request within the keystream on an accessible buffer, be it of no byte, writes its bytes and moves the cursor on; it may
resolve the selector. -/
theorem State.stream_accessible {s : State} {e : Engine} {k : Kind} {b : Bool} {m : Memory} (he : s.engine? = some e)
    (hr : e.ctx.Ready k) (hp : e.ctx.position + e.arg1.toNat ≤ endPos e.ctx.cw64)
    (hacc : s.Accessible (streamKinds b) e.arg0.toNat e.arg1.toNat) :
    ∃ (valid : Bool) (sel : Option Backend), s.stream k b m = .next (State.putEngine
      { s with
        mem := Memory.writeBytes s.mem e.arg0.toNat (streamBytes b m e.arg0.toNat e.arg1.toNat e.ctx)
        bselValid := valid
        bsel := sel }
      { e with ctx := e.ctx.advance e.arg1.toNat, err := .ok }) := by
  by_cases h0 : e.arg1.toNat = 0
  · have hnone : streamBytes b m e.arg0.toNat e.arg1.toNat e.ctx = [] :=
      List.length_eq_zero_iff.mp (by rw [streamBytes_length, h0])
    rw [State.stream_ready he hr hp, if_pos (BitVec.eq_of_toNat_eq h0), hnone, h0]
    exact ⟨s.bselValid, s.bsel, rfl⟩
  · have hacc' : s.resolve.Accessible (streamKinds b) e.arg0.toNat e.arg1.toNat := (State.checkRange_resolve ..).trans hacc
    rw [State.stream_access he hr hp h0, State.streamAccess_accessible hacc', State.streamOutput_eq, State.generate_eq,
      s.resolve_eq]
    exact ⟨_, _, rfl⟩

/-- What such a request leaves, by value (10_state.md R48–R50). -/
theorem State.stream_byPosition {s : State} {e : Engine} {k : Kind} {b : Bool} {m : Memory} (he : s.engine? = some e)
    (hr : e.ctx.Ready k) (hinv : e.ctx.Inv) (hp : e.ctx.position + e.arg1.toNat ≤ endPos e.ctx.cw64)
    (hacc : s.Accessible (streamKinds b) e.arg0.toNat e.arg1.toNat) :
    ∃ (m' : Memory) (ctr : Word) (ofs : BitVec 7) (bufv : Bool) (buf : Block) (valid : Bool) (sel : Option Backend),
      s.stream k b m = .next (State.putEngine { s with mem := m', bselValid := valid, bsel := sel }
        { e with err := .ok, ctx := { e.ctx with ctr := ctr, ofs := ofs, bufv := bufv, buf := buf } }) ∧
      ctr.toNat * 64 + ofs.toNat = e.ctx.position + e.arg1.toNat ∧
      (e.arg1 = 0 → ctr = e.ctx.ctr ∧ ofs = e.ctx.ofs ∧ bufv = e.ctx.bufv ∧ buf = e.ctx.buf) ∧
      (e.arg1 ≠ 0 → bufv = true ∧ 1 ≤ ofs.toNat ∧ ofs.toNat ≤ 64 ∧ buf = block e.ctx.key e.ctx.nv ctr e.ctx.rnd) ∧
      (∀ i, i < e.arg1.toNat → Memory.read m' (e.arg0.toNat + i) =
        (if b then Memory.read m (e.arg0.toNat + i) else 0) ^^^ e.ctx.keystream (e.ctx.position + i)) ∧
      (∀ x, ¬InRange e.arg0.toNat e.arg1.toNat x → Memory.read m' x = Memory.read s.mem x) := by
  obtain ⟨valid, sel, hrun⟩ := State.stream_accessible (m := m) he hr hp hacc
  rw [(e.ctx.advance_same e.arg1.toNat).eq_withCursor] at hrun
  refine ⟨_, _, _, _, _, valid, sel, hrun, Context.advance_position hinv hr.1 hp, fun h0 => ?_, fun h0 => ?_,
    fun i hi => Memory.read_streamBytes hinv hr.1 hp hi b m s.mem _,
    fun x hx => Memory.read_streamBytes_outside hx b m s.mem e.ctx⟩
  · rw [h0]
    exact ⟨rfl, rfl, rfl, rfl⟩
  · exact Context.advance_cached hinv hr.1 hp fun h => h0 (BitVec.eq_of_toNat_eq h)

/-- Settles O27: the request of APPLY, which reads the buffer. -/
theorem applyXorsKeystream : Obligations.ApplyXorsKeystream := fun s _ he hr hinv hp hacc =>
  State.stream_byPosition (b := true) (m := s.mem) he hr hinv hp hacc

/-- Settles O29: a request of no byte completes before any access. -/
theorem emptyRequestsChangeNothing : Obligations.EmptyRequestsChangeNothing := by
  intro s e i k he hi hr h0 hp
  have hrun : ∀ b, s.stream k b s.mem = .next (s.putEngine { e with err := .ok }) := fun b =>
    (State.stream_ready he hr (by rwa [h0])).trans (if_pos h0)
  simp only [List.mem_cons, Prod.mk.injEq, List.not_mem_nil, or_false] at hi
  obtain ⟨rfl, rfl⟩ | ⟨rfl, rfl⟩ := hi
  · exact hrun true
  · exact hrun false

/-! ### One command after another -/

/-- From s the machine has come to t, where the active instance is e and host memory is m; the range check is the same. -/
structure State.LeadsTo (s t : State) (e : Engine) (m : Memory) : Prop where
  engine : t.engine? = some e
  mem : t.mem = m
  ranges : ∀ kinds a n, t.checkRange kinds a n = s.checkRange kinds a n

/-- The host then sets registers of the active instance. -/
theorem State.LeadsTo.putEngine {s t : State} {e : Engine} {m : Memory} (h : s.LeadsTo t e m) (e' : Engine) :
    s.LeadsTo (t.putEngine e') e' m :=
  ⟨State.putEngine_engine? h.engine e', h.mem, fun kinds a n => (State.checkRange_putEngine ..).trans (h.ranges kinds a n)⟩

theorem State.LeadsTo.refl {s : State} {e : Engine} (he : s.engine? = some e) : s.LeadsTo s e s.mem :=
  ⟨he, rfl, fun _ _ _ => rfl⟩

section
variable {s t : State} {e : Engine} {m : Memory} {k : Kind} (h : s.LeadsTo t e m) (hr : e.ctx.Ready k)
include h hr

/-- APPLY and FILL then: the next request. -/
theorem State.LeadsTo.stream {b : Bool} (hp : e.ctx.position + e.arg1.toNat ≤ endPos e.ctx.cw64)
    (hacc : s.Accessible (streamKinds b) e.arg0.toNat e.arg1.toNat) :
    ∃ u, t.stream k b t.mem = .next u ∧ s.LeadsTo u { e with ctx := e.ctx.advance e.arg1.toNat, err := .ok }
      (Memory.writeBytes m e.arg0.toNat (streamBytes b m e.arg0.toNat e.arg1.toNat e.ctx)) := by
  obtain ⟨ht, rfl, hranges⟩ := h
  obtain ⟨valid, sel, hrun⟩ := State.stream_accessible (m := t.mem) ht hr hp ((hranges ..).trans hacc)
  refine ⟨_, hrun, State.putEngine_engine? (e₀ := e) ht _, rfl, fun kinds a n => ?_⟩
  exact (State.checkRange_putEngine ..).trans (hranges kinds a n)

/-- SEEK and SET_WPOS then, to a position in range. -/
theorem State.LeadsTo.seekTo {f : Engine → Nat} {p : Nat} (hf : f e = p) (hp : p / 64 ≤ maxCtr e.ctx.cw64) :
    ∃ u, t.seekTo k f = .next u ∧ s.LeadsTo u { e with ctx := e.ctx.moveTo p, err := .ok } m :=
  ⟨_, State.seekTo_inRange h.engine hr hf hp, h.putEngine _⟩

end

/-- A position before END is one that SEEK accepts (42_cursor.md R198). -/
theorem div_le_maxCtr_of_lt_endPos {p : Nat} {w : Bool} (h : p < endPos w) : p / 64 ≤ maxCtr w := by
  simp only [endPos] at h
  omega

/-- The end of the first part of a buffer, as a register holds it; where it is 2^64, no byte is left. -/
theorem State.Accessible.splitAddress {s : State} {kinds : List AccessKind} {a l₁ l₂ : Word}
    (h : s.Accessible kinds a.toNat (l₁.toNat + l₂.toNat)) : l₂.toNat = 0 ∨ (a + l₁).toNat = a.toNat + l₁.toNat := by
  rw [State.accessible_iff] at h
  rw [BitVec.toNat_add]
  omega

/-- Where no byte is left, the address plays no part. -/
theorem Memory.writeBytes_streamBytes_address {a a' n : Nat} (h : n = 0 ∨ a = a') (b : Bool) (m : Memory) (c : Context) :
    Memory.writeBytes m a (streamBytes b m a n c) = Memory.writeBytes m a' (streamBytes b m a' n c) := by
  rcases h with rfl | rfl
  · have hnone : ∀ x, streamBytes b m x 0 c = [] := fun x => List.length_eq_zero_iff.mp (streamBytes_length ..)
    rw [hnone, hnone]
    rfl
  · rfl

/-- Settles O43: the second piece begins where the first left memory and the cursor. -/
theorem applyChunking : Obligations.ApplyChunking := by
  intro s e l₁ l₂ he hr hinv hl hp hacc
  rw [hl] at hp hacc
  have hs := State.LeadsTo.refl he
  have hpos : (e.ctx.advance l₁.toNat).position = e.ctx.position + l₁.toNat :=
    Context.advance_position hinv hr.1 (by omega)
  have hsplit := hacc.splitAddress
  obtain ⟨t, ht, hlt⟩ := hs.stream (b := true) hr (by rw [hl]; exact hp) (by rw [hl]; exact hacc)
  obtain ⟨t₁, ht₁, hlt₁⟩ := (hs.putEngine { e with arg1 := l₁ }).stream (b := true) hr
    (show e.ctx.position + l₁.toNat ≤ endPos e.ctx.cw64 by omega)
    (State.accessible_sub hacc rfl rfl (.inr ⟨le_rfl, Nat.add_le_add_left (Nat.le_add_right ..) _⟩))
  obtain ⟨t₂, ht₂, hlt₂⟩ := (hlt₁.putEngine _).stream (b := true)
    (e := { e with ctx := e.ctx.advance l₁.toNat, err := .ok, arg0 := e.arg0 + l₁, arg1 := l₂ })
    (Context.advance_ready l₁.toNat hr)
    (show (e.ctx.advance l₁.toNat).position + l₂.toNat ≤ endPos (e.ctx.advance l₁.toNat).cw64 by
      rw [(e.ctx.advance_same _).cw64]; omega)
    (State.accessible_sub hacc rfl rfl (hsplit.imp_right fun h => by
      dsimp only
      omega))
  refine ⟨t, t₁, t₂, _, _, _, ht, hlt.engine, ht₁, hlt₁.engine, ht₂, hlt₂.engine, ?_, ?_⟩
  · rw [hlt.mem, hlt₂.mem, hl, Memory.writeBytes_streamBytes_add]
    exact Memory.writeBytes_streamBytes_address hsplit _ _ _
  · rw [hl]
    exact (Context.advance_add ..).symm

/-- What a second APPLY from the same position of the same keystream makes of the bytes a first one wrote: the old bytes
(42_cursor.md R196 a). -/
theorem Memory.read_streamBytes_twice {c d : Context} {n : Nat} (hc : c.Inv) (hcr : c.cstate = .ready)
    (hcp : c.position + n ≤ endPos c.cw64) (hd : d.Inv) (hdr : d.cstate = .ready) (hdp : d.position + n ≤ endPos d.cw64)
    (hpos : d.position = c.position) (hks : d.keystream = c.keystream) (m : Memory) (a x : Nat) :
    Memory.read (Memory.writeBytes (Memory.writeBytes m a (streamBytes true m a n c)) a
      (streamBytes true (Memory.writeBytes m a (streamBytes true m a n c)) a n d)) x = Memory.read m x := by
  by_cases hx : InRange a n x
  · obtain ⟨i, rfl⟩ := Nat.exists_eq_add_of_le hx.1
    have hi : i < n := Nat.lt_of_add_lt_add_left hx.2
    rw [Memory.read_streamBytes hd hdr hdp hi, if_pos rfl, Memory.read_streamBytes hc hcr hcp hi, if_pos rfl, hpos, hks,
      BitVec.xor_assoc, BitVec.xor_self, BitVec.xor_zero]
  · rw [Memory.read_streamBytes_outside hx, Memory.read_streamBytes_outside hx]

/-- A cursor moved back to where it stood n bytes before: SEEK accepts the position, and the context is as good as the one
before (42_cursor.md R196 a). -/
theorem Context.advance_moveBack {c : Context} {k : Kind} {n : Nat} (h : c.Inv) (hr : c.Ready k)
    (hend : c.position < endPos c.cw64) (hp : c.position + n ≤ endPos c.cw64) :
    c.position / 64 ≤ maxCtr (c.advance n).cw64 ∧ ((c.advance n).moveTo c.position).Inv ∧
      ((c.advance n).moveTo c.position).Ready k ∧ ((c.advance n).moveTo c.position).position = c.position ∧
      ((c.advance n).moveTo c.position).keystream = c.keystream ∧
      ((c.advance n).moveTo c.position).position + n ≤ endPos ((c.advance n).moveTo c.position).cw64 := by
  have hsame := c.advance_same n
  have hready : (c.advance n).Ready k := Context.advance_ready n hr
  have hseek : c.position / 64 ≤ maxCtr (c.advance n).cw64 := by
    rw [hsame.cw64]
    exact div_le_maxCtr_of_lt_endPos hend
  have hpos := Context.moveTo_position (c.advance n) hseek
  refine ⟨hseek, (h.advance hr.1 hp).moveTo hready.1 hseek, (Context.moveTo_ready ..).mpr hready, hpos, ?_, ?_⟩
  · rw [Context.moveTo_keystream, hsame.keystream]
  · rw [hpos, Context.moveTo_cw64, hsame.cw64]
    exact hp

/-- Settles O44: the second APPLY XORs the keystream bytes of the first, from the same position. -/
theorem applyRoundTrip : Obligations.ApplyRoundTrip := by
  intro s e he hr hinv hend hp hacc
  obtain ⟨hseek, hinv', hr', hpos', hks', hp'⟩ := Context.advance_moveBack hinv hr hend hp
  have hop := ofNat_halves e.ctx.position (Nat.lt_trans e.ctx.position_lt (by decide))
  obtain ⟨t₁, ht₁, hlt₁⟩ := (State.LeadsTo.refl he).stream (b := true) hr hp hacc
  obtain ⟨t₂, ht₂, hlt₂⟩ := (hlt₁.putEngine { e with
    ctx := e.ctx.advance e.arg1.toNat, err := .ok
    arg0 := BitVec.ofNat 64 e.ctx.position, arg1 := BitVec.ofNat 64 (e.ctx.position / 2 ^ 64) }).seekTo
    (f := Engine.operand128) (Context.advance_ready _ hr) hop hseek
  obtain ⟨t₃, ht₃, hlt₃⟩ := (hlt₂.putEngine { e with
    ctx := (e.ctx.advance e.arg1.toNat).moveTo e.ctx.position, err := .ok }).stream (b := true) hr' hp' hacc
  refine ⟨t₁, t₂, t₃, _, _, _, ht₁, hlt₁.engine, ht₂, hlt₂.engine, ht₃, hlt₃.engine, fun x => ?_, ?_⟩
  · rw [hlt₃.mem]
    exact Memory.read_streamBytes_twice hinv hr.1 hp hinv' hr'.1 hp' hpos' hks' ..
  · exact (Context.advance_position hinv' hr'.1 hp').trans (congrArg (· + e.arg1.toNat) hpos')

/-- Settles O45: a moved cursor stands at p of the same keystream. -/
theorem seekConsistency : Obligations.SeekConsistency := by
  intro s e a l he hr hinv hp hend hacc
  obtain ⟨p, hop⟩ : ∃ p, e.arg1.toNat * 2 ^ 64 + e.arg0.toNat = p := ⟨_, rfl⟩
  rw [hop] at hp hend ⊢
  have hpos : (e.ctx.moveTo p).position = p := Context.moveTo_position _ hp
  have hready : (e.ctx.moveTo p).Ready .cipher := (Context.moveTo_ready ..).mpr hr
  have hfit : (e.ctx.moveTo p).position + l.toNat ≤ endPos (e.ctx.moveTo p).cw64 := by rw [hpos]; exact hend
  obtain ⟨t, ht, hlt⟩ := (State.LeadsTo.refl he).seekTo (f := Engine.operand128) hr hop hp
  obtain ⟨u, hu, hlu⟩ := (hlt.putEngine { e with ctx := e.ctx.moveTo p, err := .ok, arg0 := a, arg1 := l }).stream
    (b := true) hready hfit hacc
  refine ⟨t, u, _, ht, hlt.engine, hlt.mem, hu, fun i hi => ?_⟩
  rw [hlu.mem]
  refine (Memory.read_streamBytes (hinv.moveTo hr.1 hp) hready.1 hfit hi ..).trans ?_
  rw [hpos, Context.moveTo_keystream, if_pos rfl]

/-- Settles O48: on zeros APPLY writes the drawn bytes, which do not depend on the kind. -/
theorem fillIsApplyOnZeros : Obligations.FillIsApplyOnZeros := by
  intro s s' e he hr _ he' hzero hp hacc hacc'
  obtain ⟨t, ht, hlt⟩ := (State.LeadsTo.refl he).stream (b := false) hr hp hacc
  obtain ⟨u, hu, hlu⟩ := (State.LeadsTo.refl he').stream (k := .cipher) (b := true) ⟨hr.1, rfl⟩ hp hacc'
  refine ⟨t, u, _, _, ht, hlt.engine, hu, hlu.engine, Context.advance_kind .cipher _ e.ctx, fun i hi => ?_⟩
  have hlen : i < (e.ctx.drawn e.arg1.toNat).length := by rwa [Context.drawn_length]
  rw [hlt.mem, hlu.mem, streamBytes_zeros _ hzero, Context.drawn_kind, Memory.read_writeBytes_inside _ _ _ hlen]
  exact Memory.read_writeBytes_inside _ _ _ hlen

end Sys2Proof.Machine
end

section
/-! INIT on accessible inputs, by its nonce forms (42_cursor.md R190–R193; 43_subkey.md R230–R234), and what a failed INIT or
GEN_INIT leaves (42_cursor.md R192; 60_exceptions.md R284 a). -/

namespace Sys2Proof.Machine

/-! ### The context that INIT constructs -/

/-- INIT with operands it takes, on accessible inputs: the new context; the extended form has resolved the selector. -/
theorem State.runInit_accessible {s : State} {e : Engine} {r : Rounds} {c : Bool} {v : Reads} {form : NonceForm}
    (he : s.engine? = some e) (h1 : e.arg1 = 32) (hf : NonceForm.ofInitLength e.arg3 = some form)
    (hc : (e.initialCounter c).toNat ≤ maxCtr form.cw64) (hkey : s.Accessible [.read] e.arg0.toNat 32)
    (hnonce : s.Accessible [.read] e.arg2.toNat form.bytes) :
    s.runInit r c v = .next (State.putEngine (if form = .extended then s.resolve else s) { e with
      ctx := form.cipherContext r (Memory.readBytes v.key e.arg0.toNat 32) (Memory.readBytes v.nonce e.arg2.toNat form.bytes)
        (e.initialCounter c)
      err := .ok }) := by
  rw [State.runInit_reads he h1 hf hc, State.readInput_accessible hkey, State.readInput_accessible hnonce]
  rfl

theorem Engine.initialCounter_toNat (e : Engine) (c : Bool) : (e.initialCounter c).toNat = if c then e.arg4.toNat else 0 := by
  cases c <;> rfl

/-- Every counter operand fits the 64-bit counter (42_cursor.md R191). -/
theorem le_maxCtr_wide (c : Word) : c.toNat ≤ maxCtr true := Nat.le_sub_one_of_lt c.isLt

/-- A counter operand below 2^32 fits the 32-bit counter. -/
theorem le_maxCtr_narrow {n : Nat} (h : n < 2 ^ 32) : n ≤ maxCtr false := Nat.le_sub_one_of_lt h

/-- Settles O24: the short form and the standard one. -/
theorem initCompletes : Obligations.InitCompletes := by
  intro s e r c he h1 hkey hnonce
  refine ⟨fun h3 => ?_, fun h3 hc => ?_⟩
  · rw [h3] at hnonce
    exact State.runInit_accessible (form := .short) he h1 (by rw [h3]; rfl) (le_maxCtr_wide _) hkey hnonce
  · rw [h3] at hnonce
    rw [← Engine.initialCounter_toNat] at hc
    exact State.runInit_accessible (form := .standard) he h1 (by rw [h3]; rfl) (le_maxCtr_narrow hc) hkey hnonce

/-- The subkey and the subnonce of 24 nonce bytes in memory (43_subkey.md R230, R231). -/
theorem subkey_readBytes (key : Vector Byte 32) (m : Memory) (a : Nat) (r : Rounds) :
    subkey key (Memory.readBytes m a 24) r = hblock key (byteVector 16 (Memory.readBytes m a 16)) r := by
  rw [subkey, Memory.readBytes_take _ _ _ _ (by decide)]

theorem subnonce_readBytes (m : Memory) (a : Nat) :
    subnonce (Memory.readBytes m a 24) = [0, 0, 0, 0] ++ Memory.readBytes m (a + 16) 8 := by
  rw [subnonce, Memory.readBytes_drop, Memory.readBytes_take _ _ _ _ (by decide)]
  rfl

/-- Settles O25: the extended form. -/
theorem extendedInitCompletes : Obligations.ExtendedInitCompletes := by
  intro s e r c he h1 h3 hc hkey hnonce
  rw [← Engine.initialCounter_toNat] at hc
  rw [← subkey_readBytes, ← subnonce_readBytes]
  exact State.runInit_accessible (form := .extended) (v := s.reads) he h1 (by rw [h3]; rfl) (le_maxCtr_narrow hc) hkey hnonce

/-! ### A failed construction -/

/-- An INIT that ends with an error leaves the zeroized context. -/
theorem State.runInit_failed {s t : State} {e' : Engine} {r : Rounds} {c : Bool} {v : Reads} (h : s.runInit r c v = .next t)
    (he' : t.engine? = some e') (herr : e'.err ≠ .ok) : e'.ctx = Context.zero := by
  obtain ⟨e, he, h⟩ := State.onEngine_next h
  rcases State.initCipher_next h with ⟨code, -, -, rfl⟩ | ⟨x, rfl⟩ | ⟨form, -, -, rfl⟩
  · cases he'.symm.trans (State.putEngine_engine? he _)
    rfl
  · cases he'.symm.trans (State.putEngine_engine? he _)
    rfl
  · cases he'.symm.trans (State.putEngine_engine? (State.engine?_ite_resolve he _) _)
    exact absurd rfl herr

/-- So does a GEN_INIT. -/
theorem State.runGenInit_failed {s t : State} {e' : Engine} {r : Rounds} {v : Reads} (h : s.runGenInit r v = .next t)
    (he' : t.engine? = some e') (herr : e'.err ≠ .ok) : e'.ctx = Context.zero := by
  obtain ⟨e, he, h⟩ := State.onEngine_next h
  rcases State.initGenerator_next h with ⟨code, -, -, rfl⟩ | ⟨x, rfl⟩ | ⟨form, sid, -, -, rfl⟩
  all_goals cases he'.symm.trans (State.putEngine_engine? he _)
  · rfl
  · rfl
  · exact absurd rfl herr

/-- Settles O40: both zeroize before they can fail, and write no memory. -/
theorem failedConstructionZeroizes : Obligations.FailedConstructionZeroizes := by
  rintro s t e' r c (h | h) he'
  · exact ⟨State.runInit_mem h, State.runInit_failed h he'⟩
  · exact ⟨State.runGenInit_mem h, State.runGenInit_failed h he'⟩

/-! ### INIT with a counter is INIT and then SEEK -/

/-- A new context at block 0, moved to block c, is the one constructed there (42_cursor.md R193). -/
theorem Context.construct_moveTo (k : Kind) (r : Rounds) (w : Bool) (key : Vector Byte 32) (nonce : Vector Byte 12) (c : Word) :
    (Context.construct k r w key nonce 0).moveTo (64 * c.toNat) = Context.construct k r w key nonce c := by
  have hctr : BitVec.ofNat 64 (64 * c.toNat / 64) = c := by
    rw [Nat.mul_div_cancel_left _ (by decide), BitVec.ofNat_toNat, BitVec.setWidth_eq]
  rw [Context.moveTo, hctr, Nat.mul_mod_right]
  rfl

/-- Settles O46: the SEEK moves the context of counter 0 to the one of counter ARG4. -/
theorem initCounterIsInitThenSeek : Obligations.InitCounterIsInitThenSeek := by
  intro s e r he h1 hops hkey hnonce
  obtain ⟨form, hf, hc⟩ := NonceForm.ofInitLength_accepted (c := true) hops
  rw [← NonceForm.bytes_ofInitLength hf] at hnonce
  have hs := State.engine?_ite_resolve he (form = .extended)
  have hcounted := State.runInit_accessible (r := r) (c := true) (v := s.reads) he h1 hf hc hkey hnonce
  have hplain := State.runInit_accessible (r := r) (c := false) (v := s.reads) he h1 hf (Nat.zero_le _) hkey hnonce
  rw [NonceForm.cipherContext_eq] at hcounted hplain
  -- key and nonce are named, so that no step computes the subkey
  generalize (if form = .extended then subkey _ _ r else _) = key at hcounted hplain
  generalize byteVector 12 _ = nonce at hcounted hplain
  have hu := State.putEngine_engine? hs { e with ctx := Context.construct .cipher r form.cw64 key nonce 0, err := .ok }
  have hset := State.putEngine_engine? hu { e with
    ctx := Context.construct .cipher r form.cw64 key nonce 0, err := .ok
    arg0 := BitVec.ofNat 64 (64 * e.arg4.toNat), arg1 := BitVec.ofNat 64 (64 * e.arg4.toNat / 2 ^ 64) }
  have hfit : 64 * e.arg4.toNat < 2 ^ 128 := by
    have := e.arg4.isLt
    omega
  have hseek := State.seekTo_inRange (f := Engine.operand128) (k := .cipher) hset ⟨rfl, rfl⟩ (ofNat_halves _ hfit)
    (by rw [Nat.mul_div_cancel_left _ (by decide)]; exact hc)
  refine ⟨_, _, _, _, _, _, hcounted, State.putEngine_engine? hs _, hplain, hu, hseek, State.putEngine_engine? hset _,
    ?_, rfl, rfl, rfl, rfl, rfl, rfl⟩
  exact Context.construct_moveTo ..

/-! ### The extended form is DERIVE and then INIT -/

/-- What is admitted for several kinds of access is admitted for each of them. -/
theorem State.Accessible.ofKinds {s : State} {kinds kinds' : List AccessKind} {a n : Nat} (h : s.Accessible kinds a n)
    (hk : kinds' ⊆ kinds) : s.Accessible kinds' a n := by
  rw [State.accessible_iff] at h ⊢
  exact h.imp_right fun ⟨hfit, hx⟩ => ⟨hfit, fun x hr => ⟨(hx x hr).1, fun k hmem => (hx x hr).2 k (hk hmem)⟩⟩

/-- The bytes just written are read back. -/
theorem Memory.readBytes_writeBytes (m : Memory) (a : Nat) (bytes : List Byte) :
    Memory.readBytes (Memory.writeBytes m a bytes) a bytes.length = bytes := by
  refine List.ext_getElem (by simp) fun i _ hi => ?_
  rw [Memory.readBytes_getElem, Memory.read_writeBytes_inside _ _ _ hi]

/-- Two parts written together are read back one by one. -/
theorem Memory.readBytes_writeBytes_append (m : Memory) (a : Nat) {xs ys : List Byte} {n k : Nat} (hx : xs.length = n)
    (hy : ys.length = k) :
    Memory.readBytes (Memory.writeBytes m a (xs ++ ys)) a n = xs ∧
      Memory.readBytes (Memory.writeBytes m a (xs ++ ys)) (a + n) k = ys := by
  have h := Memory.readBytes_writeBytes m a (xs ++ ys)
  rw [List.length_append, hx, hy, Memory.readBytes_append] at h
  exact List.append_inj h (by rw [Memory.readBytes_length, hx])

/-- The standard form, on the bytes DERIVE wrote at a, constructs the context that the extended form constructs on DERIVE's
inputs (43_subkey.md R234). -/
theorem NonceForm.cipherContext_derived (r : Rounds) (key : List Byte) {nonce : List Byte} (hn : nonce.length = 24) (m : Memory)
    (a : Nat) (c0 : Word) :
    NonceForm.standard.cipherContext r (Memory.readBytes (Memory.writeBytes m a (deriveOutput r key nonce)) a 32)
        (Memory.readBytes (Memory.writeBytes m a (deriveOutput r key nonce)) (a + 32) 12) c0 =
      NonceForm.extended.cipherContext r key nonce c0 := by
  have hsn : (subnonce nonce).length = 12 := by simp [subnonce, hn]
  rw [NonceForm.cipherContext, NonceForm.cipherContext, deriveOutput]
  generalize subkey (byteVector 32 key) nonce r = sk
  obtain ⟨hkey, hnonce⟩ := Memory.readBytes_writeBytes_append m a sk.length_toList hsn
  rw [hkey, hnonce, byteVector_toList]

/-- DERIVE on accessible ranges. -/
theorem State.runDerive_leadsTo {s : State} {e : Engine} {r : Rounds} (he : s.engine? = some e) (h1 : e.arg1 = 32)
    (h3 : e.arg3 = 24) (hkey : s.Accessible [.read] e.arg0.toNat 32) (hnonce : s.Accessible [.read] e.arg2.toNat 24)
    (hout : s.Accessible [.write] e.arg5.toNat 44) :
    ∃ t, s.runDerive r s.reads = .next t ∧ s.LeadsTo t { e with err := .ok } (Memory.writeBytes s.mem e.arg5.toNat
      (deriveOutput r (Memory.readBytes s.mem e.arg0.toNat 32) (Memory.readBytes s.mem e.arg2.toNat 24))) := by
  have hs : s.resolve.engine? = some e := (State.resolve_engine? s).trans he
  have hout' : s.resolve.Accessible [.write] e.arg5.toNat 44 := (State.checkRange_resolve ..).trans hout
  rw [State.runDerive_output he h1 h3 hkey hnonce, State.reads]
  -- the output is named, so that no step computes the subkey in it
  generalize deriveOutput r _ _ = out
  refine ⟨_, State.writeOutput_accessible hout', State.putEngine_withMem_engine? hs _ _,
    congrArg (Memory.writeBytes · e.arg5.toNat out) s.resolve_mem, fun kinds a n => ?_⟩
  exact (State.checkRange_putEngine ..).trans (State.checkRange_resolve ..)

/-- INIT on accessible ranges, from where the machine has come to. -/
theorem State.LeadsTo.runInit {s t : State} {e : Engine} {m : Memory} {r : Rounds} {c : Bool} {form : NonceForm}
    (h : s.LeadsTo t e m) (h1 : e.arg1 = 32) (hf : NonceForm.ofInitLength e.arg3 = some form)
    (hc : (e.initialCounter c).toNat ≤ maxCtr form.cw64) (hkey : s.Accessible [.read] e.arg0.toNat 32)
    (hnonce : s.Accessible [.read] e.arg2.toNat form.bytes) :
    ∃ u, t.runInit r c t.reads = .next u ∧ s.LeadsTo u { e with
      ctx := form.cipherContext r (Memory.readBytes m e.arg0.toNat 32) (Memory.readBytes m e.arg2.toNat form.bytes)
        (e.initialCounter c)
      err := .ok } m := by
  obtain ⟨ht, rfl, hranges⟩ := h
  refine ⟨_, State.runInit_accessible ht h1 hf hc ((hranges ..).trans hkey) ((hranges ..).trans hnonce),
    State.putEngine_engine? (State.engine?_ite_resolve ht _) _, ?_, fun kinds a n => ?_⟩
  · rw [State.putEngine_mem]
    split
    · exact t.resolve_mem
    · rfl
  · rw [State.checkRange_putEngine, ← hranges]
    split
    · exact State.checkRange_resolve ..
    · rfl

/-- Settles O47: the 44 bytes of DERIVE are read back as the subkey and the subnonce that the extended form takes. -/
theorem extendedInitIsDerivedInit : Obligations.ExtendedInitIsDerivedInit := by
  intro s e r he h1 h3 hkey hnonce hout
  have hread : s.Accessible [.read] e.arg5.toNat 44 := hout.ofKinds (by simp)
  have haddr : (e.arg5 + 32).toNat = e.arg5.toNat + 32 :=
    (State.Accessible.splitAddress (l₁ := 32) (l₂ := 12) hread).resolve_left (by decide)
  obtain ⟨t, ht, hlt⟩ := (State.LeadsTo.refl he).runInit (r := r) (c := false) (form := .extended) h1 (by rw [h3]; rfl)
    (Nat.zero_le _) hkey hnonce
  obtain ⟨d, hd, hld⟩ := State.runDerive_leadsTo (r := r) he h1 h3 hkey hnonce (hout.ofKinds (by simp))
  obtain ⟨u, hu, hlu⟩ := (hld.putEngine { e with err := .ok, arg0 := e.arg5, arg2 := e.arg5 + 32, arg3 := 12 }).runInit
    (r := r) (c := false) (form := .standard) h1 rfl (Nat.zero_le _)
    (State.accessible_sub hread rfl rfl (.inr ⟨le_rfl, Nat.add_le_add_left (by decide) _⟩))
    (State.accessible_sub hread rfl rfl (.inr (by rw [haddr]; exact ⟨by omega, le_rfl⟩)))
  have hctx := NonceForm.cipherContext_derived r (Memory.readBytes s.mem e.arg0.toNat 32)
    (Memory.readBytes_length s.mem e.arg2.toNat 24) s.mem e.arg5.toNat 0
  rw [← haddr] at hctx
  exact ⟨t, d, u, _, _, _, ht, hlt.engine, hd, hld.engine, hu, hlu.engine, hctx, congrArg Context.keystream hctx⟩

end Sys2Proof.Machine
end

section
/-! DERIVE on accessible ranges (43_subkey.md R230–R233). -/

namespace Sys2Proof.Machine

/-- DERIVE on accessible ranges writes its 44 bytes, and the selector has resolved. -/
theorem State.runDerive_accessible {s : State} {e : Engine} {r : Rounds} {v : Reads} (he : s.engine? = some e)
    (h1 : e.arg1 = 32) (h3 : e.arg3 = 24) (hkey : s.Accessible [.read] e.arg0.toNat 32)
    (hnonce : s.Accessible [.read] e.arg2.toNat 24) (hout : s.Accessible [.write] e.arg5.toNat 44) :
    s.runDerive r v = .next (State.putEngine { s.resolve with
      mem := Memory.writeBytes s.mem e.arg5.toNat
        (deriveOutput r (Memory.readBytes v.key e.arg0.toNat 32) (Memory.readBytes v.nonce e.arg2.toNat 24)) }
      { e with err := .ok }) := by
  have hout' : s.resolve.Accessible [.write] e.arg5.toNat 44 := (State.checkRange_resolve ..).trans hout
  rw [State.runDerive_output he h1 h3 hkey hnonce, State.writeOutput_accessible hout', State.resolve_mem]

/-- The subkey's bytes, of 24 nonce bytes in memory (43_subkey.md R230). -/
theorem deriveOutput_readBytes_subkey (r : Rounds) (key : List Byte) (m : Memory) (a : Nat) (i : Fin 32) :
    (deriveOutput r key (Memory.readBytes m a 24)).getD i.val 0 =
      (hblock (byteVector 32 key) (byteVector 16 (Memory.readBytes m a 16)) r)[i] := by
  rw [deriveOutput_getD_subkey _ _ _ i.isLt, subkey_readBytes]
  generalize hblock _ _ r = sk
  rw [List.getD_eq_getElem _ _ (by simp), Vector.getElem_toList, Fin.getElem_fin]

/-- The subnonce's last 8 bytes, of 24 nonce bytes in memory (43_subkey.md R231). -/
theorem deriveOutput_readBytes_suffix (r : Rounds) (key : List Byte) (m : Memory) (a : Nat) {i : Nat} (h : 36 ≤ i)
    (hi : i < 44) :
    (deriveOutput r key (Memory.readBytes m a 24)).getD i 0 = Memory.read m (a + 16 + (i - 36)) := by
  rw [deriveOutput_getD_subnonce _ _ _ (by omega) hi, if_neg (by omega), Memory.readBytes_getD, if_pos (by omega),
    show a + (i - 20) = a + 16 + (i - 36) by omega]

/-- Settles O31: the 44 bytes written are the subkey's 32, the four zeros and the nonce's last 8. -/
theorem deriveCompletes : Obligations.DeriveCompletes := by
  intro s e r he h1 h3 hkey hnonce hout
  have hrun := State.runDerive_accessible (r := r) (v := s.reads) he h1 h3 hkey hnonce hout
  rw [State.reads] at hrun
  have hlength := deriveOutput_length r (Memory.readBytes s.mem e.arg0.toNat 32)
    (Memory.readBytes_length s.mem e.arg2.toNat 24)
  have hbyte := fun i (hi : i < 44) => Memory.read_writeBytes_getD s.mem e.arg5.toNat (hi.trans_eq hlength.symm)
  refine ⟨_, hrun, fun i => ?_, fun i h hi => ?_, fun i h hi => ?_, fun x hx => ?_⟩
  · exact (hbyte i (by omega)).trans (deriveOutput_readBytes_subkey ..)
  · rw [hbyte i (by omega), deriveOutput_getD_subnonce _ _ _ h (by omega), if_pos hi]
  · rw [hbyte i hi, deriveOutput_readBytes_suffix _ _ _ _ h hi]
  · exact Memory.read_writeBytes_outside _ _ _ (by rwa [hlength])

end Sys2Proof.Machine
end

section
/-! The generator commands (44_generator.md R250–R259): GET_WPOS and SET_WPOS as a word position, GEN_INIT on accessible inputs,
FILL within the keystream, and the requests of FILL and APPLY that end past it. -/

namespace Sys2Proof.Machine

/-! ### The word position -/

/-- Settles O21: GET_WPOS reports the word position as the 128-bit result. -/
theorem getWposReportsWords : Obligations.GetWposReportsWords := fun _ _ he hr =>
  State.report_ready (f := fun c => c.position / 4) he hr

/-- Word n lies in block n div 16 (44_generator.md R255). -/
theorem word_div_block (n : Nat) : 4 * n / 64 = n / 16 := Nat.mul_div_mul_left n 16 (by decide)

/-- The cursor at word n: byte 4 · (n mod 16) of block n div 16 (44_generator.md R255). -/
theorem Context.moveTo_word (c : Context) (n : Nat) :
    c.moveTo (4 * n) = { c with ctr := BitVec.ofNat 64 (n / 16), ofs := BitVec.ofNat 7 (n % 16 * 4), bufv := false } := by
  rw [Context.moveTo, word_div_block, Nat.mul_mod_mul_left 4 n 16, Nat.mul_comm]

/-- Settles O23: the operand's block number is compared with MAXCTR. -/
theorem setWposMovesCursor : Obligations.SetWposMovesCursor := by
  intro s e he hr
  have hblock : 4 * e.operand128 / 64 = e.operand128 / 16 := word_div_block e.operand128
  refine ⟨fun hp => ?_, fun hp => ?_⟩
  · have hrun := State.seekTo_inRange (f := fun e => 4 * e.operand128) he hr rfl (hblock.trans_le hp)
    rw [Context.moveTo_word] at hrun
    exact hrun
  · exact State.seekTo_outOfRange (f := fun e => 4 * e.operand128) he hr (hp.trans_eq hblock.symm)

/-- Settles O42: the word position fits the result registers, and four times it is the last multiple of 4 up to P, which lies
before END with P. -/
theorem wordPositionResumes : Obligations.WordPositionResumes := by
  intro s e he hr _ hend
  have hword : 4 * (e.ctx.position / 4) = e.ctx.position - e.ctx.position % 4 := by omega
  have hp : 4 * (e.ctx.position / 4) / 64 ≤ maxCtr e.ctx.cw64 := div_le_maxCtr_of_lt_endPos (by omega)
  have hfit : e.ctx.position / 4 < 2 ^ 128 := by
    have := e.ctx.position_lt
    omega
  have hget := State.report_ready (f := fun c => c.position / 4) he hr
  have hlt := (State.LeadsTo.refl he).putEngine { e.setResult (e.ctx.position / 4) with err := .ok }
  obtain ⟨u, hset, hlu⟩ := (hlt.putEngine { e.setResult (e.ctx.position / 4) with
    err := .ok
    arg0 := BitVec.ofNat 64 (e.ctx.position / 4)
    arg1 := BitVec.ofNat 64 (e.ctx.position / 4 / 2 ^ 64) }).seekTo
    (f := fun e => 4 * e.operand128) hr (congrArg (4 * ·) (ofNat_halves _ hfit)) hp
  exact ⟨_, u, _, _, hget, hlt.engine, hset, hlu.engine, rfl, (Context.moveTo_position e.ctx hp).trans hword,
    Context.moveTo_keystream e.ctx _⟩

/-! ### GEN_INIT -/

/-- GEN_INIT with operands it takes, on accessible inputs: the context constructed from the seed and the n bytes of the stream
id, with zeros behind them. -/
theorem State.runGenInit_accessible {s : State} {e : Engine} {r : Rounds} {v : Reads} {form : NonceForm} {n : Nat}
    (he : s.engine? = some e) (h1 : e.arg1 = 32) (hf : NonceForm.ofStreamLength e.arg3 = some form) (hn : e.arg3.toNat = n)
    (hkey : s.Accessible [.read] e.arg0.toNat 32) (hsid : s.Accessible [.read] e.arg2.toNat e.arg3.toNat) :
    s.runGenInit r v = .next (s.putEngine { e with
      ctx := Context.construct .generator r form.cw64 (byteVector 32 (Memory.readBytes v.key e.arg0.toNat 32))
        (byteVector 12 (Memory.readBytes v.nonce e.arg2.toNat n)) 0
      err := .ok }) := by
  rw [← hn, ← Engine.byteVector_streamId, ← NonceForm.generatorContext_eq, State.runGenInit_reads he h1 hf,
    State.readInput_accessible hkey, Engine.streamId]
  split
  · rfl
  · next h0 =>
    rw [NonceForm.bytes_ofStreamLength hf h0, State.readInput_accessible hsid]
    rfl

/-- A nonce of no bytes is all zeros (44_generator.md R251). -/
theorem byteVector_nil (n : Nat) : byteVector n [] = Vector.replicate n 0 := by
  ext i hi
  simp

/-- Settles O26: an absent stream id is one of no bytes, and the zeros written out behind a short one are those that fill it. -/
theorem genInitCompletes : Obligations.GenInitCompletes := by
  intro s e r he h1 hkey hsid
  refine ⟨fun h3 => ?_, fun h3 => ?_, fun h3 => ?_⟩
  · rw [← byteVector_nil]
    exact State.runGenInit_accessible (form := .short) (n := 0) he h1 (by rw [h3]; rfl) (by rw [h3]; rfl) hkey hsid
  · rw [show ([0, 0, 0, 0] : List Byte) = List.replicate 4 0 from rfl, byteVector_append_zeros]
    exact State.runGenInit_accessible (form := .short) he h1 (by rw [h3]; rfl) (by rw [h3]; rfl) hkey hsid
  · exact State.runGenInit_accessible (form := .standard) he h1 (by rw [h3]; rfl) (by rw [h3]; rfl) hkey hsid

/-! ### FILL, and requests past the end of the keystream -/

/-- Settles O28: the request of FILL, which reads no byte of its buffer. -/
theorem fillWritesKeystream : Obligations.FillWritesKeystream := by
  intro s e he hr hinv hp hacc
  obtain ⟨m, ctr, ofs, bufv, buf, valid, sel, hrun, hpos, hnone, hsome, hbytes, hrest⟩ :=
    State.stream_byPosition (b := false) (m := s.mem) he hr hinv hp hacc
  exact ⟨m, ctr, ofs, bufv, buf, valid, sel, hrun, hpos, hnone, hsome, fun i hi => (hbytes i hi).trans BitVec.zero_xor, hrest⟩

/-- A request that ends past END stops before any access (42_cursor.md R195, 44_generator.md R259). -/
theorem State.stream_pastEnd {s : State} {e : Engine} {k : Kind} {b : Bool} {m : Memory} (he : s.engine? = some e)
    (hr : e.ctx.Ready k) (hp : endPos e.ctx.cw64 < e.ctx.position + e.arg1.toNat) :
    s.stream k b m = .next (s.putEngine { e with ctx := { e.ctx with cstate := .fault }, err := .counterOverflow }) := by
  rw [State.stream, State.onEngine_some he, Context.requireReady_none.mpr hr]
  exact if_pos hp

/-- Settles O30: the two commands' requests. -/
theorem requestsPastTheEndFault : Obligations.RequestsPastTheEndFault := by
  intro s e i k he hi hr hp
  simp only [List.mem_cons, Prod.mk.injEq, List.not_mem_nil, or_false] at hi
  obtain ⟨rfl, rfl⟩ | ⟨rfl, rfl⟩ := hi
  · exact State.stream_pastEnd (b := true) (m := s.mem) he hr hp
  · exact State.stream_pastEnd (b := false) (m := s.mem) he hr hp

end Sys2Proof.Machine
end

section
/-! Illegal command words (60_exceptions.md R281): what raising IllegalCommand leaves, and that issuing an illegal word and
beginning it are both that. -/

namespace Sys2Proof.Machine

/-- IllegalCommand on an instance there is ends with its code in STATUS.ERR and nothing else changed. -/
theorem State.raiseIllegal_some {s : State} {e : Engine} (he : s.engine? = some e) :
    s.raiseIllegal = .next (s.putEngine { e with err := .illegalCommand }) := State.onEngine_some he _

theorem State.issue_illegal {s : State} {k : Nat} {w : Word} {why : DecodeError} (h : decode w = .error why) :
    s.issue k w = State.raiseIllegal { s with active := k } := by simp only [State.issue, h]

theorem State.begin_illegal {s : State} {agent k : Nat} {w : Word} {why : DecodeError} (h : decode w = .error why) :
    s.begin agent k w = State.raiseIllegal { s with active := k } := by simp only [State.begin, h]

/-- Settles O6: whether the write completes or only begins, an illegal word raises IllegalCommand at once. -/
theorem illegalCommandChangesOnlyErr : Obligations.IllegalCommandChangesOnlyErr := by
  intro s agent k w why e hdec he hn
  have he' : (s.commandState k).engine? = some e := he
  have hstep : step s = (s.commandState k).raiseIllegal := by
    rcases hn with hwrite | hbegin
    · exact (step_command hwrite).trans (State.issue_illegal hdec)
    · exact (step_begins hbegin).trans (State.begin_illegal hdec)
  exact hstep.trans (State.raiseIllegal_some he')

end Sys2Proof.Machine
end

section
/-! Power-on reset (70_reset_and_hazards.md R310): the operation waits for no command, every instance it leaves is
`Engine.zero`, and host memory changes only where a command it cuts off may leave any value (log 17). -/

namespace Sys2Proof.Machine

/-- Power-on reset is no agent's operation and no CMD write, so it waits for no command in flight. -/
theorem State.performs_powerOnReset {s : State} (h : s.hostOps[s.pc]? = some .powerOnReset) : s.Performs .powerOnReset :=
  ⟨h, State.awaited_eq_none.mpr fun _ _ => ⟨nofun, nofun⟩⟩

theorem step_powerOnReset {s : State} (h : s.hostOps[s.pc]? = some .powerOnReset) :
    step s = .next (State.powerOnReset { s with pc := s.pc + 1 }) := step_performs (State.performs_powerOnReset h)

/-- Cutting a command off can change the bytes of its write ranges and those raced for, and no other. -/
theorem Flight.untouched_cutOff {f : Flight} {x : Nat} (hraced : Untouched f.raced x)
    (hwrites : ∀ a n, (.write, a, n) ∈ f.ranges → ¬InRange a n x) : Untouched f.cutOff x := by
  intro r hr
  rcases List.mem_append.mp hr with hwrite | hr
  · obtain ⟨hmem, hkind⟩ := List.mem_filter.mp hwrite
    obtain ⟨kind, a, n⟩ := r
    obtain rfl : kind = .write := eq_of_beq hkind
    exact hwrites a n hmem
  · exact hraced r hr

theorem State.powerOnReset_mem_idle {s : State} (h : s.pending = []) : s.powerOnReset.mem = s.mem := by
  rw [State.powerOnReset, h]
  rfl

theorem State.powerOnReset_read_other {s : State} {x : Nat} (h : ∀ f ∈ s.pending, Untouched f.cutOff x) :
    Memory.read s.powerOnReset.mem x = Memory.read s.mem x := by
  refine Memory.read_scramble_other _ _ _ fun r hr => ?_
  obtain ⟨f, hf, hr⟩ := List.mem_flatMap.mp hr
  exact h f hf r hr

theorem State.powerOnReset_engines_length (s : State) : s.powerOnReset.engines.length = s.engines.length :=
  List.length_replicate

theorem State.eq_zero_of_mem_powerOnReset {s : State} {e : Engine} (h : e ∈ s.powerOnReset.engines) : e = Engine.zero :=
  List.eq_of_mem_replicate h

/-- Settles O15: the machine after the step is `State.powerOnReset`, whose instances are all `Engine.zero`. -/
theorem powerOnResetClears : Obligations.PowerOnResetClears := by
  intro s hop
  refine ⟨_, step_powerOnReset hop, State.powerOnReset_engines_length _, rfl, rfl, State.powerOnReset_mem_idle,
    fun x hx => State.powerOnReset_read_other fun f hf => ?_, fun e he => ?_⟩
  · obtain ⟨hraced, hwrites⟩ := hx f hf
    exact Flight.untouched_cutOff hraced hwrites
  · obtain rfl := State.eq_zero_of_mem_powerOnReset he
    have hstatus : Engine.zero.status = 0 := Engine.zero_readRegister .status
    exact ⟨rfl, rfl, rfl, rfl, rfl, rfl, rfl, rfl, rfl, hstatus, rfl, rfl, rfl, rfl, fun i => Vector.getElem_replicate _,
      fun i => Vector.getElem_replicate _, rfl, rfl, rfl, fun i => Vector.getElem_replicate _⟩

end Sys2Proof.Machine
end
